-- ==== Sys2Proof/Word.lean ====
section
/-! DEFINITION. The word and byte types, and the operand types that are plain numbers. -/

namespace Sys2Proof

/-- A 32-bit value: a register, an address, an instruction word (00_scope.md R2, R9). -/
abbrev Word := BitVec 32

/-- A memory byte or one byte of a register (00_scope.md R10, 10_state.md R37). -/
abbrev Byte := BitVec 8

/-- A general purpose register number 0..31 (10_state.md R20, R22). -/
abbrev GprNum := Fin 32

/-- A CPR operand address: bit 4 is the mode, bits 3:0 the register number (10_state.md R26). -/
abbrev CprAddr := BitVec 5

/-- The number of a stored CPR word (10_state.md R24). -/
abbrev CprNum := Fin 16

/-- The index of a byte in a 32-bit value; byte 0 is the least significant (00_scope.md R10). -/
abbrev ByteIdx := Fin 4

end Sys2Proof
end

