-- ==== Sys2Proof/Config.lean ====
section
/-! DEFINITION. What an implementation fixes: the OPEN parameters of 00_scope.md R8 and the free values. -/

namespace Sys2Proof

/-- The direction in which ROT.px rotates: the OPEN parameter `ROT_DIR` (00_scope.md R8, 92_eei_decisions.md D10). -/
inductive RotDir where
  | left
  | right
  deriving DecidableEq, Repr

/-- The two kinds of data access that `MemMap` tells apart (20_memory.md R53). -/
inductive AccessKind where
  | read
  | write
  deriving DecidableEq, Repr

/-- A region `lo..hi` refused to the accesses of kind `kind` and size `size`: those with any byte in it are not
performed (60_exceptions.md R221; log 22). -/
structure RefusedWindow where
  kind : AccessKind
  size : Nat
  lo   : Word
  hi   : Word
  deriving DecidableEq, Repr

/-- The region `lo..hi` refused to every access of kind `kind`. -/
def RefusedWindow.everySize (kind : AccessKind) (lo hi : Word) : List RefusedWindow :=
  [⟨kind, 1, lo, hi⟩, ⟨kind, 2, lo, hi⟩, ⟨kind, 4, lo, hi⟩]

/-- One access that the platform turns down as a whole, though none of its bytes lies in a refused region: its kind, size
and start address, the three things that `MemMap` decides by (20_memory.md R53). -/
structure RefusedAccess where
  kind : AccessKind
  size : Nat
  addr : Word
  deriving DecidableEq, Repr

/-- The OPEN parameter `MemMap` as plain data: what it refuses (20_memory.md R53; log 7, 22). -/
structure MemMap where
  windows  : List RefusedWindow
  accesses : List RefusedAccess
  deriving DecidableEq, Repr

/-- The `MemMap` that admits everything, the spec's instance for a model without access faults (20_memory.md R53). -/
def MemMap.admitsAll : MemMap := ⟨[], []⟩

/-- The OPEN parameters of 00_scope.md R8 that an instruction's effect depends on, as plain data.
Every statement about all states quantifies over them; no step writes them (log 5, 6, 7). -/
structure Platform where
  /-- `MISALIGNED_SUPPORTED` (20_memory.md R57). -/
  misalignedSupported : Bool
  /-- `ROT_DIR` (41_packed_arithmetic.md section 6). -/
  rotDir : RotDir
  /-- `MemMap` (20_memory.md R53). -/
  memMap : MemMap
  deriving DecidableEq, Repr

/-- `IMM_W` of the provisional encoding, the default of the parameter `Encoding.immW` (30_encoding.md R90; log 15). -/
abbrev Config.immW : Nat := 10

/-- The default of `XC_OPCODE`, bits 6:0 of every ISE word (30_encoding.md R84; log 14). -/
def Config.opcode : BitVec 7 := 0b0101011#7

/-- DESIGN CHOICE (log 3): `RESET_PC`, which the spec leaves OPEN; its examples start here. -/
def Config.resetPc : Word := 0

/-- DESIGN CHOICE (log 1): the value of `x[i]`, i in 1..31, at reset; nothing constrains it (10_state.md R39). -/
opaque Config.launchGpr : GprNum → Word

/-- DESIGN CHOICE (log 2): byte k of `c[n]` at reset; nothing constrains it (10_state.md R39). -/
opaque Config.launchCprByte : CprNum → ByteIdx → Byte

/-- DESIGN CHOICE (log 4): what memory held at launch at an address the model lists no byte for; nothing
constrains it (10_state.md R39, 20_memory.md R64). -/
opaque Config.launchByte : Nat → Byte

/-- The n-th free 32-bit value: `SHIFT_OOR` and the draw of ROT.px (41_packed_arithmetic.md R145, R154; log 10). -/
opaque Config.freeWord : Nat → Word

/-- DESIGN CHOICE (log 5): `MISALIGNED_SUPPORTED` of the machine that `State.reset` describes. -/
opaque Config.misalignedSupported : Bool

/-- The direction a rotation takes when the bit is set. -/
def RotDir.ofBool (b : Bool) : RotDir := if b then .left else .right

/-- DESIGN CHOICE (log 6): whether `ROT_DIR` of the machine that `State.reset` describes is left. -/
opaque Config.rotatesLeft : Bool

/-- The platform of `State.reset` (log 5, 6, 7): both Booleans free, and a `MemMap` that admits everything. -/
def Config.platform : Platform where
  misalignedSupported := Config.misalignedSupported
  rotDir := RotDir.ofBool Config.rotatesLeft
  memMap := .admitsAll

end Sys2Proof
end

