-- ==== Sys2Proof/Machine/Bits.lean ====
section
/-! DEFINITION. The bytes of a word: the one place where byte order is decided (00_scope.md R10, 20_memory.md R54). -/

namespace Sys2Proof.Machine

/-- `byte(v, k) = v[8k+7 : 8k]` (00_scope.md R10). -/
def byte (v : Word) (k : ByteIdx) : Byte := v.extractLsb' (8 * k.val) 8

/-- The word whose byte k is `bk`; byte 0 is the least significant (00_scope.md R10). -/
def wordOfBytes (b0 b1 b2 b3 : Byte) : Word := b3 ++ b2 ++ b1 ++ b0

/-- The word whose byte k is `f k` (00_scope.md R10). -/
def ofBytes (f : ByteIdx → Byte) : Word := wordOfBytes (f 0) (f 1) (f 2) (f 3)

/-- `v` with its byte k replaced by `b`. -/
def setByte (v : Word) (k : ByteIdx) (b : Byte) : Word := ofBytes (fun i => if i = k then b else byte v i)

end Sys2Proof.Machine
end

