-- ==== Sys2Proof/Machine/State.lean ====
section
/-! DEFINITION. The machine's state as plain data, the reasons a step can stop, and the state after reset. -/

namespace Sys2Proof.Machine

/-- Memory (10_state.md R37): the bytes the launch memory or a store gave a value, as (address, byte) pairs with
strictly rising addresses. An unlisted address reads as no value here (`Memory.byte?` gives `none`), so no entry can
equal what an unlisted address reads as; the machine reads `Config.launchByte` there (log 4). -/
abbrev Memory := List Host.Cell

/-- A set of byte addresses as a strictly rising list. -/
abbrev AddrSet := List Nat

/-- The state. `x`, `c`, `pc` and `mem` are the spec's; the other four fields are the model's own (INVENTORY.md). -/
structure State where
  /-- The general purpose registers (10_state.md R20). Slot 0 holds 0 and is never read or written (log 21). -/
  x : Vector Word 32
  /-- The sixteen stored words of the CPR file (10_state.md R24). -/
  c : Vector Word 16
  /-- The program counter (10_state.md R33). -/
  pc : Word
  /-- Memory (10_state.md R37). -/
  mem : Memory
  /-- The OPEN parameters `MISALIGNED_SUPPORTED`, `ROT_DIR`, `MemMap` (00_scope.md R8); no step writes it. -/
  platform : Platform
  /-- How many free values have been drawn (log 10). -/
  draws : Nat
  /-- The addresses this run has fetched from (20_memory.md R66; log 12). -/
  fetched : AddrSet
  /-- The addresses this run has stored to (20_memory.md R66; log 12). -/
  stored : AddrSet
  deriving DecidableEq, Repr

/-- The synchronous exceptions of 60_exceptions.md R210, the complete list. -/
inductive Cause where
  | illegalInstruction
  | loadAddressMisaligned
  | loadAccessFault
  | storeAddressMisaligned
  | storeAccessFault
  deriving DecidableEq, Repr

/-- What stops the machine. -/
inductive Fault where
  /-- The trap record `Trap(cause, tval, epc)` with its state component, the state before the instruction
  (60_exceptions.md R214). Raised by a reserved ISE word and by the `.cr` loads and stores. Safe: the spec ends
  the run here, where a host might run a handler (log 16). -/
  | trap (cause : Cause) (tval epc : Word) (before : State)
  /-- A fault of the host step, `HostStep`, on a word that is not an ISE word. Raised by `applyHost` only. Safe: what
  the host does is a parameter (log 11). -/
  | host (cause tval epc : Word) (before : State)
  deriving DecidableEq, Repr

/-- Where the model gives a program no meaning (60_exceptions.md R228). -/
inductive Refusal where
  /-- An instruction that has no meaning yet. No arm of `exec` answers it. Safe. -/
  | notModelled (mnemonic : String)
  /-- One of the eleven named-only instructions (43_multiprecision.md R189, 44_memory_access.md R205, R206). Raised
  by their meanings. Safe: the spec says that a model refuses them by name. -/
  | namedOnly (mnemonic : String)
  /-- A `.cr` or host store to a byte the run has fetched (20_memory.md R66). Raised by the stores and by `applyHost`. Safe (log 12). -/
  | storeToFetchedCode (addr : Word)
  /-- A fetch of a byte the run has stored to (20_memory.md R66). Raised by `fetch`. Safe (log 12). -/
  | fetchOfStoredByte (pc : Word)
  /-- A fetch `MemMap` does not admit: the spec names no exception for it (20_memory.md R53, R55). Raised by `fetch`. Safe (log 8). -/
  | fetchNotAdmitted (pc : Word)
  /-- An ISE word at a `pc` that is no multiple of 4, which the spec calls outside it (10_state.md R34). Raised by
  `step`'s run of the fetched word. Safe (log 9). -/
  | fetchMisaligned (pc : Word)
  /-- The host step gives the word no meaning. Raised by `applyHost`. Safe (log 11). -/
  | hostStep (inst : Word)
  deriving DecidableEq, Repr

/-- The answer of one step. -/
abbrev Outcome := Host.Outcome State Fault Refusal

/-- DESIGN CHOICE (log 2): stored word n of the CPR file at reset, drawn per byte (10_state.md R39). -/
def launchCpr (n : CprNum) : Word := ofBytes (Config.launchCprByte n)

/-- The machine right after reset (10_state.md R39, 70_reset_and_hazards.md R240): `x[0]` is 0; every other register
and every memory byte holds an unconstrained launch value (log 1, 2, 4); `pc` is `RESET_PC` (log 3). -/
def State.reset : State where
  x := #v[0, Config.launchGpr 1, Config.launchGpr 2, Config.launchGpr 3, Config.launchGpr 4, Config.launchGpr 5,
    Config.launchGpr 6, Config.launchGpr 7, Config.launchGpr 8, Config.launchGpr 9, Config.launchGpr 10,
    Config.launchGpr 11, Config.launchGpr 12, Config.launchGpr 13, Config.launchGpr 14, Config.launchGpr 15,
    Config.launchGpr 16, Config.launchGpr 17, Config.launchGpr 18, Config.launchGpr 19, Config.launchGpr 20,
    Config.launchGpr 21, Config.launchGpr 22, Config.launchGpr 23, Config.launchGpr 24, Config.launchGpr 25,
    Config.launchGpr 26, Config.launchGpr 27, Config.launchGpr 28, Config.launchGpr 29, Config.launchGpr 30,
    Config.launchGpr 31]
  c := #v[launchCpr 0, launchCpr 1, launchCpr 2, launchCpr 3, launchCpr 4, launchCpr 5, launchCpr 6, launchCpr 7,
    launchCpr 8, launchCpr 9, launchCpr 10, launchCpr 11, launchCpr 12, launchCpr 13, launchCpr 14, launchCpr 15]
  pc := Config.resetPc
  mem := []
  platform := Config.platform
  draws := 0
  fetched := []
  stored := []

end Sys2Proof.Machine
end

