-- ==== Sys2Proof/Machine/Ops.lean ====
section
/-! DEFINITION. The named operations over registers and memory, completing an instruction, drawing a free value, and
raising an exception. -/

namespace Sys2Proof.Machine

/-! ## Exceptions -/

/-- The exception code (60_exceptions.md R210); it labels the trap record and nothing computes with it. -/
def Cause.code : Cause → Nat
  | .illegalInstruction => 2
  | .loadAddressMisaligned => 4
  | .loadAccessFault => 5
  | .storeAddressMisaligned => 6
  | .storeAccessFault => 7

/-- `raise E(info)`: the outcome is the trap record with `tval = info`, `epc = pc` and the state before the
instruction, and the run ends there (60_exceptions.md R214, R221). The spec describes no handler entry, and there is
no return from an exception (60_exceptions.md R217, R218), so no operation for one stands here (log 16). -/
def raise (e : Cause) (info : Word) (s : State) : Outcome := .fault (.trap e info s.pc s)

/-- `pc <- (pc + 4) mod 2^32` (10_state.md R34). -/
def State.advance (s : State) : State := { s with pc := s.pc + 4 }

/-- Normal completion of an ISE instruction (10_state.md R34). -/
def retire (s : State) : Outcome := .next s.advance

/-! ## General purpose registers -/

/-- `x[i]`; `x[0]` is 0 (10_state.md R20). -/
def State.gpr (s : State) (i : GprNum) : Word := if i = 0 then 0 else s.x[i]

/-- `x[i] <- v`; discarded when i = 0 (10_state.md R21). -/
def State.setGpr (s : State) (i : GprNum) (v : Word) : State :=
  if i = 0 then s else { s with x := s.x.set i v }

/-! ## Free values -/

/-- The value the next draw gives (41_packed_arithmetic.md R145, R154; log 10). -/
def State.drawn (s : State) : Word := Config.freeWord s.draws

/-- The state after a draw: the next draw is another one. -/
def State.noteDraw (s : State) : State := { s with draws := s.draws + 1 }

/-! ## Sets of addresses -/

/-- Adds an address, keeping the list strictly rising. -/
def AddrSet.insert : AddrSet → Nat → AddrSet
  | [], a => [a]
  | b :: t, a => if a < b then a :: b :: t else if a = b then b :: t else b :: AddrSet.insert t a

/-- Adds the addresses of a list. -/
def AddrSet.insertAll : AddrSet → List Word → AddrSet
  | t, [] => t
  | t, a :: as => AddrSet.insertAll (AddrSet.insert t a.toNat) as

/-- Whether a list of addresses meets the set. -/
def AddrSet.meets (t : AddrSet) (as : List Word) : Bool := as.any (fun a => decide (a.toNat ∈ t))

/-- Every address is at least `lo` and below 2^32, and the list rises strictly. -/
def AddrSet.risesFrom : Nat → AddrSet → Bool
  | _, [] => true
  | lo, a :: t => decide (lo ≤ a) && decide (a < 2 ^ 32) && AddrSet.risesFrom (a + 1) t

/-- The canonical form of an address set. -/
def AddrSet.wf (t : AddrSet) : Bool := AddrSet.risesFrom 0 t

/-! ## Memory -/

/-- What the list says of an address: its byte, or no value if it is unlisted. -/
def Memory.byte? : Memory → Nat → Option Byte
  | [], _ => none
  | (b, v) :: m, a => if a = b then some v else Memory.byte? m a

/-- One byte replaced or added, the addresses still rising. -/
def Memory.write : Memory → Nat → Byte → Memory
  | [], a, v => [(a, v)]
  | (b, w) :: m, a, v =>
    if a < b then (a, v) :: (b, w) :: m else if a = b then (a, v) :: m else (b, w) :: Memory.write m a v

/-- Every address is at least `lo` and below 2^32, and the addresses rise strictly. -/
def Memory.risesFrom : Nat → Memory → Bool
  | _, [] => true
  | lo, (a, _) :: m => decide (lo ≤ a) && decide (a < 2 ^ 32) && Memory.risesFrom (a + 1) m

/-- The canonical form of memory: strictly rising 32-bit addresses. -/
def Memory.wf (m : Memory) : Bool := Memory.risesFrom 0 m

/-- `M[a]`: the last byte written there, or the launch memory's (20_memory.md R61, R64; log 4). -/
def State.byteAt (s : State) (a : Word) : Byte := (s.mem.byte? a.toNat).getD (Config.launchByte a.toNat)

/-- The addresses of an n-byte access, `(addr + k) mod 2^32` for k < n (20_memory.md R50 to R52). -/
def span (addr : Word) : Nat → List Word
  | 0 => []
  | n + 1 => addr :: span (addr + 1) n

/-- `MemRead(addr, 2)`: byte k is `M[(addr + k) mod 2^32]` (20_memory.md R50). -/
def memRead16 (s : State) (addr : Word) : BitVec 16 := s.byteAt (addr + 1) ++ s.byteAt addr

/-- `MemRead(addr, 4)`: byte k is `M[(addr + k) mod 2^32]` (20_memory.md R50). -/
def memRead32 (s : State) (addr : Word) : Word :=
  wordOfBytes (s.byteAt addr) (s.byteAt (addr + 1)) (s.byteAt (addr + 2)) (s.byteAt (addr + 3))

/-- The bytes of `bs` at `addr`, `addr + 1`, ... modulo 2^32, and nothing else of memory (20_memory.md R51, R52). -/
def Memory.writeBytes : Memory → Word → List Byte → Memory
  | m, _, [] => m
  | m, addr, b :: bs => Memory.writeBytes (Memory.write m addr.toNat b) (addr + 1) bs

/-- `MemWrite(addr, n, v)` with the bytes of `v` in order, noted among the run's stores (20_memory.md R51, R66). -/
def memWrite (addr : Word) (bs : List Byte) (s : State) : State :=
  { s with mem := s.mem.writeBytes addr bs, stored := s.stored.insertAll (span addr bs.length) }

/-! ## Admission and alignment -/

/-- `MemMap` refuses the byte at `b` to the n-byte accesses of kind `k`: it lies in a region refused to them. -/
def byteRefused (m : MemMap) (k : AccessKind) (n : Nat) (b : Word) : Bool :=
  m.windows.any (fun r => decide (r.kind = k) && decide (r.size = n) && decide (r.lo ≤ b) && decide (b ≤ r.hi))

/-- `MemMap` admits an n-byte access of kind `k` at `addr` (20_memory.md R53): no byte of it is refused at the size of the
access, "`MemMap` admission for all its bytes" (60_exceptions.md R221; log 22), and neither is the access as a whole. -/
def admits (p : Platform) (k : AccessKind) (addr : Word) (n : Nat) : Bool :=
  (span addr n).all (fun b => !(byteRefused p.memMap k n b)) && !(decide (⟨k, n, addr⟩ ∈ p.memMap.accesses))

/-- Natural alignment: `addr` is a multiple of the access size (20_memory.md R56). -/
def aligned (addr : Word) (n : Nat) : Bool := decide (addr.toNat % n = 0)

/-- The exception of a misaligned access (60_exceptions.md R211, R212). -/
def misalignedCause : AccessKind → Cause
  | .read => .loadAddressMisaligned
  | .write => .storeAddressMisaligned

/-- The exception of an access the platform refuses (60_exceptions.md R215). -/
def accessFaultCause : AccessKind → Cause
  | .read => .loadAccessFault
  | .write => .storeAccessFault

/-- The checks of a data access in the order of 44_memory_access.md R190 and R202, before any effect: alignment, then
`MemMap`; `done` is what follows when both pass. The value recorded is the effective address. -/
def guardAccess (k : AccessKind) (n : Nat) (addr : Word) (s : State) (done : Outcome) : Outcome :=
  if !(aligned addr n) && !s.platform.misalignedSupported then raise (misalignedCause k) addr s
  else if !(admits s.platform k addr n) then raise (accessFaultCause k) addr s
  else done

/-- A load: the checks, then the completion the form gives (44_memory_access.md R190). -/
def load (n : Nat) (addr : Word) (s : State) (after : State) : Outcome := guardAccess .read n addr s (retire after)

/-- A store of the bytes `bs`: the checks, then the refusal of a store into fetched code (20_memory.md R66; log 12,
13), then the bytes (44_memory_access.md R190). -/
def store (addr : Word) (bs : List Byte) (s : State) : Outcome :=
  guardAccess .write bs.length addr s
    (if s.fetched.meets (span addr bs.length) then .refused (.storeToFetchedCode addr)
     else retire (memWrite addr bs s))

end Sys2Proof.Machine
end

