-- ==== Sys2Proof/Machine/Operands.lean ====
section
/-! DEFINITION. The operand forms: a CPR operand address through its two views (10_state.md R26 to R30), and the
effective address of the loads and stores (44_memory_access.md R190). -/

namespace Sys2Proof.Machine

/-- Bit 4 of a CPR operand address: transposed mode when 1 (10_state.md R26). -/
def transposed (a : CprAddr) : Bool := a.getLsbD 4

/-- Bits 3:0 of a CPR operand address: the register number (10_state.md R26). -/
def regNum (a : CprAddr) : CprNum := (a.extractLsb' 0 4).toFin

/-- The group g = n[3:2] of a transposed address (10_state.md R28). -/
def groupOf (a : CprAddr) : Fin 4 := (a.extractLsb' 2 2).toFin

/-- The byte lane j = n[1:0] of a transposed address (10_state.md R28). -/
def laneOf (a : CprAddr) : ByteIdx := (a.extractLsb' 0 2).toFin

/-- Register k of group g: the stored word `c[4g + k]` (10_state.md R28). -/
def groupReg (g : Fin 4) (k : ByteIdx) : CprNum := ⟨4 * g.val + k.val, by omega⟩

/-- The stored byte that is byte k of the view at address a: `c[a].k`, or `c[4g+k].j` (10_state.md R30). -/
def home (a : CprAddr) (k : ByteIdx) : CprNum × ByteIdx :=
  if transposed a then (groupReg (groupOf a) k, laneOf a) else (regNum a, k)

/-- The 32-bit read `cpr[a]` (10_state.md R27, R28). -/
def State.cpr (s : State) (a : CprAddr) : Word :=
  if transposed a then ofBytes (fun k => byte s.c[groupReg (groupOf a) k] (laneOf a)) else s.c[regNum a]

/-- `cprb[a][k]` (10_state.md R30). -/
def State.cprByte (s : State) (a : CprAddr) (k : ByteIdx) : Byte := byte (s.cpr a) k

/-- One stored byte `c[n].k` replaced (10_state.md R24). -/
def State.setStoredByte (s : State) (n : CprNum) (k : ByteIdx) (b : Byte) : State :=
  { s with c := s.c.set n (setByte s.c[n] k b) }

/-- The byte write `cprb[a][k] <- b`: exactly one stored byte (10_state.md R30). -/
def State.setCprByte (s : State) (a : CprAddr) (k : ByteIdx) (b : Byte) : State :=
  s.setStoredByte (home a k).1 (home a k).2 b

/-- The 32-bit write `cpr[a] <- v`: a whole stored word, or byte j of each word of group g (10_state.md R27, R29). -/
def State.setCpr (s : State) (a : CprAddr) (v : Word) : State :=
  if transposed a then
    (((s.setCprByte a 0 (byte v 0)).setCprByte a 1 (byte v 1)).setCprByte a 2 (byte v 2)).setCprByte a 3 (byte v 3)
  else { s with c := s.c.set (regNum a) v }

/-- The effective address `(x[rs1] + sext_32(imm)) mod 2^32` (44_memory_access.md R190, 20_memory.md R52). -/
def effAddr (rs1 : GprNum) (imm : Int) (s : State) : Word := s.gpr rs1 + BitVec.ofInt 32 imm

/-- Byte `2h` of a view: the low byte of halfword h (44_memory_access.md R200, `b_1`). -/
def halfLo (h : Fin 2) : ByteIdx := ⟨2 * h.val, by omega⟩

/-- Byte `2h + 1` of a view: the high byte of halfword h (44_memory_access.md R200, `b_2`). -/
def halfHi (h : Fin 2) : ByteIdx := ⟨2 * h.val + 1, by omega⟩

end Sys2Proof.Machine
end

