-- ==== Sys2Proof/Machine/Bitwise.lean ====
section
/-! DEFINITION. The bitwise and twiddle instructions (42_bitwise_twiddle.md). -/

namespace Sys2Proof.Machine

/-- `cpr[rd] <- f(cpr[rs1], cpr[rs2]); pc <- pc + 4` (42_bitwise_twiddle.md R169). -/
def bitwise (f : Word → Word → Word) (rd rs1 rs2 : CprAddr) (s : State) : Outcome :=
  retire (s.setCpr rd (f (s.cpr rs1) (s.cpr rs2)))

/-- XORT (42_bitwise_twiddle.md R170). -/
def execXort (rd rs1 rs2 : CprAddr) (s : State) : Outcome := bitwise (fun a b => a ^^^ b) rd rs1 rs2 s

/-- ANDT (42_bitwise_twiddle.md R171). -/
def execAndt (rd rs1 rs2 : CprAddr) (s : State) : Outcome := bitwise (fun a b => a &&& b) rd rs1 rs2 s

/-- ORT (42_bitwise_twiddle.md R172). -/
def execOrt (rd rs1 rs2 : CprAddr) (s : State) : Outcome := bitwise (fun a b => a ||| b) rd rs1 rs2 s

/-- The bytes of `v` chosen by four selectors, `b0` for byte 0 (42_bitwise_twiddle.md R173). -/
def twiddle (v : Word) (b0 b1 b2 b3 : ByteIdx) : Word := wordOfBytes (byte v b0) (byte v b1) (byte v b2) (byte v b3)

/-- TWID (42_bitwise_twiddle.md R173). -/
def execTwid (rd rs1 : CprAddr) (b0 b1 b2 b3 : ByteIdx) (s : State) : Outcome :=
  retire (s.setCpr rd (twiddle (s.cpr rs1) b0 b1 b2 b3))

end Sys2Proof.Machine
end

