-- ==== Sys2Proof/Machine/MemAccess.lean ====
section
/-! DEFINITION. The loads and stores (44_memory_access.md). -/

namespace Sys2Proof.Machine

/-- LBU.cr: byte b of the view, and no other byte (44_memory_access.md R191, R198). -/
def execLbuCr (rd : CprAddr) (b : ByteIdx) (imm : Int) (rs1 : GprNum) (s : State) : Outcome :=
  load 1 (effAddr rs1 imm s) s (s.setCprByte rd b (s.byteAt (effAddr rs1 imm s)))

/-- The two bytes of halfword h of a view replaced (44_memory_access.md R192). -/
def State.setCprHalf (s : State) (rd : CprAddr) (h : Fin 2) (v : BitVec 16) : State :=
  (s.setCprByte rd (halfLo h) (v.extractLsb' 0 8)).setCprByte rd (halfHi h) (v.extractLsb' 8 8)

/-- LHU.cr: bytes 2h and 2h+1 of the view, and no other byte (44_memory_access.md R192, R198). -/
def execLhuCr (rd : CprAddr) (h : Fin 2) (imm : Int) (rs1 : GprNum) (s : State) : Outcome :=
  load 2 (effAddr rs1 imm s) s (s.setCprHalf rd h (memRead16 s (effAddr rs1 imm s)))

/-- LW.cr: byte k of the view from `M[addr + k]` (44_memory_access.md R193, R197). -/
def execLwCr (rd : CprAddr) (imm : Int) (rs1 : GprNum) (s : State) : Outcome :=
  load 4 (effAddr rs1 imm s) s (s.setCpr rd (memRead32 s (effAddr rs1 imm s)))

/-- SB.cr: byte b of the view (44_memory_access.md R194, R199). -/
def execSbCr (rs2 : CprAddr) (b : ByteIdx) (imm : Int) (rs1 : GprNum) (s : State) : Outcome :=
  store (effAddr rs1 imm s) [s.cprByte rs2 b] s

/-- SH.cr: byte 2h of the view at `addr`, byte 2h+1 at `addr + 1` (44_memory_access.md R195, R199). -/
def execShCr (rs2 : CprAddr) (h : Fin 2) (imm : Int) (rs1 : GprNum) (s : State) : Outcome :=
  store (effAddr rs1 imm s) [s.cprByte rs2 (halfLo h), s.cprByte rs2 (halfHi h)] s

/-- SW.cr: byte k of the view at `addr + k` (44_memory_access.md R196, R197, R199). -/
def execSwCr (rs2 : CprAddr) (imm : Int) (rs1 : GprNum) (s : State) : Outcome :=
  store (effAddr rs1 imm s) [s.cprByte rs2 0, s.cprByte rs2 1, s.cprByte rs2 2, s.cprByte rs2 3] s

end Sys2Proof.Machine
end

