-- ==== Sys2Proof/Machine/Move.lean ====
section
/-! DEFINITION. The move instructions (40_move.md). -/

namespace Sys2Proof.Machine

/-- MVCOP gpr, cpr: `x[gpr] <- cpr[cpr]`, discarded if gpr = 0 (40_move.md R121). -/
def execMvcop (gpr : GprNum) (cpr : CprAddr) (s : State) : Outcome := retire (s.setGpr gpr (s.cpr cpr))

/-- MVGPR cpr, gpr: `cpr[cpr] <- x[gpr]`, 0 if gpr = 0 (40_move.md R122). -/
def execMvgpr (cpr : CprAddr) (gpr : GprNum) (s : State) : Outcome := retire (s.setCpr cpr (s.gpr gpr))

end Sys2Proof.Machine
end

