-- ==== Sys2Proof/Machine/NamedOnly.lean ====
section
/-! DEFINITION. The eleven named-only instructions: the spec gives them no operands and no effect and says that a model
refuses each by name (43_multiprecision.md R189, 44_memory_access.md R205, R206). -/

namespace Sys2Proof.Machine

/-- The refusal of a named-only instruction: no run, no trap record (43_multiprecision.md R189, 60_exceptions.md R228). -/
def refuseNamedOnly (mnemonic : String) (_s : State) : Outcome := .refused (.namedOnly mnemonic)

/-- ADD.m: refused by name (43_multiprecision.md R180). -/
def execAddM (s : State) : Outcome := refuseNamedOnly "ADD.m" s

/-- SUB.m: refused by name (43_multiprecision.md R181). -/
def execSubM (s : State) : Outcome := refuseNamedOnly "SUB.m" s

/-- ACC.m: refused by name (43_multiprecision.md R182). -/
def execAccM (s : State) : Outcome := refuseNamedOnly "ACC.m" s

/-- MAC.m: refused by name (43_multiprecision.md R183). -/
def execMacM (s : State) : Outcome := refuseNamedOnly "MAC.m" s

/-- SLL.m: refused by name (43_multiprecision.md R184). -/
def execSllM (s : State) : Outcome := refuseNamedOnly "SLL.m" s

/-- SRL.m: refused by name (43_multiprecision.md R185). -/
def execSrlM (s : State) : Outcome := refuseNamedOnly "SRL.m" s

/-- EQU.m: refused by name (43_multiprecision.md R186). -/
def execEquM (s : State) : Outcome := refuseNamedOnly "EQU.m" s

/-- LTU.m: refused by name (43_multiprecision.md R187). -/
def execLtuM (s : State) : Outcome := refuseNamedOnly "LTU.m" s

/-- GTU.m: refused by name (43_multiprecision.md R188). -/
def execGtuM (s : State) : Outcome := refuseNamedOnly "GTU.m" s

/-- SCATTER: refused by name (44_memory_access.md R205). -/
def execScatter (s : State) : Outcome := refuseNamedOnly "SCATTER" s

/-- GATHER: refused by name (44_memory_access.md R206). -/
def execGather (s : State) : Outcome := refuseNamedOnly "GATHER" s

end Sys2Proof.Machine
end

