-- ==== Sys2Proof/Machine/Flags.lean ====
section
/-! DEFINITION. The ISE has no flags (10_state.md R35). What would set one elsewhere, a carry, a borrow, an overflow or
a bit shifted out, is discarded: these are the functions on one packed field, each reduced modulo 2^W. -/

namespace Sys2Proof.Machine

/-- Field addition modulo 2^W, "ignoring any carry bits" (41_packed_arithmetic.md R133 to R136). -/
def laneAdd {W : Nat} (a b : BitVec W) : BitVec W := a + b

/-- Field subtraction rs1 - rs2 modulo 2^W (41_packed_arithmetic.md R137 to R140). -/
def laneSub {W : Nat} (a b : BitVec W) : BitVec W := a - b

/-- The low W bits of the field product (41_packed_arithmetic.md R141 to R144). -/
def laneMul {W : Nat} (a b : BitVec W) : BitVec W := a * b

/-- Field shift left, zeros entering at the bottom (41_packed_arithmetic.md R146 to R149). -/
def laneShl {W : Nat} (s : Nat) (a : BitVec W) : BitVec W := a <<< s

/-- Logical field shift right, zeros entering at the top (41_packed_arithmetic.md R150 to R153). -/
def laneShr {W : Nat} (s : Nat) (a : BitVec W) : BitVec W := a >>> s

/-- `rotl` or `rotr` of one field by `ROT_DIR`, for s < W (41_packed_arithmetic.md section 6). -/
def laneRot {W : Nat} (d : RotDir) (s : Nat) (a : BitVec W) : BitVec W :=
  match d with
  | .left => (a <<< s) ||| (a >>> (W - s))
  | .right => (a >>> s) ||| (a <<< (W - s))

end Sys2Proof.Machine
end

