-- ==== Sys2Proof/Machine/Packed.lean ====
section
/-! DEFINITION. The packed arithmetic instructions (41_packed_arithmetic.md). -/

namespace Sys2Proof.Machine

/-- The four packings (41_packed_arithmetic.md R130). -/
inductive Packing where
  | p1
  | p2
  | p4
  | p8
  deriving DecidableEq, Repr

/-- The number N of fields (41_packed_arithmetic.md R130). -/
def fieldCount : Packing → Nat
  | .p1 => 1
  | .p2 => 2
  | .p4 => 4
  | .p8 => 8

/-- The field width W = 32 / N (41_packed_arithmetic.md R130). -/
def fieldWidth : Packing → Nat
  | .p1 => 32
  | .p2 => 16
  | .p4 => 8
  | .p8 => 4

/-- `field(v, N, i) = v[W*i + W - 1 : W*i]` (41_packed_arithmetic.md R130). -/
def field (p : Packing) (v : Word) (i : Nat) : BitVec (fieldWidth p) := v.extractLsb' (fieldWidth p * i) (fieldWidth p)

/-- The word whose fields 0..n-1, each W bits wide, are given, the rest 0. -/
def joinFields (W : Nat) (f : Nat → BitVec W) : Nat → Word
  | 0 => 0
  | n + 1 => joinFields W f n ||| ((f n).setWidth 32 <<< (W * n))

/-- `packed(f, N, a, b)`: each field of the result from the same-numbered fields (41_packed_arithmetic.md R131). -/
def packed2 (p : Packing) (f : BitVec (fieldWidth p) → BitVec (fieldWidth p) → BitVec (fieldWidth p)) (a b : Word) : Word :=
  joinFields (fieldWidth p) (fun i => f (field p a i) (field p b i)) (fieldCount p)

/-- `packed` of a one-operand function: the shifts and rotates (41_packed_arithmetic.md R131). -/
def packed1 (p : Packing) (f : BitVec (fieldWidth p) → BitVec (fieldWidth p)) (a : Word) : Word :=
  joinFields (fieldWidth p) (fun i => f (field p a i)) (fieldCount p)

/-- `cpr[rd] <- packed(f, N, cpr[rs1], cpr[rs2]); pc <- pc + 4` (41_packed_arithmetic.md R131). -/
def packedArith (p : Packing) (f : BitVec (fieldWidth p) → BitVec (fieldWidth p) → BitVec (fieldWidth p))
    (rd rs1 rs2 : CprAddr) (s : State) : Outcome :=
  retire (s.setCpr rd (packed2 p f (s.cpr rs1) (s.cpr rs2)))

/-- The whole destination is drawn freely, nothing else changes, no exception (41_packed_arithmetic.md R145, R154). -/
def drawDest (rd : CprAddr) (s : State) : Outcome := retire (s.noteDraw.setCpr rd s.drawn)

/-- A shift or rotate by an immediate: field by field below the field width, drawn otherwise
(41_packed_arithmetic.md R145 to R158). -/
def packedShift (p : Packing) (f : Nat → BitVec (fieldWidth p) → BitVec (fieldWidth p))
    (rd rs1 : CprAddr) (shamt : Fin 32) (s : State) : Outcome :=
  if shamt.val < fieldWidth p then retire (s.setCpr rd (packed1 p (f shamt.val) (s.cpr rs1)))
  else drawDest rd s

/-- ADD.p1 (41_packed_arithmetic.md R136). -/
def execAddP1 (rd rs1 rs2 : CprAddr) (s : State) : Outcome := packedArith .p1 laneAdd rd rs1 rs2 s

/-- ADD.p2 (41_packed_arithmetic.md R135). -/
def execAddP2 (rd rs1 rs2 : CprAddr) (s : State) : Outcome := packedArith .p2 laneAdd rd rs1 rs2 s

/-- ADD.p4 (41_packed_arithmetic.md R134). -/
def execAddP4 (rd rs1 rs2 : CprAddr) (s : State) : Outcome := packedArith .p4 laneAdd rd rs1 rs2 s

/-- ADD.p8 (41_packed_arithmetic.md R133). -/
def execAddP8 (rd rs1 rs2 : CprAddr) (s : State) : Outcome := packedArith .p8 laneAdd rd rs1 rs2 s

/-- SUB.p1 (41_packed_arithmetic.md R140). -/
def execSubP1 (rd rs1 rs2 : CprAddr) (s : State) : Outcome := packedArith .p1 laneSub rd rs1 rs2 s

/-- SUB.p2 (41_packed_arithmetic.md R139). -/
def execSubP2 (rd rs1 rs2 : CprAddr) (s : State) : Outcome := packedArith .p2 laneSub rd rs1 rs2 s

/-- SUB.p4 (41_packed_arithmetic.md R138). -/
def execSubP4 (rd rs1 rs2 : CprAddr) (s : State) : Outcome := packedArith .p4 laneSub rd rs1 rs2 s

/-- SUB.p8 (41_packed_arithmetic.md R137). -/
def execSubP8 (rd rs1 rs2 : CprAddr) (s : State) : Outcome := packedArith .p8 laneSub rd rs1 rs2 s

/-- MUL.p1 (41_packed_arithmetic.md R144). -/
def execMulP1 (rd rs1 rs2 : CprAddr) (s : State) : Outcome := packedArith .p1 laneMul rd rs1 rs2 s

/-- MUL.p2 (41_packed_arithmetic.md R143). -/
def execMulP2 (rd rs1 rs2 : CprAddr) (s : State) : Outcome := packedArith .p2 laneMul rd rs1 rs2 s

/-- MUL.p4 (41_packed_arithmetic.md R142). -/
def execMulP4 (rd rs1 rs2 : CprAddr) (s : State) : Outcome := packedArith .p4 laneMul rd rs1 rs2 s

/-- MUL.p8 (41_packed_arithmetic.md R141). -/
def execMulP8 (rd rs1 rs2 : CprAddr) (s : State) : Outcome := packedArith .p8 laneMul rd rs1 rs2 s

/-- SLL.p1 (41_packed_arithmetic.md R149). -/
def execSllP1 (rd rs1 : CprAddr) (shamt : Fin 32) (s : State) : Outcome := packedShift .p1 laneShl rd rs1 shamt s

/-- SLL.p2 (41_packed_arithmetic.md R148, R145). -/
def execSllP2 (rd rs1 : CprAddr) (shamt : Fin 32) (s : State) : Outcome := packedShift .p2 laneShl rd rs1 shamt s

/-- SLL.p4 (41_packed_arithmetic.md R147, R145). -/
def execSllP4 (rd rs1 : CprAddr) (shamt : Fin 32) (s : State) : Outcome := packedShift .p4 laneShl rd rs1 shamt s

/-- SLL.p8 (41_packed_arithmetic.md R146, R145). -/
def execSllP8 (rd rs1 : CprAddr) (shamt : Fin 32) (s : State) : Outcome := packedShift .p8 laneShl rd rs1 shamt s

/-- SRL.p1 (41_packed_arithmetic.md R153). -/
def execSrlP1 (rd rs1 : CprAddr) (shamt : Fin 32) (s : State) : Outcome := packedShift .p1 laneShr rd rs1 shamt s

/-- SRL.p2 (41_packed_arithmetic.md R152, R145). -/
def execSrlP2 (rd rs1 : CprAddr) (shamt : Fin 32) (s : State) : Outcome := packedShift .p2 laneShr rd rs1 shamt s

/-- SRL.p4 (41_packed_arithmetic.md R151, R145). -/
def execSrlP4 (rd rs1 : CprAddr) (shamt : Fin 32) (s : State) : Outcome := packedShift .p4 laneShr rd rs1 shamt s

/-- SRL.p8 (41_packed_arithmetic.md R150, R145). -/
def execSrlP8 (rd rs1 : CprAddr) (shamt : Fin 32) (s : State) : Outcome := packedShift .p8 laneShr rd rs1 shamt s

/-- ROT.p1 (41_packed_arithmetic.md R158). -/
def execRotP1 (rd rs1 : CprAddr) (shamt : Fin 32) (s : State) : Outcome :=
  packedShift .p1 (laneRot s.platform.rotDir) rd rs1 shamt s

/-- ROT.p2 (41_packed_arithmetic.md R157, R154). -/
def execRotP2 (rd rs1 : CprAddr) (shamt : Fin 32) (s : State) : Outcome :=
  packedShift .p2 (laneRot s.platform.rotDir) rd rs1 shamt s

/-- ROT.p4 (41_packed_arithmetic.md R156, R154). -/
def execRotP4 (rd rs1 : CprAddr) (shamt : Fin 32) (s : State) : Outcome :=
  packedShift .p4 (laneRot s.platform.rotDir) rd rs1 shamt s

/-- ROT.p8 (41_packed_arithmetic.md R155, R154). -/
def execRotP8 (rd rs1 : CprAddr) (shamt : Fin 32) (s : State) : Outcome :=
  packedShift .p8 (laneRot s.platform.rotDir) rd rs1 shamt s

end Sys2Proof.Machine
end

