-- ==== Sys2Proof/Syntax.lean ====
section
/-! DEFINITION. The instruction terms: one constructor for each row of spec/opcode_table.json. -/

namespace Sys2Proof

/-- An instruction term (00_scope.md R7): a mnemonic and its operand values, with no trace of the encoding.
A register operand's type says which file it names (30_encoding.md R89): `GprNum` or `CprAddr`. `imm` is the
signed byte offset itself, so that the terms do not depend on `IMM_W` (log 15). -/
inductive Instr where
  /-- ADD.p1 rd, rs1, rs2 (41_packed_arithmetic.md R136). -/
  | addP1 (rd rs1 rs2 : CprAddr)
  /-- ADD.p2 rd, rs1, rs2 (41_packed_arithmetic.md R135). -/
  | addP2 (rd rs1 rs2 : CprAddr)
  /-- ADD.p4 rd, rs1, rs2 (41_packed_arithmetic.md R134). -/
  | addP4 (rd rs1 rs2 : CprAddr)
  /-- ADD.p8 rd, rs1, rs2 (41_packed_arithmetic.md R133). -/
  | addP8 (rd rs1 rs2 : CprAddr)
  /-- SUB.p1 rd, rs1, rs2 (41_packed_arithmetic.md R140). -/
  | subP1 (rd rs1 rs2 : CprAddr)
  /-- SUB.p2 rd, rs1, rs2 (41_packed_arithmetic.md R139). -/
  | subP2 (rd rs1 rs2 : CprAddr)
  /-- SUB.p4 rd, rs1, rs2 (41_packed_arithmetic.md R138). -/
  | subP4 (rd rs1 rs2 : CprAddr)
  /-- SUB.p8 rd, rs1, rs2 (41_packed_arithmetic.md R137). -/
  | subP8 (rd rs1 rs2 : CprAddr)
  /-- MUL.p1 rd, rs1, rs2 (41_packed_arithmetic.md R144). -/
  | mulP1 (rd rs1 rs2 : CprAddr)
  /-- MUL.p2 rd, rs1, rs2 (41_packed_arithmetic.md R143). -/
  | mulP2 (rd rs1 rs2 : CprAddr)
  /-- MUL.p4 rd, rs1, rs2 (41_packed_arithmetic.md R142). -/
  | mulP4 (rd rs1 rs2 : CprAddr)
  /-- MUL.p8 rd, rs1, rs2 (41_packed_arithmetic.md R141). -/
  | mulP8 (rd rs1 rs2 : CprAddr)
  /-- SLL.p1 rd, rs1, shamt (41_packed_arithmetic.md R149). -/
  | sllP1 (rd rs1 : CprAddr) (shamt : Fin 32)
  /-- SLL.p2 rd, rs1, shamt (41_packed_arithmetic.md R148). -/
  | sllP2 (rd rs1 : CprAddr) (shamt : Fin 32)
  /-- SLL.p4 rd, rs1, shamt (41_packed_arithmetic.md R147). -/
  | sllP4 (rd rs1 : CprAddr) (shamt : Fin 32)
  /-- SLL.p8 rd, rs1, shamt (41_packed_arithmetic.md R146). -/
  | sllP8 (rd rs1 : CprAddr) (shamt : Fin 32)
  /-- SRL.p1 rd, rs1, shamt (41_packed_arithmetic.md R153). -/
  | srlP1 (rd rs1 : CprAddr) (shamt : Fin 32)
  /-- SRL.p2 rd, rs1, shamt (41_packed_arithmetic.md R152). -/
  | srlP2 (rd rs1 : CprAddr) (shamt : Fin 32)
  /-- SRL.p4 rd, rs1, shamt (41_packed_arithmetic.md R151). -/
  | srlP4 (rd rs1 : CprAddr) (shamt : Fin 32)
  /-- SRL.p8 rd, rs1, shamt (41_packed_arithmetic.md R150). -/
  | srlP8 (rd rs1 : CprAddr) (shamt : Fin 32)
  /-- ROT.p1 rd, rs1, shamt (41_packed_arithmetic.md R158). -/
  | rotP1 (rd rs1 : CprAddr) (shamt : Fin 32)
  /-- ROT.p2 rd, rs1, shamt (41_packed_arithmetic.md R157). -/
  | rotP2 (rd rs1 : CprAddr) (shamt : Fin 32)
  /-- ROT.p4 rd, rs1, shamt (41_packed_arithmetic.md R156). -/
  | rotP4 (rd rs1 : CprAddr) (shamt : Fin 32)
  /-- ROT.p8 rd, rs1, shamt (41_packed_arithmetic.md R155). -/
  | rotP8 (rd rs1 : CprAddr) (shamt : Fin 32)
  /-- XORT rd, rs1, rs2 (42_bitwise_twiddle.md R170). -/
  | xort (rd rs1 rs2 : CprAddr)
  /-- ANDT rd, rs1, rs2 (42_bitwise_twiddle.md R171). -/
  | andt (rd rs1 rs2 : CprAddr)
  /-- ORT rd, rs1, rs2 (42_bitwise_twiddle.md R172). -/
  | ort (rd rs1 rs2 : CprAddr)
  /-- MVCOP gpr, cpr (40_move.md R121). -/
  | mvcop (gpr : GprNum) (cpr : CprAddr)
  /-- MVGPR cpr, gpr (40_move.md R122). -/
  | mvgpr (cpr : CprAddr) (gpr : GprNum)
  /-- TWID rd, rs1, b0, b1, b2, b3 (42_bitwise_twiddle.md R173). -/
  | twid (rd rs1 : CprAddr) (b0 b1 b2 b3 : ByteIdx)
  /-- LBU.cr rd, b, imm(rs1) (44_memory_access.md R191). -/
  | lbuCr (rd : CprAddr) (b : ByteIdx) (imm : Int) (rs1 : GprNum)
  /-- LHU.cr rd, h, imm(rs1) (44_memory_access.md R192). -/
  | lhuCr (rd : CprAddr) (h : Fin 2) (imm : Int) (rs1 : GprNum)
  /-- LW.cr rd, imm(rs1) (44_memory_access.md R193). -/
  | lwCr (rd : CprAddr) (imm : Int) (rs1 : GprNum)
  /-- SB.cr rs2, b, imm(rs1) (44_memory_access.md R194). -/
  | sbCr (rs2 : CprAddr) (b : ByteIdx) (imm : Int) (rs1 : GprNum)
  /-- SH.cr rs2, h, imm(rs1) (44_memory_access.md R195). -/
  | shCr (rs2 : CprAddr) (h : Fin 2) (imm : Int) (rs1 : GprNum)
  /-- SW.cr rs2, imm(rs1) (44_memory_access.md R196). -/
  | swCr (rs2 : CprAddr) (imm : Int) (rs1 : GprNum)
  /-- ADD.m, named only: no operands in any source (43_multiprecision.md R180, R189). -/
  | addM
  /-- SUB.m, named only: no operands in any source (43_multiprecision.md R181, R189). -/
  | subM
  /-- ACC.m, named only: no operands in any source (43_multiprecision.md R182, R189). -/
  | accM
  /-- MAC.m, named only: no operands in any source (43_multiprecision.md R183, R189). -/
  | macM
  /-- SLL.m, named only: no operands in any source (43_multiprecision.md R184, R189). -/
  | sllM
  /-- SRL.m, named only: no operands in any source (43_multiprecision.md R185, R189). -/
  | srlM
  /-- EQU.m, named only: no operands in any source (43_multiprecision.md R186, R189). -/
  | equM
  /-- LTU.m, named only: no operands in any source (43_multiprecision.md R187, R189). -/
  | ltuM
  /-- GTU.m, named only: no operands in any source (43_multiprecision.md R188, R189). -/
  | gtuM
  /-- SCATTER, named only: no operands in any source (44_memory_access.md R205). -/
  | scatter
  /-- GATHER, named only: no operands in any source (44_memory_access.md R206). -/
  | gather
  deriving DecidableEq, Repr

end Sys2Proof
end

