-- ==== Sys2Proof/Machine/Dispatch.lean ====
section
/-! DEFINITION. One arm per constructor of Instr: the meaning of each instruction. -/

namespace Sys2Proof.Machine

def exec (i : Instr) (s : State) : Host.Outcome State Fault Refusal :=
  match i with
  | .addP1 rd rs1 rs2 => Sys2Proof.Machine.execAddP1 rd rs1 rs2 s
  | .addP2 rd rs1 rs2 => Sys2Proof.Machine.execAddP2 rd rs1 rs2 s
  | .addP4 rd rs1 rs2 => Sys2Proof.Machine.execAddP4 rd rs1 rs2 s
  | .addP8 rd rs1 rs2 => Sys2Proof.Machine.execAddP8 rd rs1 rs2 s
  | .subP1 rd rs1 rs2 => Sys2Proof.Machine.execSubP1 rd rs1 rs2 s
  | .subP2 rd rs1 rs2 => Sys2Proof.Machine.execSubP2 rd rs1 rs2 s
  | .subP4 rd rs1 rs2 => Sys2Proof.Machine.execSubP4 rd rs1 rs2 s
  | .subP8 rd rs1 rs2 => Sys2Proof.Machine.execSubP8 rd rs1 rs2 s
  | .mulP1 rd rs1 rs2 => Sys2Proof.Machine.execMulP1 rd rs1 rs2 s
  | .mulP2 rd rs1 rs2 => Sys2Proof.Machine.execMulP2 rd rs1 rs2 s
  | .mulP4 rd rs1 rs2 => Sys2Proof.Machine.execMulP4 rd rs1 rs2 s
  | .mulP8 rd rs1 rs2 => Sys2Proof.Machine.execMulP8 rd rs1 rs2 s
  | .sllP1 rd rs1 shamt => Sys2Proof.Machine.execSllP1 rd rs1 shamt s
  | .sllP2 rd rs1 shamt => Sys2Proof.Machine.execSllP2 rd rs1 shamt s
  | .sllP4 rd rs1 shamt => Sys2Proof.Machine.execSllP4 rd rs1 shamt s
  | .sllP8 rd rs1 shamt => Sys2Proof.Machine.execSllP8 rd rs1 shamt s
  | .srlP1 rd rs1 shamt => Sys2Proof.Machine.execSrlP1 rd rs1 shamt s
  | .srlP2 rd rs1 shamt => Sys2Proof.Machine.execSrlP2 rd rs1 shamt s
  | .srlP4 rd rs1 shamt => Sys2Proof.Machine.execSrlP4 rd rs1 shamt s
  | .srlP8 rd rs1 shamt => Sys2Proof.Machine.execSrlP8 rd rs1 shamt s
  | .rotP1 rd rs1 shamt => Sys2Proof.Machine.execRotP1 rd rs1 shamt s
  | .rotP2 rd rs1 shamt => Sys2Proof.Machine.execRotP2 rd rs1 shamt s
  | .rotP4 rd rs1 shamt => Sys2Proof.Machine.execRotP4 rd rs1 shamt s
  | .rotP8 rd rs1 shamt => Sys2Proof.Machine.execRotP8 rd rs1 shamt s
  | .xort rd rs1 rs2 => Sys2Proof.Machine.execXort rd rs1 rs2 s
  | .andt rd rs1 rs2 => Sys2Proof.Machine.execAndt rd rs1 rs2 s
  | .ort rd rs1 rs2 => Sys2Proof.Machine.execOrt rd rs1 rs2 s
  | .mvcop gpr cpr => Sys2Proof.Machine.execMvcop gpr cpr s
  | .mvgpr cpr gpr => Sys2Proof.Machine.execMvgpr cpr gpr s
  | .twid rd rs1 b0 b1 b2 b3 => Sys2Proof.Machine.execTwid rd rs1 b0 b1 b2 b3 s
  | .lbuCr rd b imm rs1 => Sys2Proof.Machine.execLbuCr rd b imm rs1 s
  | .lhuCr rd h imm rs1 => Sys2Proof.Machine.execLhuCr rd h imm rs1 s
  | .lwCr rd imm rs1 => Sys2Proof.Machine.execLwCr rd imm rs1 s
  | .sbCr rs2 b imm rs1 => Sys2Proof.Machine.execSbCr rs2 b imm rs1 s
  | .shCr rs2 h imm rs1 => Sys2Proof.Machine.execShCr rs2 h imm rs1 s
  | .swCr rs2 imm rs1 => Sys2Proof.Machine.execSwCr rs2 imm rs1 s
  | .addM => Sys2Proof.Machine.execAddM s
  | .subM => Sys2Proof.Machine.execSubM s
  | .accM => Sys2Proof.Machine.execAccM s
  | .macM => Sys2Proof.Machine.execMacM s
  | .sllM => Sys2Proof.Machine.execSllM s
  | .srlM => Sys2Proof.Machine.execSrlM s
  | .equM => Sys2Proof.Machine.execEquM s
  | .ltuM => Sys2Proof.Machine.execLtuM s
  | .gtuM => Sys2Proof.Machine.execGtuM s
  | .scatter => Sys2Proof.Machine.execScatter s
  | .gather => Sys2Proof.Machine.execGather s

end Sys2Proof.Machine
end

