-- ==== Sys2Proof/WellFormed.lean ====
section
/-! DEFINITION. Which instruction terms are well formed: those the assembler syntax of 30_encoding.md R102 admits. -/

namespace Sys2Proof

/-- An immediate fits `immW` bits, signed (30_encoding.md R90, R102): -512..511 at the default width 10. -/
def immFits (immW : Nat) (imm : Int) : Bool := decide (-2 ^ immW ≤ 2 * imm) && decide (2 * imm < 2 ^ immW)

/-- The term is an instruction with operands the source gives and in range, under an encoding whose `IMM_W` is `immW`
(30_encoding.md R102, 44_memory_access.md R201). Register
addresses, selectors and shift distances are in range by their types; the eleven named-only terms have no
operand list and no encoding (30_encoding.md R98), so none of them is a well-formed instruction. -/
def Instr.wellFormedAt (immW : Nat) : Instr → Bool
  | .addP1 _ _ _ | .addP2 _ _ _ | .addP4 _ _ _ | .addP8 _ _ _ => true
  | .subP1 _ _ _ | .subP2 _ _ _ | .subP4 _ _ _ | .subP8 _ _ _ => true
  | .mulP1 _ _ _ | .mulP2 _ _ _ | .mulP4 _ _ _ | .mulP8 _ _ _ => true
  | .sllP1 _ _ _ | .sllP2 _ _ _ | .sllP4 _ _ _ | .sllP8 _ _ _ => true
  | .srlP1 _ _ _ | .srlP2 _ _ _ | .srlP4 _ _ _ | .srlP8 _ _ _ => true
  | .rotP1 _ _ _ | .rotP2 _ _ _ | .rotP4 _ _ _ | .rotP8 _ _ _ => true
  | .xort _ _ _ | .andt _ _ _ | .ort _ _ _ => true
  | .mvcop _ _ | .mvgpr _ _ => true
  | .twid _ _ _ _ _ _ => true
  | .lbuCr _ _ imm _ => immFits immW imm
  | .lhuCr _ _ imm _ => immFits immW imm
  | .lwCr _ imm _ => immFits immW imm
  | .sbCr _ _ imm _ => immFits immW imm
  | .shCr _ _ imm _ => immFits immW imm
  | .swCr _ imm _ => immFits immW imm
  | .addM | .subM | .accM | .macM | .sllM | .srlM | .equM | .ltuM | .gtuM => false
  | .scatter | .gather => false

/-- Well formed at the default `IMM_W` (log 15). -/
def Instr.wellFormed (i : Instr) : Bool := i.wellFormedAt Config.immW

end Sys2Proof
end

