-- ==== Sys2Proof/Decode.lean ====
section
/-! DEFINITION. The parameter `XC_ENCODING` (00_scope.md R7, R8), and its default, the provisional encoding (30_encoding.md
R84 to R100): the decoder, total on all words and on any bytes, and after it the encoder (log 14). -/

namespace Sys2Proof

open Machine (byte wordOfBytes)

/-- Why a word of the ISE opcode space is reserved: the reserved patterns of 30_encoding.md R96, by name. -/
inductive Reserved where
  /-- Format XR with an `op5` not listed in R91. -/
  | op5Unlisted
  /-- XORT, ANDT, ORT, MVCOP or MVGPR with `w` other than 00. -/
  | widthNotZero
  /-- MVCOP or MVGPR with `inst[24:20]` other than 00000. -/
  | moveRs2NotZero
  /-- `f3 = 001` with `inst[31:28]` other than 0000. -/
  | twidTopNotZero
  /-- LHU.cr or SH.cr with `sel[1] = 1`. -/
  | halfSelectorTop
  /-- LW.cr or SW.cr with `sel` other than 00. -/
  | wordSelectorNotZero
  /-- A reserved word of an encoding other than the provisional one. -/
  | otherEncoding
  deriving DecidableEq, Repr

/-- What the decoder answers (30_encoding.md R100). -/
inductive Decoded where
  /-- An ISE instruction. -/
  | instr (i : Instr)
  /-- The term `Illegal(inst)`: a reserved word of the ISE opcode space. -/
  | reserved (inst : Word) (why : Reserved)
  /-- A word whose `inst[6:0]` is not the ISE's: it belongs to `HostStep`. -/
  | host (inst : Word)
  deriving DecidableEq, Repr

/-- `inst[lo+n-1 : lo]` (00_scope.md R9). -/
def instField (inst : Word) (lo n : Nat) : BitVec n := inst.extractLsb' lo n

/-- The width field: `w` gives 2^w packed fields (30_encoding.md R92). -/
def byWidth (w : BitVec 2) (p1 p2 p4 p8 : Instr) : Instr :=
  if w = 0b00#2 then p1 else if w = 0b01#2 then p2 else if w = 0b10#2 then p4 else p8

/-- A form of format XR that is legal with `w = 00` only (30_encoding.md R91). -/
def widthZero (inst : Word) (d : Decoded) : Decoded :=
  if instField inst 25 2 = 0b00#2 then d else .reserved inst .widthNotZero

/-- A form of format XR that is legal with `inst[24:20] = 00000` only (30_encoding.md R91). -/
def rs2Zero (inst : Word) (d : Decoded) : Decoded :=
  if instField inst 20 5 = 0b00000#5 then d else .reserved inst .moveRs2NotZero

/-- Format XR, `f3 = 000`: the operation by `op5` (30_encoding.md R85, R91, R92). -/
def decodeXR (inst : Word) : Decoded :=
  let op5 := instField inst 27 5
  let w := instField inst 25 2
  let rs2 := instField inst 20 5
  let shamt := (instField inst 20 5).toFin
  let rs1 := instField inst 15 5
  let rd := instField inst 7 5
  if op5 = 0b00000#5 then .instr (byWidth w (.addP1 rd rs1 rs2) (.addP2 rd rs1 rs2) (.addP4 rd rs1 rs2) (.addP8 rd rs1 rs2))
  else if op5 = 0b00001#5 then .instr (byWidth w (.subP1 rd rs1 rs2) (.subP2 rd rs1 rs2) (.subP4 rd rs1 rs2) (.subP8 rd rs1 rs2))
  else if op5 = 0b00010#5 then .instr (byWidth w (.mulP1 rd rs1 rs2) (.mulP2 rd rs1 rs2) (.mulP4 rd rs1 rs2) (.mulP8 rd rs1 rs2))
  else if op5 = 0b00011#5 then .instr (byWidth w (.sllP1 rd rs1 shamt) (.sllP2 rd rs1 shamt) (.sllP4 rd rs1 shamt) (.sllP8 rd rs1 shamt))
  else if op5 = 0b00100#5 then .instr (byWidth w (.srlP1 rd rs1 shamt) (.srlP2 rd rs1 shamt) (.srlP4 rd rs1 shamt) (.srlP8 rd rs1 shamt))
  else if op5 = 0b00101#5 then .instr (byWidth w (.rotP1 rd rs1 shamt) (.rotP2 rd rs1 shamt) (.rotP4 rd rs1 shamt) (.rotP8 rd rs1 shamt))
  else if op5 = 0b01000#5 then widthZero inst (.instr (.xort rd rs1 rs2))
  else if op5 = 0b01001#5 then widthZero inst (.instr (.andt rd rs1 rs2))
  else if op5 = 0b01010#5 then widthZero inst (.instr (.ort rd rs1 rs2))
  else if op5 = 0b10000#5 then widthZero inst (rs2Zero inst (.instr (.mvcop rd.toFin rs1)))
  else if op5 = 0b10001#5 then widthZero inst (rs2Zero inst (.instr (.mvgpr rd rs1.toFin)))
  else .reserved inst .op5Unlisted

/-- Format XT, `f3 = 001`: TWID (30_encoding.md R86, R95). -/
def decodeXT (inst : Word) : Decoded :=
  if instField inst 28 4 = 0b0000#4 then
    .instr (.twid (instField inst 7 5) (instField inst 15 5)
      (instField inst 20 2).toFin (instField inst 22 2).toFin (instField inst 24 2).toFin (instField inst 26 2).toFin)
  else .reserved inst .twidTopNotZero

/-- The immediate of a load, `sext(inst[31:22])` (30_encoding.md R87, R90). -/
def loadImm (inst : Word) : Int := (instField inst 22 10).toInt

/-- The immediate of a store, `sext(inst[31:25] ++ inst[11:9])` (30_encoding.md R88, R90). -/
def storeImm (inst : Word) : Int := (instField inst 25 7 ++ instField inst 9 3).toInt

/-- A halfword form: `h = sel[0]`, and `sel[1]` must be 0 (30_encoding.md R94). -/
def halfSel (inst : Word) (sel : BitVec 2) (k : Fin 2 → Instr) : Decoded :=
  if sel.extractLsb' 1 1 = 0b0#1 then .instr (k (sel.extractLsb' 0 1).toFin) else .reserved inst .halfSelectorTop

/-- A word form: `sel` must be 00 (30_encoding.md R94). -/
def wordSel (inst : Word) (sel : BitVec 2) (i : Instr) : Decoded :=
  if sel = 0b00#2 then .instr i else .reserved inst .wordSelectorNotZero

/-- The map of the ISE opcode space by `f3` (30_encoding.md R96): formats XR, XT, XL and XS. -/
def decodeIse (inst : Word) : Decoded :=
  let f3 := instField inst 12 3
  let rd := instField inst 7 5
  let rs2 := instField inst 20 5
  let base := (instField inst 15 5).toFin
  let selL := instField inst 20 2
  let selS := instField inst 7 2
  if f3 = 0b000#3 then decodeXR inst
  else if f3 = 0b001#3 then decodeXT inst
  else if f3 = 0b010#3 then .instr (.lbuCr rd selL.toFin (loadImm inst) base)
  else if f3 = 0b011#3 then halfSel inst selL (fun h => .lhuCr rd h (loadImm inst) base)
  else if f3 = 0b100#3 then wordSel inst selL (.lwCr rd (loadImm inst) base)
  else if f3 = 0b101#3 then .instr (.sbCr rs2 selS.toFin (storeImm inst) base)
  else if f3 = 0b110#3 then halfSel inst selS (fun h => .shCr rs2 h (storeImm inst) base)
  else wordSel inst selS (.swCr rs2 (storeImm inst) base)

/-- The decoder of the provisional encoding with the prefix `opcode`, total on all 2^32 words (30_encoding.md R84, R100). -/
def decodeWith (opcode : BitVec 7) (inst : Word) : Decoded :=
  if instField inst 0 7 = opcode then decodeIse inst else .host inst

/-- The decoder at the default `XC_OPCODE` (30_encoding.md R100). -/
def decode (inst : Word) : Decoded := decodeWith Config.opcode inst

/-- The bytes of an instruction word in memory order (20_memory.md R55). -/
def bytesOfWord (w : Word) : List Byte := [byte w 0, byte w 1, byte w 2, byte w 3]

/-- What the decoder answers on bytes. -/
inductive DecodedBytes where
  /-- The first four bytes are one instruction word; the rest follows it. -/
  | word (d : Decoded) (rest : List Byte)
  /-- Fewer than four bytes: no instruction word is there. -/
  | truncated
  deriving DecidableEq, Repr

/-- The decoder on bytes: the first four are one instruction word (30_encoding.md R84, 20_memory.md R55). -/
def decodeBytes : List Byte → DecodedBytes
  | b0 :: b1 :: b2 :: b3 :: rest => .word (decode (wordOfBytes b0 b1 b2 b3)) rest
  | _ => .truncated

/-- The instruction word whose low `nbits` bits are `w`'s and whose other bits are 0. -/
def tableWord (nbits w : Nat) : Word := BitVec.ofNat 32 (w % 2 ^ nbits)

/-- What the decoder reads from the word with bits `w`, laid out as memory holds it. -/
def decodeTableWord (nbits w : Nat) : Option Instr :=
  match decodeBytes (bytesOfWord (tableWord nbits w)) with
  | .word (.instr i) _ => some i
  | _ => none

/-! ## The encoder -/

/-- Format XR (30_encoding.md R85). `f` is `rs2` or `shamt`. -/
def encXR (opcode : BitVec 7) (op5 : BitVec 5) (w : BitVec 2) (f rs1 rd : BitVec 5) : Word :=
  op5 ++ w ++ f ++ rs1 ++ 0b000#3 ++ rd ++ opcode

/-- Format XT (30_encoding.md R86). -/
def encXT (opcode : BitVec 7) (b3 b2 b1 b0 : BitVec 2) (rs1 rd : BitVec 5) : Word :=
  0b0000#4 ++ b3 ++ b2 ++ b1 ++ b0 ++ rs1 ++ 0b001#3 ++ rd ++ opcode

/-- Format XL (30_encoding.md R87). -/
def encXL (opcode : BitVec 7) (f3 : BitVec 3) (imm : BitVec 10) (sel : BitVec 2) (rs1 rd : BitVec 5) : Word :=
  imm ++ sel ++ rs1 ++ f3 ++ rd ++ opcode

/-- Format XS (30_encoding.md R88). -/
def encXS (opcode : BitVec 7) (f3 : BitVec 3) (imm : BitVec 10) (sel : BitVec 2) (rs1 rs2 : BitVec 5) : Word :=
  imm.extractLsb' 3 7 ++ rs2 ++ rs1 ++ f3 ++ imm.extractLsb' 0 3 ++ sel ++ opcode

/-- The word of a load or store, whose immediate must be in range: "An operand outside its range is an assembly error,
not an instruction" (30_encoding.md R102). -/
def ifFits (imm : Int) (w : Word) : Option Word := if immFits Config.immW imm then some w else none

/-- The word of an instruction term in the provisional encoding with the prefix `opcode` (30_encoding.md R85 to R95). A
term that is not well formed has none: an immediate out of range (R102), or a named-only instruction (R98). -/
def encodeWith (opcode : BitVec 7) : Instr → Option Word
  | .addP1 rd rs1 rs2 => some (encXR opcode 0b00000#5 0b00#2 rs2 rs1 rd)
  | .addP2 rd rs1 rs2 => some (encXR opcode 0b00000#5 0b01#2 rs2 rs1 rd)
  | .addP4 rd rs1 rs2 => some (encXR opcode 0b00000#5 0b10#2 rs2 rs1 rd)
  | .addP8 rd rs1 rs2 => some (encXR opcode 0b00000#5 0b11#2 rs2 rs1 rd)
  | .subP1 rd rs1 rs2 => some (encXR opcode 0b00001#5 0b00#2 rs2 rs1 rd)
  | .subP2 rd rs1 rs2 => some (encXR opcode 0b00001#5 0b01#2 rs2 rs1 rd)
  | .subP4 rd rs1 rs2 => some (encXR opcode 0b00001#5 0b10#2 rs2 rs1 rd)
  | .subP8 rd rs1 rs2 => some (encXR opcode 0b00001#5 0b11#2 rs2 rs1 rd)
  | .mulP1 rd rs1 rs2 => some (encXR opcode 0b00010#5 0b00#2 rs2 rs1 rd)
  | .mulP2 rd rs1 rs2 => some (encXR opcode 0b00010#5 0b01#2 rs2 rs1 rd)
  | .mulP4 rd rs1 rs2 => some (encXR opcode 0b00010#5 0b10#2 rs2 rs1 rd)
  | .mulP8 rd rs1 rs2 => some (encXR opcode 0b00010#5 0b11#2 rs2 rs1 rd)
  | .sllP1 rd rs1 shamt => some (encXR opcode 0b00011#5 0b00#2 (.ofFin shamt) rs1 rd)
  | .sllP2 rd rs1 shamt => some (encXR opcode 0b00011#5 0b01#2 (.ofFin shamt) rs1 rd)
  | .sllP4 rd rs1 shamt => some (encXR opcode 0b00011#5 0b10#2 (.ofFin shamt) rs1 rd)
  | .sllP8 rd rs1 shamt => some (encXR opcode 0b00011#5 0b11#2 (.ofFin shamt) rs1 rd)
  | .srlP1 rd rs1 shamt => some (encXR opcode 0b00100#5 0b00#2 (.ofFin shamt) rs1 rd)
  | .srlP2 rd rs1 shamt => some (encXR opcode 0b00100#5 0b01#2 (.ofFin shamt) rs1 rd)
  | .srlP4 rd rs1 shamt => some (encXR opcode 0b00100#5 0b10#2 (.ofFin shamt) rs1 rd)
  | .srlP8 rd rs1 shamt => some (encXR opcode 0b00100#5 0b11#2 (.ofFin shamt) rs1 rd)
  | .rotP1 rd rs1 shamt => some (encXR opcode 0b00101#5 0b00#2 (.ofFin shamt) rs1 rd)
  | .rotP2 rd rs1 shamt => some (encXR opcode 0b00101#5 0b01#2 (.ofFin shamt) rs1 rd)
  | .rotP4 rd rs1 shamt => some (encXR opcode 0b00101#5 0b10#2 (.ofFin shamt) rs1 rd)
  | .rotP8 rd rs1 shamt => some (encXR opcode 0b00101#5 0b11#2 (.ofFin shamt) rs1 rd)
  | .xort rd rs1 rs2 => some (encXR opcode 0b01000#5 0b00#2 rs2 rs1 rd)
  | .andt rd rs1 rs2 => some (encXR opcode 0b01001#5 0b00#2 rs2 rs1 rd)
  | .ort rd rs1 rs2 => some (encXR opcode 0b01010#5 0b00#2 rs2 rs1 rd)
  | .mvcop gpr cpr => some (encXR opcode 0b10000#5 0b00#2 0b00000#5 cpr (.ofFin gpr))
  | .mvgpr cpr gpr => some (encXR opcode 0b10001#5 0b00#2 0b00000#5 (.ofFin gpr) cpr)
  | .twid rd rs1 b0 b1 b2 b3 => some (encXT opcode (.ofFin b3) (.ofFin b2) (.ofFin b1) (.ofFin b0) rs1 rd)
  | .lbuCr rd b imm rs1 => ifFits imm (encXL opcode 0b010#3 (.ofInt 10 imm) (.ofFin b) (.ofFin rs1) rd)
  | .lhuCr rd h imm rs1 => ifFits imm (encXL opcode 0b011#3 (.ofInt 10 imm) (0b0#1 ++ BitVec.ofFin (w := 1) h) (.ofFin rs1) rd)
  | .lwCr rd imm rs1 => ifFits imm (encXL opcode 0b100#3 (.ofInt 10 imm) 0b00#2 (.ofFin rs1) rd)
  | .sbCr rs2 b imm rs1 => ifFits imm (encXS opcode 0b101#3 (.ofInt 10 imm) (.ofFin b) (.ofFin rs1) rs2)
  | .shCr rs2 h imm rs1 => ifFits imm (encXS opcode 0b110#3 (.ofInt 10 imm) (0b0#1 ++ BitVec.ofFin (w := 1) h) (.ofFin rs1) rs2)
  | .swCr rs2 imm rs1 => ifFits imm (encXS opcode 0b111#3 (.ofInt 10 imm) 0b00#2 (.ofFin rs1) rs2)
  | .addM | .subM | .accM | .macM | .sllM | .srlM | .equM | .ltuM | .gtuM | .scatter | .gather => none

/-- The encoder at the default `XC_OPCODE`. -/
def encode (i : Instr) : Option Word := encodeWith Config.opcode i

/-! ## The encoding as a parameter -/

/-- The parameter `XC_ENCODING`, the map from 32-bit words to instruction terms, with the two parameters that go with
it (00_scope.md R7, R8; 93_implementation_defined.md U11, U12). -/
structure Encoding where
  /-- `XC_OPCODE`: bits 6:0 of every word of the ISE. -/
  opcode : BitVec 7
  /-- `IMM_W`: the width of the immediate of the loads and stores. -/
  immW : Nat
  /-- `XC_ENCODING`: what each word stands for. -/
  decode : Word → Decoded

/-- What the spec says of any encoding: the words of the ISE are those with its prefix (30_encoding.md R80), every term
it gives is well formed at its `IMM_W` (30_encoding.md R102), and a word that stands for no term is named as it is. -/
structure Encoding.Lawful (xc : Encoding) : Prop where
  host_iff : ∀ w, xc.decode w = .host w ↔ instField w 0 7 ≠ xc.opcode
  host_self : ∀ w v, xc.decode w = .host v → v = w
  reserved_self : ∀ w v why, xc.decode w = .reserved v why → v = w
  wellFormed_of_decode : ∀ w i, xc.decode w = .instr i → i.wellFormedAt xc.immW = true

/-- The provisional encoding with the prefix `opcode`; its formats fix `IMM_W` (30_encoding.md R84 to R90). -/
def provisionalEncoding (opcode : BitVec 7) : Encoding where
  opcode := opcode
  immW := Config.immW
  decode := decodeWith opcode

/-- `XC_ENCODING` and `XC_OPCODE` at their defaults (00_scope.md R8; log 14). -/
def defaultEncoding : Encoding := provisionalEncoding Config.opcode

end Sys2Proof
end

