-- ==== Sys2Proof/Machine/Fetch.lean ====
section
/-! DEFINITION. Fetching an instruction word (20_memory.md R55, R66), and placing one where the next fetch reads. -/

namespace Sys2Proof.Machine

/-- The answer of a fetch. -/
inductive Fetched where
  /-- The word, and the state with its four bytes noted as fetched. -/
  | word (inst : Word) (s : State)
  | refused (r : Refusal)
  deriving DecidableEq, Repr

/-- The state with the four bytes at `pc` noted among the run's fetches (20_memory.md R66; log 12). -/
def State.noteFetch (s : State) : State := { s with fetched := s.fetched.insertAll (span s.pc 4) }

/-- Instruction fetch, `MemRead(pc, 4)` (20_memory.md R55): refused where `MemMap` refuses the read (log 8) or where
the run has stored to a byte of the word (20_memory.md R66; log 12). -/
def fetch (s : State) : Fetched :=
  if !(admits s.platform .read s.pc 4) then .refused (.fetchNotAdmitted s.pc)
  else if s.stored.meets (span s.pc 4) then .refused (.fetchOfStoredByte s.pc)
  else .word (memRead32 s s.pc) s.noteFetch

/-- An ISE word must be fetched from a multiple of 4; the spec gives any other fetch no meaning (10_state.md R34; log 9). -/
def atWordBoundary (s : State) (run : Outcome) : Outcome :=
  if aligned s.pc 4 then run else .refused (.fetchMisaligned s.pc)

/-- A reserved word of the ISE opcode space raises `IllegalInstruction(inst)` (60_exceptions.md R213). -/
def runReserved (inst : Word) (s : State) : Outcome := raise .illegalInstruction inst s

/-- The set without the addresses of a list. -/
def AddrSet.without (t : AddrSet) (as : List Word) : AddrSet :=
  t.filter (fun a => !(as.any (fun b => decide (b.toNat = a))))

/-- The word's bytes at `pc`, in memory order, as a load of a program from outside the machine puts them: they count
as launch memory, not as stores of the run (log 17). -/
def State.placeWord (s : State) (inst : Word) : State :=
  { s with mem := s.mem.writeBytes s.pc (bytesOfWord inst), stored := s.stored.without (span s.pc 4) }

end Sys2Proof.Machine
end

