-- ==== Sys2Proof/Machine/Host.lean ====
section
/-! DEFINITION. The words that are not ISE words: the parameter `HostStep` (00_scope.md R6, R8; 92_eei_decisions.md D2). -/

namespace Sys2Proof.Machine

/-- What a host step does to the state of this model (log 11). -/
inductive HostEffect where
  /-- It completes: the next `pc`, both register files, and the bytes it stores. -/
  | next (pc : Word) (x : Vector Word 32) (c : Vector Word 16) (stores : List (Word × Byte))
  /-- It stops with a fault of the host's own. -/
  | fault (cause tval : Word)
  /-- It gives the word no meaning. -/
  | refused
  deriving DecidableEq, Repr, Inhabited

end Sys2Proof.Machine

namespace Sys2Proof

/-- `HostStep`, the step of every instruction that is not an ISE instruction: nothing constrains it (00_scope.md R8;
log 11). It is applied to the word and the whole state; `draws` differs between any two of its uses in a run, so two
uses in otherwise equal states need not agree (the host has state that this model does not hold). -/
opaque Config.hostStep : Word → Machine.State → Machine.HostEffect

end Sys2Proof

namespace Sys2Proof.Machine

/-- The addresses of a list of byte stores. -/
def storeAddrs (ws : List (Word × Byte)) : List Word := ws.map Prod.fst

/-- Byte stores in order. -/
def Memory.writeAll : Memory → List (Word × Byte) → Memory
  | m, [] => m
  | m, (a, b) :: ws => Memory.writeAll (Memory.write m a.toNat b) ws

/-- The state after a host step that completes; `x[0]` stays 0 whatever the host gave for it (10_state.md R20). -/
def State.afterHost (s : State) (pc : Word) (x : Vector Word 32) (c : Vector Word 16) (ws : List (Word × Byte)) : State :=
  { s.noteDraw with
    pc := pc, x := x.set 0 0, c := c, mem := s.mem.writeAll ws, stored := s.stored.insertAll (storeAddrs ws) }

/-- The outcome of a host step with effect e on the word `inst`. A store of its to a fetched byte is refused, since no
store of a run may write a byte the run fetches (70_reset_and_hazards.md R242, `code-immutable`; log 12). -/
def applyHost (e : HostEffect) (inst : Word) (s : State) : Outcome :=
  match e with
  | .next pc x c ws =>
    if s.fetched.meets (storeAddrs ws) then .refused (.storeToFetchedCode s.pc) else .next (s.afterHost pc x c ws)
  | .fault cause tval => .fault (.host cause tval s.pc s)
  | .refused => .refused (.hostStep inst)

/-- Control passes to `HostStep` (70_reset_and_hazards.md R243 d). -/
def runHost (inst : Word) (s : State) : Outcome := applyHost (Config.hostStep inst s) inst s

end Sys2Proof.Machine
end

