-- ==== Sys2Proof/Machine/Step.lean ====
section
/-! DEFINITION. One step of the machine: fetch, decode, run. -/

namespace Sys2Proof.Machine

/-- One step under the encoding `xc`, the parameter `XC_ENCODING` (00_scope.md R7, R8; 20_memory.md R55): an ISE word runs
its instruction, a reserved word raises, any other word is the host's. -/
def stepWith (xc : Encoding) (s : State) : Host.Outcome State Fault Refusal :=
  match fetch s with
  | .refused r => .refused r
  | .word inst s1 =>
    match xc.decode inst with
    | .instr i => atWordBoundary s1 (exec i s1)
    | .reserved w _ => atWordBoundary s1 (runReserved w s1)
    | .host w => runHost w s1

/-- One step under the spec's default encoding (30_encoding.md R100; log 14). -/
def step (s : State) : Host.Outcome State Fault Refusal := stepWith defaultEncoding s

/-- `s` with the instruction word whose low `nbits` bits are `w`'s, the others 0, stored where `step` fetches next
(log 17). -/
def State.withFetchWord (s : State) (nbits w : Nat) : State := s.placeWord (tableWord nbits w)

end Sys2Proof.Machine
end

