-- ==== Sys2Proof/Machine/Asm.lean ====
section
/-! DEFINITION. The assembler syntax (30_encoding.md R101, R102): how an instruction term is written. -/

namespace Sys2Proof.Machine

/-- `x0`..`x31` (30_encoding.md R101). -/
def gprName (i : GprNum) : String := "x" ++ Nat.repr i.val

/-- `c<n>` for the operand addresses 0..15, `t<n>` for 16..31 (30_encoding.md R101). -/
def cprName (a : CprAddr) : String := (if transposed a then "t" else "c") ++ Nat.repr (regNum a).val

/-- A signed integer in decimal. -/
def intName : Int → String
  | .ofNat n => Nat.repr n
  | .negSucc n => "-" ++ Nat.repr (n + 1)

/-- A memory operand, `imm(base)` (30_encoding.md R102). -/
def memName (imm : Int) (base : GprNum) : String := intName imm ++ "(" ++ gprName base ++ ")"

/-- The operands, separated by commas. -/
def operandsText : List String → String
  | [] => ""
  | [a] => a
  | a :: as => a ++ ", " ++ operandsText as

/-- The mnemonic, a space, and the operands (30_encoding.md R102). -/
def asmLine (mnemonic : String) (operands : List String) : String := mnemonic ++ " " ++ operandsText operands

/-- The text of an instruction whose operands are in range; a named-only term is its mnemonic alone, since no source
gives it operands (30_encoding.md R98, R102). -/
def asmText : Instr → String
  | .addP1 rd rs1 rs2 => asmLine "ADD.p1" [cprName rd, cprName rs1, cprName rs2]
  | .addP2 rd rs1 rs2 => asmLine "ADD.p2" [cprName rd, cprName rs1, cprName rs2]
  | .addP4 rd rs1 rs2 => asmLine "ADD.p4" [cprName rd, cprName rs1, cprName rs2]
  | .addP8 rd rs1 rs2 => asmLine "ADD.p8" [cprName rd, cprName rs1, cprName rs2]
  | .subP1 rd rs1 rs2 => asmLine "SUB.p1" [cprName rd, cprName rs1, cprName rs2]
  | .subP2 rd rs1 rs2 => asmLine "SUB.p2" [cprName rd, cprName rs1, cprName rs2]
  | .subP4 rd rs1 rs2 => asmLine "SUB.p4" [cprName rd, cprName rs1, cprName rs2]
  | .subP8 rd rs1 rs2 => asmLine "SUB.p8" [cprName rd, cprName rs1, cprName rs2]
  | .mulP1 rd rs1 rs2 => asmLine "MUL.p1" [cprName rd, cprName rs1, cprName rs2]
  | .mulP2 rd rs1 rs2 => asmLine "MUL.p2" [cprName rd, cprName rs1, cprName rs2]
  | .mulP4 rd rs1 rs2 => asmLine "MUL.p4" [cprName rd, cprName rs1, cprName rs2]
  | .mulP8 rd rs1 rs2 => asmLine "MUL.p8" [cprName rd, cprName rs1, cprName rs2]
  | .sllP1 rd rs1 shamt => asmLine "SLL.p1" [cprName rd, cprName rs1, Nat.repr shamt.val]
  | .sllP2 rd rs1 shamt => asmLine "SLL.p2" [cprName rd, cprName rs1, Nat.repr shamt.val]
  | .sllP4 rd rs1 shamt => asmLine "SLL.p4" [cprName rd, cprName rs1, Nat.repr shamt.val]
  | .sllP8 rd rs1 shamt => asmLine "SLL.p8" [cprName rd, cprName rs1, Nat.repr shamt.val]
  | .srlP1 rd rs1 shamt => asmLine "SRL.p1" [cprName rd, cprName rs1, Nat.repr shamt.val]
  | .srlP2 rd rs1 shamt => asmLine "SRL.p2" [cprName rd, cprName rs1, Nat.repr shamt.val]
  | .srlP4 rd rs1 shamt => asmLine "SRL.p4" [cprName rd, cprName rs1, Nat.repr shamt.val]
  | .srlP8 rd rs1 shamt => asmLine "SRL.p8" [cprName rd, cprName rs1, Nat.repr shamt.val]
  | .rotP1 rd rs1 shamt => asmLine "ROT.p1" [cprName rd, cprName rs1, Nat.repr shamt.val]
  | .rotP2 rd rs1 shamt => asmLine "ROT.p2" [cprName rd, cprName rs1, Nat.repr shamt.val]
  | .rotP4 rd rs1 shamt => asmLine "ROT.p4" [cprName rd, cprName rs1, Nat.repr shamt.val]
  | .rotP8 rd rs1 shamt => asmLine "ROT.p8" [cprName rd, cprName rs1, Nat.repr shamt.val]
  | .xort rd rs1 rs2 => asmLine "XORT" [cprName rd, cprName rs1, cprName rs2]
  | .andt rd rs1 rs2 => asmLine "ANDT" [cprName rd, cprName rs1, cprName rs2]
  | .ort rd rs1 rs2 => asmLine "ORT" [cprName rd, cprName rs1, cprName rs2]
  | .mvcop gpr cpr => asmLine "MVCOP" [gprName gpr, cprName cpr]
  | .mvgpr cpr gpr => asmLine "MVGPR" [cprName cpr, gprName gpr]
  | .twid rd rs1 b0 b1 b2 b3 =>
    asmLine "TWID" [cprName rd, cprName rs1, Nat.repr b0.val, Nat.repr b1.val, Nat.repr b2.val, Nat.repr b3.val]
  | .lbuCr rd b imm rs1 => asmLine "LBU.cr" [cprName rd, Nat.repr b.val, memName imm rs1]
  | .lhuCr rd h imm rs1 => asmLine "LHU.cr" [cprName rd, Nat.repr h.val, memName imm rs1]
  | .lwCr rd imm rs1 => asmLine "LW.cr" [cprName rd, memName imm rs1]
  | .sbCr rs2 b imm rs1 => asmLine "SB.cr" [cprName rs2, Nat.repr b.val, memName imm rs1]
  | .shCr rs2 h imm rs1 => asmLine "SH.cr" [cprName rs2, Nat.repr h.val, memName imm rs1]
  | .swCr rs2 imm rs1 => asmLine "SW.cr" [cprName rs2, memName imm rs1]
  | .addM => "ADD.m"
  | .subM => "SUB.m"
  | .accM => "ACC.m"
  | .macM => "MAC.m"
  | .sllM => "SLL.m"
  | .srlM => "SRL.m"
  | .equM => "EQU.m"
  | .ltuM => "LTU.m"
  | .gtuM => "GTU.m"
  | .scatter => "SCATTER"
  | .gather => "GATHER"

/-- The assembler text of a term; an operand outside its range is an assembly error, not an instruction, and so is a
named-only term, which has no operand list (30_encoding.md R102). `immW` is the parameter `IMM_W`. -/
def assemblyAt (immW : Nat) (i : Instr) : Option String := if i.wellFormedAt immW then some (asmText i) else none

/-- The same at the default `IMM_W` (log 15). -/
def assembly (i : Instr) : Option String := assemblyAt Config.immW i

end Sys2Proof.Machine
end

