-- ==== Sys2Proof/Safety.lean ====
section
/-! DEFINITION. What counts as a safe run, and the invariant of the machine. -/

namespace Sys2Proof.Machine

/-- Every address in `t` has a listed byte. -/
def AddrSet.listedIn (t : AddrSet) (m : Memory) : Bool := t.all (fun a => (m.byte? a).isSome)

/-- No address is in both sets. -/
def AddrSet.disjoint (t u : AddrSet) : Bool := t.all (fun a => !decide (a ∈ u))

/-- The invariant that every step keeps: the slot of `x[0]` holds 0 (10_state.md R20); memory and the two address sets
have their canonical form; what the run stored is listed in memory; and no byte the run fetched has been stored to
(20_memory.md R66). -/
def State.inv (s : State) : Bool :=
  decide (s.x[0] = 0) && s.mem.wf && s.fetched.wf && s.stored.wf && s.stored.listedIn s.mem && s.fetched.disjoint s.stored

/-- How a run ends (70_reset_and_hazards.md R243), or that it has not ended yet. -/
inductive RunEnd where
  /-- `pc` is the claim's `END_PC`: the run is final and this is its result. -/
  | final (s : State)
  /-- A trap record, or a fault of the host step: never a successful end. -/
  | fault (f : Fault)
  /-- A refusal: the run has no meaning. -/
  | refused (r : Refusal)
  /-- The steps allowed are used up. -/
  | running (s : State)
  deriving DecidableEq, Repr

/-- At most `k` steps under the encoding `xc`, ending where `pc` is `endPc` (70_reset_and_hazards.md R243; log 20). -/
def runToWith (xc : Encoding) (endPc : Word) : Nat → State → RunEnd
  | 0, s => if s.pc = endPc then .final s else .running s
  | k + 1, s =>
    if s.pc = endPc then .final s
    else match stepWith xc s with
      | .next t => runToWith xc endPc k t
      | .fault f => .fault f
      | .refused r => .refused r

/-- The same under the default encoding. -/
def runTo (endPc : Word) (k : Nat) (s : State) : RunEnd := runToWith defaultEncoding endPc k s

/-- A safe run reaches its `END_PC`: no step of it raises or is refused. -/
def SafeRun (endPc : Word) (s t : State) : Prop := ∃ k, runTo endPc k s = .final t

end Sys2Proof.Machine
end

