-- ==== Sys2Proof/Certificates/Slice0/Obligations.lean ====
section
/-! DEFINITION. The statements for the provers. The predicates they share come first, in Sys2Proof.Claims. -/

namespace Sys2Proof.Claims

open Machine

/-- Field i of W bits as a number (41_packed_arithmetic.md R130). -/
def fieldNat (W : Nat) (v : Word) (i : Nat) : Nat := v.toNat / 2 ^ (W * i) % 2 ^ W

/-- `rot(f, s, W)` on numbers (41_packed_arithmetic.md section 6). -/
def rotNat (d : RotDir) (W f s : Nat) : Nat :=
  if s = 0 then f else
    match d with
    | .left => ((f <<< s) ||| (f >>> (W - s))) % 2 ^ W
    | .right => ((f >>> s) ||| (f <<< (W - s))) % 2 ^ W

/-- `inst[11:7]`, `inst[19:15]`, `inst[24:20]` (30_encoding.md R89). -/
def rdOf (w : Word) : BitVec 5 := w.extractLsb' 7 5
def rs1Of (w : Word) : BitVec 5 := w.extractLsb' 15 5
def rs2Of (w : Word) : BitVec 5 := w.extractLsb' 20 5

/-- The load's immediate, `sext(inst[31:22])`, and the store's, `sext(inst[31:25] ++ inst[11:9])` (30_encoding.md R90). -/
def immL (w : Word) : Int := (w.extractLsb' 22 10).toInt
def immS (w : Word) : Int := (w.extractLsb' 25 7 ++ w.extractLsb' 9 3).toInt

/-- Every word with `w AND mask = m` decodes to the term with these operands. -/
def EncodedAs (mask m : Word) (term : Word → Instr) : Prop := ∀ w : Word, w &&& mask = m → decode w = .instr (term w)

/-- Every general purpose register, every byte of memory and the model's own platform and address sets are unchanged. -/
def OutsideCprSame (s t : State) : Prop :=
  (∀ i, t.gpr i = s.gpr i) ∧ (∀ a, t.byteAt a = s.byteAt a) ∧ t.platform = s.platform ∧ t.fetched = s.fetched ∧
    t.stored = s.stored

/-- Every stored byte of the CPR file that is no byte of the view at `rd` is unchanged. -/
def OnlyViewChanges (rd : CprAddr) (s t : State) : Prop :=
  ∀ n k, (∀ m, home rd m ≠ (n, k)) → byte t.c[n] k = byte s.c[n] k

/-- The instruction completes; the view at `rd` satisfies P; nothing else changes but `pc`, which is 4 more. -/
def Completes (rd : CprAddr) (P : Word → Prop) (s : State) (o : Outcome) : Prop :=
  ∃ t, o = .next t ∧ P (t.cpr rd) ∧ OnlyViewChanges rd s t ∧ OutsideCprSame s t ∧ t.draws = s.draws ∧ t.pc = s.pc + 4

/-- The instruction completes; the whole view at `rd` is the next free value; nothing else changes but `pc`. -/
def CompletesDrawn (rd : CprAddr) (s : State) (o : Outcome) : Prop :=
  ∃ t, o = .next t ∧ t.cpr rd = Config.freeWord s.draws ∧ OnlyViewChanges rd s t ∧ OutsideCprSame s t ∧
    t.draws = s.draws + 1 ∧ t.pc = s.pc + 4

/-- Each of the N fields of r, W bits wide, is f of the same field of a. -/
def Fields1 (W N : Nat) (f : Nat → Nat) (a r : Word) : Prop := ∀ i < N, fieldNat W r i = f (fieldNat W a i)

/-- Each of the N fields of r, W bits wide, is f of the same fields of a and b. -/
def Fields2 (W N : Nat) (f : Nat → Nat → Nat) (a b r : Word) : Prop :=
  ∀ i < N, fieldNat W r i = f (fieldNat W a i) (fieldNat W b i)

/-- The stored bytes of the CPR file that an instruction may write, as (operand address, byte of the view): the
"written" column of the table of 10_state.md R32. -/
def cprWritten : Instr → List (CprAddr × ByteIdx)
  | .addP1 rd _ _ | .addP2 rd _ _ | .addP4 rd _ _ | .addP8 rd _ _ => [(rd, 0), (rd, 1), (rd, 2), (rd, 3)]
  | .subP1 rd _ _ | .subP2 rd _ _ | .subP4 rd _ _ | .subP8 rd _ _ => [(rd, 0), (rd, 1), (rd, 2), (rd, 3)]
  | .mulP1 rd _ _ | .mulP2 rd _ _ | .mulP4 rd _ _ | .mulP8 rd _ _ => [(rd, 0), (rd, 1), (rd, 2), (rd, 3)]
  | .sllP1 rd _ _ | .sllP2 rd _ _ | .sllP4 rd _ _ | .sllP8 rd _ _ => [(rd, 0), (rd, 1), (rd, 2), (rd, 3)]
  | .srlP1 rd _ _ | .srlP2 rd _ _ | .srlP4 rd _ _ | .srlP8 rd _ _ => [(rd, 0), (rd, 1), (rd, 2), (rd, 3)]
  | .rotP1 rd _ _ | .rotP2 rd _ _ | .rotP4 rd _ _ | .rotP8 rd _ _ => [(rd, 0), (rd, 1), (rd, 2), (rd, 3)]
  | .xort rd _ _ | .andt rd _ _ | .ort rd _ _ => [(rd, 0), (rd, 1), (rd, 2), (rd, 3)]
  | .twid rd _ _ _ _ _ => [(rd, 0), (rd, 1), (rd, 2), (rd, 3)]
  | .mvgpr cpr _ => [(cpr, 0), (cpr, 1), (cpr, 2), (cpr, 3)]
  | .lwCr rd _ _ => [(rd, 0), (rd, 1), (rd, 2), (rd, 3)]
  | .lbuCr rd b _ _ => [(rd, b)]
  | .lhuCr rd h _ _ => [(rd, halfLo h), (rd, halfHi h)]
  | .mvcop _ _ | .sbCr _ _ _ _ | .shCr _ _ _ _ | .swCr _ _ _ => []
  | .addM | .subM | .accM | .macM | .sllM | .srlM | .equM | .ltuM | .gtuM | .scatter | .gather => []

/-- The causes each instruction can raise: the "Raised by" column of the table of 60_exceptions.md R210. -/
def mayRaise : Instr → List Cause
  | .lbuCr _ _ _ _ => [.loadAccessFault]
  | .lhuCr _ _ _ _ | .lwCr _ _ _ => [.loadAddressMisaligned, .loadAccessFault]
  | .sbCr _ _ _ _ => [.storeAccessFault]
  | .shCr _ _ _ _ | .swCr _ _ _ => [.storeAddressMisaligned, .storeAccessFault]
  | _ => []

/-- The effective address of a load or store, `(x[rs1] + sext_32(imm)) mod 2^32`; 0 for the others. -/
def addrOf (i : Instr) (s : State) : Word :=
  match i with
  | .lbuCr _ _ imm rs1 | .lhuCr _ _ imm rs1 | .sbCr _ _ imm rs1 | .shCr _ _ imm rs1 => s.gpr rs1 + BitVec.ofInt 32 imm
  | .lwCr _ imm rs1 | .swCr _ imm rs1 => s.gpr rs1 + BitVec.ofInt 32 imm
  | _ => 0

/-- How many bytes of memory an instruction stores to. -/
def storeWidth : Instr → Nat
  | .sbCr _ _ _ _ => 1
  | .shCr _ _ _ _ => 2
  | .swCr _ _ _ => 4
  | _ => 0

/-- A word access or halfword access that alignment stops: `addr[0] = 1`, `addr[1:0] != 0`, and no support. -/
def HalfStops (s : State) (a : Word) : Prop := a.getLsbD 0 = true ∧ s.platform.misalignedSupported = false
def WordStops (s : State) (a : Word) : Prop := a.extractLsb' 0 2 ≠ 0b00#2 ∧ s.platform.misalignedSupported = false

/-- Some byte of the n-byte access at `a` is refused to it: it lies in a region refused to the accesses of this kind and
size (60_exceptions.md R221). -/
def HasRefusedByte (p : Platform) (k : AccessKind) (a : Word) (n : Nat) : Prop :=
  ∃ i < n, ∃ r ∈ p.memMap.windows, r.kind = k ∧ r.size = n ∧ r.lo ≤ a + BitVec.ofNat 32 i ∧ a + BitVec.ofNat 32 i ≤ r.hi

/-- A load that completes: the named bytes of the view come from memory, every other stored byte of the CPR file and
everything else is unchanged. `got k` is the memory offset byte k of the view is loaded from, if it is. -/
def LoadCompletes (rd : CprAddr) (got : ByteIdx → Option Nat) (a : Word) (s : State) (o : Outcome) : Prop :=
  ∃ t, o = .next t ∧ (∀ k n, got k = some n → byte (t.cpr rd) k = s.byteAt (a + BitVec.ofNat 32 n)) ∧
    (∀ n k, (∀ m, (got m).isSome = true → home rd m ≠ (n, k)) → byte t.c[n] k = byte s.c[n] k) ∧
    OutsideCprSame s t ∧ t.draws = s.draws ∧ t.pc = s.pc + 4

/-- Some byte of the n-byte access at `a` has been fetched by the run. -/
def HitsFetched (s : State) (a : Word) (n : Nat) : Prop := ∃ k < n, (a + BitVec.ofNat 32 k).toNat ∈ s.fetched

/-- A store that completes: byte k of `bs` is at `a + k`, every other byte of memory and every register is unchanged,
and the bytes stored to are noted. -/
def StoreCompletes (a : Word) (bs : List Byte) (s : State) (o : Outcome) : Prop :=
  ∃ t, o = .next t ∧ (∀ (k : Nat) (h : k < bs.length), t.byteAt (a + BitVec.ofNat 32 k) = bs[k]) ∧
    (∀ b, (∀ k < bs.length, b ≠ a + BitVec.ofNat 32 k) → t.byteAt b = s.byteAt b) ∧
    (∀ i, t.gpr i = s.gpr i) ∧ t.c = s.c ∧ t.platform = s.platform ∧ t.fetched = s.fetched ∧ t.draws = s.draws ∧
    (∀ b, b ∈ t.stored ↔ b ∈ s.stored ∨ ∃ k < bs.length, b = (a + BitVec.ofNat 32 k).toNat) ∧ t.pc = s.pc + 4

/-- The match and mask values of 30_encoding.md R97, in the order of the opcode table. -/
def xrRows : List (Word × Word) :=
  [(0x0000002B, 0xFE00707F), (0x0200002B, 0xFE00707F), (0x0400002B, 0xFE00707F), (0x0600002B, 0xFE00707F),
   (0x0800002B, 0xFE00707F), (0x0A00002B, 0xFE00707F), (0x0C00002B, 0xFE00707F), (0x0E00002B, 0xFE00707F),
   (0x1000002B, 0xFE00707F), (0x1200002B, 0xFE00707F), (0x1400002B, 0xFE00707F), (0x1600002B, 0xFE00707F)]
def shiftRows : List (Word × Word) :=
  [(0x1800002B, 0xFE00707F), (0x1A00002B, 0xFE00707F), (0x1C00002B, 0xFE00707F), (0x1E00002B, 0xFE00707F),
   (0x2000002B, 0xFE00707F), (0x2200002B, 0xFE00707F), (0x2400002B, 0xFE00707F), (0x2600002B, 0xFE00707F),
   (0x2800002B, 0xFE00707F), (0x2A00002B, 0xFE00707F), (0x2C00002B, 0xFE00707F), (0x2E00002B, 0xFE00707F)]
def otherRows : List (Word × Word) :=
  [(0x4000002B, 0xFE00707F), (0x4800002B, 0xFE00707F), (0x5000002B, 0xFE00707F), (0x8000002B, 0xFFF0707F),
   (0x8800002B, 0xFFF0707F), (0x0000102B, 0xF000707F), (0x0000202B, 0x0000707F), (0x0000302B, 0x0020707F),
   (0x0000402B, 0x0030707F), (0x0000502B, 0x0000707F), (0x0000602B, 0x0000717F), (0x0000702B, 0x000071FF)]
def opcodeRows : List (Word × Word) := xrRows ++ (shiftRows ++ otherRows)

/-- The row of an instruction in 30_encoding.md R97; the named-only ones have none (R98). -/
def rowOf : Instr → Option (Word × Word)
  | .addP1 _ _ _ => some (0x0000002B, 0xFE00707F)
  | .addP2 _ _ _ => some (0x0200002B, 0xFE00707F)
  | .addP4 _ _ _ => some (0x0400002B, 0xFE00707F)
  | .addP8 _ _ _ => some (0x0600002B, 0xFE00707F)
  | .subP1 _ _ _ => some (0x0800002B, 0xFE00707F)
  | .subP2 _ _ _ => some (0x0A00002B, 0xFE00707F)
  | .subP4 _ _ _ => some (0x0C00002B, 0xFE00707F)
  | .subP8 _ _ _ => some (0x0E00002B, 0xFE00707F)
  | .mulP1 _ _ _ => some (0x1000002B, 0xFE00707F)
  | .mulP2 _ _ _ => some (0x1200002B, 0xFE00707F)
  | .mulP4 _ _ _ => some (0x1400002B, 0xFE00707F)
  | .mulP8 _ _ _ => some (0x1600002B, 0xFE00707F)
  | .sllP1 _ _ _ => some (0x1800002B, 0xFE00707F)
  | .sllP2 _ _ _ => some (0x1A00002B, 0xFE00707F)
  | .sllP4 _ _ _ => some (0x1C00002B, 0xFE00707F)
  | .sllP8 _ _ _ => some (0x1E00002B, 0xFE00707F)
  | .srlP1 _ _ _ => some (0x2000002B, 0xFE00707F)
  | .srlP2 _ _ _ => some (0x2200002B, 0xFE00707F)
  | .srlP4 _ _ _ => some (0x2400002B, 0xFE00707F)
  | .srlP8 _ _ _ => some (0x2600002B, 0xFE00707F)
  | .rotP1 _ _ _ => some (0x2800002B, 0xFE00707F)
  | .rotP2 _ _ _ => some (0x2A00002B, 0xFE00707F)
  | .rotP4 _ _ _ => some (0x2C00002B, 0xFE00707F)
  | .rotP8 _ _ _ => some (0x2E00002B, 0xFE00707F)
  | .xort _ _ _ => some (0x4000002B, 0xFE00707F)
  | .andt _ _ _ => some (0x4800002B, 0xFE00707F)
  | .ort _ _ _ => some (0x5000002B, 0xFE00707F)
  | .mvcop _ _ => some (0x8000002B, 0xFFF0707F)
  | .mvgpr _ _ => some (0x8800002B, 0xFFF0707F)
  | .twid _ _ _ _ _ _ => some (0x0000102B, 0xF000707F)
  | .lbuCr _ _ _ _ => some (0x0000202B, 0x0000707F)
  | .lhuCr _ _ _ _ => some (0x0000302B, 0x0020707F)
  | .lwCr _ _ _ => some (0x0000402B, 0x0030707F)
  | .sbCr _ _ _ _ => some (0x0000502B, 0x0000707F)
  | .shCr _ _ _ _ => some (0x0000602B, 0x0000717F)
  | .swCr _ _ _ => some (0x0000702B, 0x000071FF)
  | .addM | .subM | .accM | .macM | .sllM | .srlM | .equM | .ltuM | .gtuM | .scatter | .gather => none

/-- The reserved patterns of 30_encoding.md R96, in its words. -/
def ReservedPattern (w : Word) : Prop :=
  let f3 := w.extractLsb' 12 3
  let op5 := w.extractLsb' 27 5
  let width := w.extractLsb' 25 2
  (f3 = 0b000#3 ∧
    (op5 ∉ [0b00000#5, 0b00001#5, 0b00010#5, 0b00011#5, 0b00100#5, 0b00101#5, 0b01000#5, 0b01001#5, 0b01010#5,
      0b10000#5, 0b10001#5] ∨
     (op5 ∈ [0b01000#5, 0b01001#5, 0b01010#5, 0b10000#5, 0b10001#5] ∧ width ≠ 0b00#2) ∨
     (op5 ∈ [0b10000#5, 0b10001#5] ∧ w.extractLsb' 20 5 ≠ 0b00000#5))) ∨
  (f3 = 0b001#3 ∧ w.extractLsb' 28 4 ≠ 0b0000#4) ∨
  (f3 = 0b011#3 ∧ w.getLsbD 21 = true) ∨
  (f3 = 0b100#3 ∧ w.extractLsb' 20 2 ≠ 0b00#2) ∨
  (f3 = 0b110#3 ∧ w.getLsbD 8 = true) ∨
  (f3 = 0b111#3 ∧ w.extractLsb' 7 2 ≠ 0b00#2)

/-- A fetch gives a word: `MemMap` admits it and the run has stored to none of its bytes. -/
def FetchReady (s : State) : Prop :=
  admits s.platform .read s.pc 4 = true ∧ ∀ k < 4, (s.pc + BitVec.ofNat 32 k).toNat ∉ s.stored

/-- `t` is `s` with the four bytes at `pc` among the run's fetches, and nothing else changed. -/
def NotesFetch (s t : State) : Prop :=
  t = { s with fetched := t.fetched } ∧
    ∀ b, b ∈ t.fetched ↔ b ∈ s.fetched ∨ ∃ k < 4, b = (s.pc + BitVec.ofNat 32 k).toNat

/-- The four bytes at `pc` as a little-endian word. -/
def wordAtPc (s : State) : Word := s.byteAt (s.pc + 3) ++ s.byteAt (s.pc + 2) ++ s.byteAt (s.pc + 1) ++ s.byteAt s.pc

/-- `s` on a machine that rotates in direction d. -/
def withDir (s : State) (d : RotDir) : State := { s with platform := { s.platform with rotDir := d } }

/-- Rotating right by k and left by k' give one result. -/
def SameRotation (i i' : Instr) (rd : CprAddr) (s : State) : Prop :=
  ∃ v, Completes rd (fun r => r = v) (withDir s .right) (exec i (withDir s .right)) ∧
    Completes rd (fun r => r = v) (withDir s .left) (exec i' (withDir s .left))

/-- If the sources agree in field i, so do the results. -/
def LaneAlone2 (W N : Nat) (op : CprAddr → CprAddr → CprAddr → Instr) : Prop :=
  ∀ rd rs1 rs2 s s' t t' i, i < N → exec (op rd rs1 rs2) s = .next t → exec (op rd rs1 rs2) s' = .next t' →
    fieldNat W (s.cpr rs1) i = fieldNat W (s'.cpr rs1) i → fieldNat W (s.cpr rs2) i = fieldNat W (s'.cpr rs2) i →
    fieldNat W (t.cpr rd) i = fieldNat W (t'.cpr rd) i

def LaneAlone1 (W N : Nat) (op : CprAddr → CprAddr → Fin 32 → Instr) : Prop :=
  ∀ rd rs1 (shamt : Fin 32) s s' t t' i, i < N → shamt.val < W → s.platform.rotDir = s'.platform.rotDir →
    exec (op rd rs1 shamt) s = .next t → exec (op rd rs1 shamt) s' = .next t' →
    fieldNat W (s.cpr rs1) i = fieldNat W (s'.cpr rs1) i → fieldNat W (t.cpr rd) i = fieldNat W (t'.cpr rd) i

end Sys2Proof.Claims

open Sys2Proof Sys2Proof.Machine Sys2Proof.Claims

/-- 10_state.md R20, and of R21 what a write does: `x[0]` reads 0 and a write to it changes nothing; a write to another register replaces it and no other register. -/
def Obligations.GprReadsAndWrites : Prop :=
  (∀ s : State, s.gpr 0 = 0) ∧ (∀ (s : State) v, s.setGpr 0 v = s) ∧
  ∀ (s : State) i v, i ≠ 0 → (s.setGpr i v).gpr i = v ∧ (∀ j, j ≠ i → (s.setGpr i v).gpr j = s.gpr j) ∧
    s.setGpr i v = { s with x := (s.setGpr i v).x }

/-- 10_state.md R27: addresses 0..15 read and write one stored word, and a write changes no other register. -/
def Obligations.StandardViewIsStoredWord : Prop :=
  ∀ (s : State) (a : CprAddr) (n : CprNum) (v : Word), a.toNat = n.val →
    s.cpr a = s.c[n] ∧ (s.setCpr a v).c[n] = v ∧ (∀ m : CprNum, m ≠ n → (s.setCpr a v).c[m] = s.c[m]) ∧
    s.setCpr a v = { s with c := (s.setCpr a v).c }

/-- 10_state.md R28: byte k of the view at 16 + 4g + j is byte j of `c[4g + k]`. -/
def Obligations.TransposedViewReadsColumn : Prop :=
  ∀ (s : State) (a : CprAddr) (g j k : Fin 4) (n : CprNum), a.toNat = 16 + 4 * g.val + j.val → n.val = 4 * g.val + k.val →
    byte (s.cpr a) k = byte s.c[n] j

/-- 10_state.md R29: a write through the view at 16 + 4g + j sets byte j of each word of group g and nothing else, and is read back. -/
def Obligations.TransposedViewWritesColumn : Prop :=
  ∀ (s : State) (a : CprAddr) (g j : Fin 4) (v : Word), a.toNat = 16 + 4 * g.val + j.val →
    (∀ (k : Fin 4) (n : CprNum), n.val = 4 * g.val + k.val → byte (s.setCpr a v).c[n] j = byte v k) ∧
    (∀ (n : CprNum) (i : Fin 4), (n.val / 4 ≠ g.val ∨ i ≠ j) → byte (s.setCpr a v).c[n] i = byte s.c[n] i) ∧
    (s.setCpr a v).cpr a = v ∧ s.setCpr a v = { s with c := (s.setCpr a v).c }

/-- 10_state.md R30: `cprb[a][k]` is byte k of the view; a byte write replaces exactly one stored byte, `c[a].k` or `c[4g+k].j`. -/
def Obligations.CprByteWriteReplacesOneByte : Prop :=
  ∀ (s : State) (a : CprAddr) (k : ByteIdx) (b : Byte),
    s.cprByte a k = byte (s.cpr a) k ∧
    (∀ n : CprNum, a.toNat = n.val → byte (s.setCprByte a k b).c[n] k = b ∧
      ∀ (m : CprNum) (i : ByteIdx), (m ≠ n ∨ i ≠ k) → byte (s.setCprByte a k b).c[m] i = byte s.c[m] i) ∧
    (∀ (g j : Fin 4) (n : CprNum), a.toNat = 16 + 4 * g.val + j.val → n.val = 4 * g.val + k.val →
      byte (s.setCprByte a k b).c[n] j = b ∧
      ∀ (m : CprNum) (i : ByteIdx), (m ≠ n ∨ i ≠ j) → byte (s.setCprByte a k b).c[m] i = byte s.c[m] i) ∧
    s.setCprByte a k b = { s with c := (s.setCprByte a k b).c }

/-- 40_move.md R121: MVCOP copies the view to `x[gpr]` (discarded if gpr = 0), changes nothing else but `pc`, and raises nothing. -/
def Obligations.MvcopResult : Prop :=
  (∀ gpr cpr s, ∃ t, exec (.mvcop gpr cpr) s = .next t ∧ t.gpr gpr = (if gpr = 0 then 0 else s.cpr cpr) ∧
    (∀ j, j ≠ gpr → t.gpr j = s.gpr j) ∧ t.c = s.c ∧ (∀ a, t.byteAt a = s.byteAt a) ∧ t.platform = s.platform ∧
    t.draws = s.draws ∧ t.fetched = s.fetched ∧ t.stored = s.stored ∧ t.pc = s.pc + 4) ∧
  EncodedAs 0xFFF0707F 0x8000002B (fun w => .mvcop (rdOf w).toFin (rs1Of w))

/-- 40_move.md R122: MVGPR copies `x[gpr]`, 0 if gpr = 0, to the view, changes nothing else but `pc`, and raises nothing. -/
def Obligations.MvgprResult : Prop :=
  (∀ cpr gpr s, Completes cpr (fun r => r = if gpr = 0 then 0 else s.gpr gpr) s (exec (.mvgpr cpr gpr) s)) ∧
  EncodedAs 0xFFF0707F 0x8800002B (fun w => .mvgpr (rdOf w) (rs1Of w).toFin)

/-- 41_packed_arithmetic.md R133 to R136: ADD.pN adds field by field modulo 2^W; no carry crosses a field, nothing else changes but `pc`, nothing is raised. -/
def Obligations.PackedAddResult : Prop :=
  (∀ rd rs1 rs2 s,
    Completes rd (Fields2 4 8 (fun a b => (a + b) % 2 ^ 4) (s.cpr rs1) (s.cpr rs2)) s (exec (.addP8 rd rs1 rs2) s) ∧
    Completes rd (Fields2 8 4 (fun a b => (a + b) % 2 ^ 8) (s.cpr rs1) (s.cpr rs2)) s (exec (.addP4 rd rs1 rs2) s) ∧
    Completes rd (Fields2 16 2 (fun a b => (a + b) % 2 ^ 16) (s.cpr rs1) (s.cpr rs2)) s (exec (.addP2 rd rs1 rs2) s) ∧
    Completes rd (Fields2 32 1 (fun a b => (a + b) % 2 ^ 32) (s.cpr rs1) (s.cpr rs2)) s (exec (.addP1 rd rs1 rs2) s)) ∧
  EncodedAs 0xFE00707F 0x0000002B (fun w => .addP1 (rdOf w) (rs1Of w) (rs2Of w)) ∧
  EncodedAs 0xFE00707F 0x0200002B (fun w => .addP2 (rdOf w) (rs1Of w) (rs2Of w)) ∧
  EncodedAs 0xFE00707F 0x0400002B (fun w => .addP4 (rdOf w) (rs1Of w) (rs2Of w)) ∧
  EncodedAs 0xFE00707F 0x0600002B (fun w => .addP8 (rdOf w) (rs1Of w) (rs2Of w))

/-- 41_packed_arithmetic.md R137 to R140: SUB.pN subtracts the rs2 fields from the rs1 fields modulo 2^W; no carry crosses a field, nothing else changes but `pc`, nothing is raised. -/
def Obligations.PackedSubResult : Prop :=
  (∀ rd rs1 rs2 s,
    Completes rd (Fields2 4 8 (fun a b => (a + 2 ^ 4 - b) % 2 ^ 4) (s.cpr rs1) (s.cpr rs2)) s (exec (.subP8 rd rs1 rs2) s) ∧
    Completes rd (Fields2 8 4 (fun a b => (a + 2 ^ 8 - b) % 2 ^ 8) (s.cpr rs1) (s.cpr rs2)) s (exec (.subP4 rd rs1 rs2) s) ∧
    Completes rd (Fields2 16 2 (fun a b => (a + 2 ^ 16 - b) % 2 ^ 16) (s.cpr rs1) (s.cpr rs2)) s (exec (.subP2 rd rs1 rs2) s) ∧
    Completes rd (Fields2 32 1 (fun a b => (a + 2 ^ 32 - b) % 2 ^ 32) (s.cpr rs1) (s.cpr rs2)) s (exec (.subP1 rd rs1 rs2) s)) ∧
  EncodedAs 0xFE00707F 0x0800002B (fun w => .subP1 (rdOf w) (rs1Of w) (rs2Of w)) ∧
  EncodedAs 0xFE00707F 0x0A00002B (fun w => .subP2 (rdOf w) (rs1Of w) (rs2Of w)) ∧
  EncodedAs 0xFE00707F 0x0C00002B (fun w => .subP4 (rdOf w) (rs1Of w) (rs2Of w)) ∧
  EncodedAs 0xFE00707F 0x0E00002B (fun w => .subP8 (rdOf w) (rs1Of w) (rs2Of w))

/-- 41_packed_arithmetic.md R141 to R144: MUL.pN keeps the low W bits of each field product; no carry crosses a field, nothing else changes but `pc`, nothing is raised. -/
def Obligations.PackedMulResult : Prop :=
  (∀ rd rs1 rs2 s,
    Completes rd (Fields2 4 8 (fun a b => a * b % 2 ^ 4) (s.cpr rs1) (s.cpr rs2)) s (exec (.mulP8 rd rs1 rs2) s) ∧
    Completes rd (Fields2 8 4 (fun a b => a * b % 2 ^ 8) (s.cpr rs1) (s.cpr rs2)) s (exec (.mulP4 rd rs1 rs2) s) ∧
    Completes rd (Fields2 16 2 (fun a b => a * b % 2 ^ 16) (s.cpr rs1) (s.cpr rs2)) s (exec (.mulP2 rd rs1 rs2) s) ∧
    Completes rd (Fields2 32 1 (fun a b => a * b % 2 ^ 32) (s.cpr rs1) (s.cpr rs2)) s (exec (.mulP1 rd rs1 rs2) s)) ∧
  EncodedAs 0xFE00707F 0x1000002B (fun w => .mulP1 (rdOf w) (rs1Of w) (rs2Of w)) ∧
  EncodedAs 0xFE00707F 0x1200002B (fun w => .mulP2 (rdOf w) (rs1Of w) (rs2Of w)) ∧
  EncodedAs 0xFE00707F 0x1400002B (fun w => .mulP4 (rdOf w) (rs1Of w) (rs2Of w)) ∧
  EncodedAs 0xFE00707F 0x1600002B (fun w => .mulP8 (rdOf w) (rs1Of w) (rs2Of w))

/-- 41_packed_arithmetic.md R145 to R149: SLL.pN shifts each field left, zeros entering; a distance of W or more writes a free value to the whole destination; nothing else changes but `pc`, nothing is raised. -/
def Obligations.PackedShiftLeftResult : Prop :=
  (∀ rd rs1 (shamt : Fin 32) s,
    (shamt.val < 4 → Completes rd (Fields1 4 8 (fun a => a * 2 ^ shamt.val % 2 ^ 4) (s.cpr rs1)) s (exec (.sllP8 rd rs1 shamt) s)) ∧
    (4 ≤ shamt.val → CompletesDrawn rd s (exec (.sllP8 rd rs1 shamt) s)) ∧
    (shamt.val < 8 → Completes rd (Fields1 8 4 (fun a => a * 2 ^ shamt.val % 2 ^ 8) (s.cpr rs1)) s (exec (.sllP4 rd rs1 shamt) s)) ∧
    (8 ≤ shamt.val → CompletesDrawn rd s (exec (.sllP4 rd rs1 shamt) s)) ∧
    (shamt.val < 16 → Completes rd (Fields1 16 2 (fun a => a * 2 ^ shamt.val % 2 ^ 16) (s.cpr rs1)) s (exec (.sllP2 rd rs1 shamt) s)) ∧
    (16 ≤ shamt.val → CompletesDrawn rd s (exec (.sllP2 rd rs1 shamt) s)) ∧
    Completes rd (Fields1 32 1 (fun a => a * 2 ^ shamt.val % 2 ^ 32) (s.cpr rs1)) s (exec (.sllP1 rd rs1 shamt) s)) ∧
  EncodedAs 0xFE00707F 0x1800002B (fun w => .sllP1 (rdOf w) (rs1Of w) (rs2Of w).toFin) ∧
  EncodedAs 0xFE00707F 0x1A00002B (fun w => .sllP2 (rdOf w) (rs1Of w) (rs2Of w).toFin) ∧
  EncodedAs 0xFE00707F 0x1C00002B (fun w => .sllP4 (rdOf w) (rs1Of w) (rs2Of w).toFin) ∧
  EncodedAs 0xFE00707F 0x1E00002B (fun w => .sllP8 (rdOf w) (rs1Of w) (rs2Of w).toFin)

/-- 41_packed_arithmetic.md R145, R150 to R153: SRL.pN shifts each field right, zeros entering; a distance of W or more writes a free value to the whole destination; nothing else changes but `pc`, nothing is raised. -/
def Obligations.PackedShiftRightResult : Prop :=
  (∀ rd rs1 (shamt : Fin 32) s,
    (shamt.val < 4 → Completes rd (Fields1 4 8 (fun a => a / 2 ^ shamt.val) (s.cpr rs1)) s (exec (.srlP8 rd rs1 shamt) s)) ∧
    (4 ≤ shamt.val → CompletesDrawn rd s (exec (.srlP8 rd rs1 shamt) s)) ∧
    (shamt.val < 8 → Completes rd (Fields1 8 4 (fun a => a / 2 ^ shamt.val) (s.cpr rs1)) s (exec (.srlP4 rd rs1 shamt) s)) ∧
    (8 ≤ shamt.val → CompletesDrawn rd s (exec (.srlP4 rd rs1 shamt) s)) ∧
    (shamt.val < 16 → Completes rd (Fields1 16 2 (fun a => a / 2 ^ shamt.val) (s.cpr rs1)) s (exec (.srlP2 rd rs1 shamt) s)) ∧
    (16 ≤ shamt.val → CompletesDrawn rd s (exec (.srlP2 rd rs1 shamt) s)) ∧
    Completes rd (Fields1 32 1 (fun a => a / 2 ^ shamt.val) (s.cpr rs1)) s (exec (.srlP1 rd rs1 shamt) s)) ∧
  EncodedAs 0xFE00707F 0x2000002B (fun w => .srlP1 (rdOf w) (rs1Of w) (rs2Of w).toFin) ∧
  EncodedAs 0xFE00707F 0x2200002B (fun w => .srlP2 (rdOf w) (rs1Of w) (rs2Of w).toFin) ∧
  EncodedAs 0xFE00707F 0x2400002B (fun w => .srlP4 (rdOf w) (rs1Of w) (rs2Of w).toFin) ∧
  EncodedAs 0xFE00707F 0x2600002B (fun w => .srlP8 (rdOf w) (rs1Of w) (rs2Of w).toFin)

/-- 41_packed_arithmetic.md R154 to R158: ROT.pN rotates each field of rs1 by `ROT_DIR`; a distance of W or more writes a free value to the whole destination; nothing else changes but `pc`, nothing is raised. -/
def Obligations.PackedRotateResult : Prop :=
  (∀ rd rs1 (shamt : Fin 32) s,
    (shamt.val < 4 → Completes rd (Fields1 4 8 (fun a => rotNat s.platform.rotDir 4 a shamt.val) (s.cpr rs1)) s (exec (.rotP8 rd rs1 shamt) s)) ∧
    (4 ≤ shamt.val → CompletesDrawn rd s (exec (.rotP8 rd rs1 shamt) s)) ∧
    (shamt.val < 8 → Completes rd (Fields1 8 4 (fun a => rotNat s.platform.rotDir 8 a shamt.val) (s.cpr rs1)) s (exec (.rotP4 rd rs1 shamt) s)) ∧
    (8 ≤ shamt.val → CompletesDrawn rd s (exec (.rotP4 rd rs1 shamt) s)) ∧
    (shamt.val < 16 → Completes rd (Fields1 16 2 (fun a => rotNat s.platform.rotDir 16 a shamt.val) (s.cpr rs1)) s (exec (.rotP2 rd rs1 shamt) s)) ∧
    (16 ≤ shamt.val → CompletesDrawn rd s (exec (.rotP2 rd rs1 shamt) s)) ∧
    Completes rd (Fields1 32 1 (fun a => rotNat s.platform.rotDir 32 a shamt.val) (s.cpr rs1)) s (exec (.rotP1 rd rs1 shamt) s)) ∧
  EncodedAs 0xFE00707F 0x2800002B (fun w => .rotP1 (rdOf w) (rs1Of w) (rs2Of w).toFin) ∧
  EncodedAs 0xFE00707F 0x2A00002B (fun w => .rotP2 (rdOf w) (rs1Of w) (rs2Of w).toFin) ∧
  EncodedAs 0xFE00707F 0x2C00002B (fun w => .rotP4 (rdOf w) (rs1Of w) (rs2Of w).toFin) ∧
  EncodedAs 0xFE00707F 0x2E00002B (fun w => .rotP8 (rdOf w) (rs1Of w) (rs2Of w).toFin)

/-- 41_packed_arithmetic.md section 6, `rotr(f, s, W) = rotl(f, W - s, W)`: a rotation to the right is one to the left by the rest of the width; at half the width the direction does not matter. -/
def Obligations.RotateRightIsRotateLeftByTheRest : Prop :=
  ∀ rd rs1 (k k' : Fin 32) s,
    (0 < k.val ∧ 0 < k'.val ∧ k.val + k'.val = 4 → SameRotation (.rotP8 rd rs1 k) (.rotP8 rd rs1 k') rd s) ∧
    (0 < k.val ∧ 0 < k'.val ∧ k.val + k'.val = 8 → SameRotation (.rotP4 rd rs1 k) (.rotP4 rd rs1 k') rd s) ∧
    (0 < k.val ∧ 0 < k'.val ∧ k.val + k'.val = 16 → SameRotation (.rotP2 rd rs1 k) (.rotP2 rd rs1 k') rd s) ∧
    (0 < k.val ∧ 0 < k'.val ∧ k.val + k'.val = 32 → SameRotation (.rotP1 rd rs1 k) (.rotP1 rd rs1 k') rd s)

/-- 41_packed_arithmetic.md section 7 (R159): every field of a result depends only on the same-numbered field of the sources. -/
def Obligations.PackedFieldsAreIndependent : Prop :=
  (LaneAlone2 32 1 .addP1 ∧ LaneAlone2 16 2 .addP2 ∧ LaneAlone2 8 4 .addP4 ∧ LaneAlone2 4 8 .addP8) ∧
  (LaneAlone2 32 1 .subP1 ∧ LaneAlone2 16 2 .subP2 ∧ LaneAlone2 8 4 .subP4 ∧ LaneAlone2 4 8 .subP8) ∧
  (LaneAlone2 32 1 .mulP1 ∧ LaneAlone2 16 2 .mulP2 ∧ LaneAlone2 8 4 .mulP4 ∧ LaneAlone2 4 8 .mulP8) ∧
  (LaneAlone1 32 1 .sllP1 ∧ LaneAlone1 16 2 .sllP2 ∧ LaneAlone1 8 4 .sllP4 ∧ LaneAlone1 4 8 .sllP8) ∧
  (LaneAlone1 32 1 .srlP1 ∧ LaneAlone1 16 2 .srlP2 ∧ LaneAlone1 8 4 .srlP4 ∧ LaneAlone1 4 8 .srlP8) ∧
  (LaneAlone1 32 1 .rotP1 ∧ LaneAlone1 16 2 .rotP2 ∧ LaneAlone1 8 4 .rotP4 ∧ LaneAlone1 4 8 .rotP8)

/-- 42_bitwise_twiddle.md R170 to R172: bit by bit the exclusive or, and, inclusive or of the two views; nothing else changes but `pc`, nothing is raised. -/
def Obligations.BitwiseResult : Prop :=
  (∀ rd rs1 rs2 s,
    Completes rd (fun r => ∀ i < 32, r.getLsbD i = ((s.cpr rs1).getLsbD i != (s.cpr rs2).getLsbD i)) s (exec (.xort rd rs1 rs2) s) ∧
    Completes rd (fun r => ∀ i < 32, r.getLsbD i = ((s.cpr rs1).getLsbD i && (s.cpr rs2).getLsbD i)) s (exec (.andt rd rs1 rs2) s) ∧
    Completes rd (fun r => ∀ i < 32, r.getLsbD i = ((s.cpr rs1).getLsbD i || (s.cpr rs2).getLsbD i)) s (exec (.ort rd rs1 rs2) s)) ∧
  EncodedAs 0xFE00707F 0x4000002B (fun w => .xort (rdOf w) (rs1Of w) (rs2Of w)) ∧
  EncodedAs 0xFE00707F 0x4800002B (fun w => .andt (rdOf w) (rs1Of w) (rs2Of w)) ∧
  EncodedAs 0xFE00707F 0x5000002B (fun w => .ort (rdOf w) (rs1Of w) (rs2Of w))

/-- 42_bitwise_twiddle.md R173: byte k of the destination view is byte bk of the source view; nothing else changes but `pc`, nothing is raised. -/
def Obligations.TwiddleResult : Prop :=
  (∀ rd rs1 b0 b1 b2 b3 s,
    Completes rd (fun r => byte r 0 = byte (s.cpr rs1) b0 ∧ byte r 1 = byte (s.cpr rs1) b1 ∧
      byte r 2 = byte (s.cpr rs1) b2 ∧ byte r 3 = byte (s.cpr rs1) b3) s (exec (.twid rd rs1 b0 b1 b2 b3) s)) ∧
  EncodedAs 0xF000707F 0x0000102B (fun w => .twid (rdOf w) (rs1Of w) (w.extractLsb' 20 2).toFin (w.extractLsb' 22 2).toFin
    (w.extractLsb' 24 2).toFin (w.extractLsb' 26 2).toFin)

/-- 44_memory_access.md R191: LBU.cr loads one byte of the view, never misaligned; the platform's refusal raises LoadAccessFault with the address and no effect. -/
def Obligations.LoadByteResult : Prop :=
  (∀ rd b imm rs1 s, let a := s.gpr rs1 + BitVec.ofInt 32 imm
    (admits s.platform .read a 1 = false → exec (.lbuCr rd b imm rs1) s = .fault (.trap .loadAccessFault a s.pc s)) ∧
    (admits s.platform .read a 1 = true →
      LoadCompletes rd (fun k => if k = b then some 0 else none) a s (exec (.lbuCr rd b imm rs1) s))) ∧
  EncodedAs 0x0000707F 0x0000202B (fun w => .lbuCr (rdOf w) (w.extractLsb' 20 2).toFin (immL w) (rs1Of w).toFin)

/-- 44_memory_access.md R192: LHU.cr loads bytes 2h and 2h+1 of the view; misaligned first, then the platform's refusal, each with no effect. -/
def Obligations.LoadHalfResult : Prop :=
  (∀ rd h imm rs1 s, let a := s.gpr rs1 + BitVec.ofInt 32 imm
    (HalfStops s a → exec (.lhuCr rd h imm rs1) s = .fault (.trap .loadAddressMisaligned a s.pc s)) ∧
    (¬ HalfStops s a → admits s.platform .read a 2 = false →
      exec (.lhuCr rd h imm rs1) s = .fault (.trap .loadAccessFault a s.pc s)) ∧
    (¬ HalfStops s a → admits s.platform .read a 2 = true →
      LoadCompletes rd (fun k => if k.val = 2 * h.val then some 0 else if k.val = 2 * h.val + 1 then some 1 else none) a s
        (exec (.lhuCr rd h imm rs1) s))) ∧
  EncodedAs 0x0020707F 0x0000302B (fun w => .lhuCr (rdOf w) (w.extractLsb' 20 1).toFin (immL w) (rs1Of w).toFin)

/-- 44_memory_access.md R193: LW.cr loads byte k of the view from `addr + k`; misaligned first, then the platform's refusal, each with no effect. -/
def Obligations.LoadWordResult : Prop :=
  (∀ rd imm rs1 s, let a := s.gpr rs1 + BitVec.ofInt 32 imm
    (WordStops s a → exec (.lwCr rd imm rs1) s = .fault (.trap .loadAddressMisaligned a s.pc s)) ∧
    (¬ WordStops s a → admits s.platform .read a 4 = false →
      exec (.lwCr rd imm rs1) s = .fault (.trap .loadAccessFault a s.pc s)) ∧
    (¬ WordStops s a → admits s.platform .read a 4 = true →
      LoadCompletes rd (fun k => some k.val) a s (exec (.lwCr rd imm rs1) s))) ∧
  EncodedAs 0x0030707F 0x0000402B (fun w => .lwCr (rdOf w) (immL w) (rs1Of w).toFin)

/-- 44_memory_access.md section 3 (R194): SB.cr stores byte b of the view, never misaligned; the platform's refusal raises StoreAccessFault with no effect. That the fault comes also where the store would hit fetched code is the model's choice (DESIGN CHOICE, log 13); such a store that passes its check is StoreToFetchedCodeRefused. -/
def Obligations.StoreByteResult : Prop :=
  (∀ rs2 b imm rs1 s, let a := s.gpr rs1 + BitVec.ofInt 32 imm
    (admits s.platform .write a 1 = false → exec (.sbCr rs2 b imm rs1) s = .fault (.trap .storeAccessFault a s.pc s)) ∧
    (admits s.platform .write a 1 = true → ¬ HitsFetched s a 1 →
      StoreCompletes a [byte (s.cpr rs2) b] s (exec (.sbCr rs2 b imm rs1) s))) ∧
  EncodedAs 0x0000707F 0x0000502B (fun w => .sbCr (rs2Of w) (w.extractLsb' 7 2).toFin (immS w) (rs1Of w).toFin)

/-- 44_memory_access.md section 3 (R195): SH.cr stores byte 2h at `addr` and byte 2h+1 at `addr + 1`; misaligned first, then the platform's refusal, each with no byte written. That the faults come also where the store would hit fetched code is the model's choice (DESIGN CHOICE, log 13); such a store that passes its checks is StoreToFetchedCodeRefused. -/
def Obligations.StoreHalfResult : Prop :=
  (∀ rs2 (h : Fin 2) imm rs1 s (k0 k1 : ByteIdx), k0.val = 2 * h.val → k1.val = 2 * h.val + 1 →
    let a := s.gpr rs1 + BitVec.ofInt 32 imm
    (HalfStops s a → exec (.shCr rs2 h imm rs1) s = .fault (.trap .storeAddressMisaligned a s.pc s)) ∧
    (¬ HalfStops s a → admits s.platform .write a 2 = false →
      exec (.shCr rs2 h imm rs1) s = .fault (.trap .storeAccessFault a s.pc s)) ∧
    (¬ HalfStops s a → admits s.platform .write a 2 = true → ¬ HitsFetched s a 2 →
      StoreCompletes a [byte (s.cpr rs2) k0, byte (s.cpr rs2) k1] s (exec (.shCr rs2 h imm rs1) s))) ∧
  EncodedAs 0x0000717F 0x0000602B (fun w => .shCr (rs2Of w) (w.extractLsb' 7 1).toFin (immS w) (rs1Of w).toFin)

/-- 44_memory_access.md section 3 (R196): SW.cr stores byte k of the view at `addr + k`; misaligned first, then the platform's refusal, each with no byte written. That the faults come also where the store would hit fetched code is the model's choice (DESIGN CHOICE, log 13); such a store that passes its checks is StoreToFetchedCodeRefused. -/
def Obligations.StoreWordResult : Prop :=
  (∀ rs2 imm rs1 s, let a := s.gpr rs1 + BitVec.ofInt 32 imm
    (WordStops s a → exec (.swCr rs2 imm rs1) s = .fault (.trap .storeAddressMisaligned a s.pc s)) ∧
    (¬ WordStops s a → admits s.platform .write a 4 = false →
      exec (.swCr rs2 imm rs1) s = .fault (.trap .storeAccessFault a s.pc s)) ∧
    (¬ WordStops s a → admits s.platform .write a 4 = true → ¬ HitsFetched s a 4 →
      StoreCompletes a [byte (s.cpr rs2) 0, byte (s.cpr rs2) 1, byte (s.cpr rs2) 2, byte (s.cpr rs2) 3] s
        (exec (.swCr rs2 imm rs1) s))) ∧
  EncodedAs 0x000071FF 0x0000702B (fun w => .swCr (rs2Of w) (immS w) (rs1Of w).toFin)

/-- 20_memory.md section 6 (R66): a store that passes its checks and has a byte among those the run has fetched is refused. That the bytes are the four at each `pc` so far, and that the exceptions come first, are the model's choices (log 12, 13). -/
def Obligations.StoreToFetchedCodeRefused : Prop :=
  (∀ rs2 b imm rs1 s, let a := s.gpr rs1 + BitVec.ofInt 32 imm
    admits s.platform .write a 1 = true → HitsFetched s a 1 →
      exec (.sbCr rs2 b imm rs1) s = .refused (.storeToFetchedCode a)) ∧
  (∀ rs2 h imm rs1 s, let a := s.gpr rs1 + BitVec.ofInt 32 imm
    ¬ HalfStops s a → admits s.platform .write a 2 = true → HitsFetched s a 2 →
      exec (.shCr rs2 h imm rs1) s = .refused (.storeToFetchedCode a)) ∧
  (∀ rs2 imm rs1 s, let a := s.gpr rs1 + BitVec.ofInt 32 imm
    ¬ WordStops s a → admits s.platform .write a 4 = true → HitsFetched s a 4 →
      exec (.swCr rs2 imm rs1) s = .refused (.storeToFetchedCode a))

/-- 43_multiprecision.md R189 and 44_memory_access.md R205, R206: the eleven named-only instructions are refused by name in every state, which is no trap, and none has an encoding. -/
def Obligations.NamedOnlyRefused : Prop :=
  (∀ s : State,
    exec .addM s = .refused (.namedOnly "ADD.m") ∧ exec .subM s = .refused (.namedOnly "SUB.m") ∧
    exec .accM s = .refused (.namedOnly "ACC.m") ∧ exec .macM s = .refused (.namedOnly "MAC.m") ∧
    exec .sllM s = .refused (.namedOnly "SLL.m") ∧ exec .srlM s = .refused (.namedOnly "SRL.m") ∧
    exec .equM s = .refused (.namedOnly "EQU.m") ∧ exec .ltuM s = .refused (.namedOnly "LTU.m") ∧
    exec .gtuM s = .refused (.namedOnly "GTU.m") ∧ exec .scatter s = .refused (.namedOnly "SCATTER") ∧
    exec .gather s = .refused (.namedOnly "GATHER")) ∧
  ∀ (w : Word) (i : Instr), i ∈ [.addM, .subM, .accM, .macM, .sllM, .srlM, .equM, .ltuM, .gtuM, .scatter, .gather] →
    encode i = none ∧ decode w ≠ .instr i

/-- 10_state.md R34, first sentence: every ISE instruction that completes sets `pc` to `pc + 4` modulo 2^32. -/
def Obligations.CompletedInstructionAdvancesPc : Prop :=
  ∀ i s t, exec i s = .next t → t.pc = s.pc + 4

/-- 10_state.md section 1: among the ISE instructions only MVCOP writes a general purpose register, and only the one it names. -/
def Obligations.OnlyMvcopWritesGprs : Prop :=
  ∀ i s t, exec i s = .next t → ∀ j, t.gpr j ≠ s.gpr j → ∃ cpr, i = .mvcop j cpr

/-- 10_state.md section 2, the table of R32: an instruction that completes leaves every stored CPR byte alone that is not one the table says it writes. -/
def Obligations.OnlyListedCprBytesChange : Prop :=
  ∀ i s t, exec i s = .next t → ∀ n k, (∀ p ∈ cprWritten i, home p.1 p.2 ≠ (n, k)) → byte t.c[n] k = byte s.c[n] k

/-- 20_memory.md section 4: an instruction that completes changes no byte of memory but the 1, 2 or 4 bytes a store writes at its effective address. -/
def Obligations.OnlyStoresChangeMemory : Prop :=
  ∀ i s t, exec i s = .next t → ∀ a, (∀ k < storeWidth i, a ≠ addrOf i s + BitVec.ofNat 32 k) → t.byteAt a = s.byteAt a

/-- 60_exceptions.md section 1 and R214, R221: an instruction that raises gives the trap record of one of its own causes, with the effective address, its own `pc` and the state before it, unchanged. -/
def Obligations.RaiseIsPrecise : Prop :=
  ∀ i s f, exec i s = .fault f → ∃ cause ∈ mayRaise i, f = .trap cause (addrOf i s) s.pc s

/-- 60_exceptions.md R210: the exception codes. -/
def Obligations.ExceptionCodes : Prop :=
  Cause.illegalInstruction.code = 2 ∧ Cause.loadAddressMisaligned.code = 4 ∧ Cause.loadAccessFault.code = 5 ∧
    Cause.storeAddressMisaligned.code = 6 ∧ Cause.storeAccessFault.code = 7

/-- 60_exceptions.md R213: a reserved word of the ISE opcode space, fetched at a multiple of 4, raises IllegalInstruction with the word, and the record's state is the state before (with the fetch noted). -/
def Obligations.ReservedWordRaises : Prop :=
  ∀ s : State, FetchReady s → s.pc.toNat % 4 = 0 → (wordAtPc s).extractLsb' 0 7 = 0b0101011#7 →
    ReservedPattern (wordAtPc s) →
    ∃ t, NotesFetch s t ∧ step s = .fault (.trap .illegalInstruction (wordAtPc s) s.pc t)

/-- 60_exceptions.md section 2 (R214): every trap record of a step has the step's own `pc` and the architectural state before the step. -/
def Obligations.StepTrapRecordHoldsStateBefore : Prop :=
  ∀ s cause tval epc before, step s = .fault (.trap cause tval epc before) →
    epc = s.pc ∧ before.x = s.x ∧ before.c = s.c ∧ before.pc = s.pc ∧ before.mem = s.mem ∧
    before.platform = s.platform ∧ before.draws = s.draws

/-- 20_memory.md R55: fetch reads the four bytes at `pc` as a little-endian word. The condition that a fetch is ready is the model's (log 8, 12). -/
def Obligations.FetchIsLittleEndian : Prop :=
  ∀ s : State, FetchReady s → ∃ t, fetch s = .word (wordAtPc s) t ∧ NotesFetch s t ∧
    ∀ (k : Fin 4) (i : Nat), i < 8 → (wordAtPc s).getLsbD (8 * k.val + i) = (s.byteAt (s.pc + BitVec.ofNat 32 k.val)).getLsbD i

/-- A step runs the decoded instruction: at a multiple of 4, where the word at `pc` decodes to i, step is exec of i on the state with the fetch noted (20_memory.md R55, 30_encoding.md R100). -/
def Obligations.StepRunsDecodedInstruction : Prop :=
  ∀ (s : State) (i : Instr), FetchReady s → s.pc.toNat % 4 = 0 → decode (wordAtPc s) = .instr i →
    ∃ t, NotesFetch s t ∧ step s = exec i t

/-- 70_reset_and_hazards.md R243 (d) and 30_encoding.md section 5: a word whose bits 6:0 are not the ISE's goes to HostStep, at any `pc`. -/
def Obligations.HostWordGoesToHostStep : Prop :=
  ∀ s : State, FetchReady s → (wordAtPc s).extractLsb' 0 7 ≠ 0b0101011#7 →
    ∃ t, NotesFetch s t ∧ step s = applyHost (Config.hostStep (wordAtPc s) t) (wordAtPc s) t

/-- What a step does with HostStep's answer, whatever it is (the model's interface to that parameter, log 11): a completion gives its `pc`, registers and bytes, but `x[0]` stays 0 (10_state.md R20) and a store to a fetched byte is refused (70_reset_and_hazards.md R242, log 12). -/
def Obligations.HostEffectIsApplied : Prop :=
  (∀ s inst pc x c ws, (∀ p ∈ ws, p.1.toNat ∉ s.fetched) → ∃ t, applyHost (.next pc x c ws) inst s = .next t ∧
    t.pc = pc ∧ t.gpr 0 = 0 ∧ (∀ i : Fin 32, i ≠ 0 → t.gpr i = x[i]) ∧ t.c = c ∧
    (∀ ws' a v ws'', ws = ws' ++ (a, v) :: ws'' → (∀ p ∈ ws'', p.1 ≠ a) → t.byteAt a = v) ∧
    (∀ a, (∀ p ∈ ws, p.1 ≠ a) → t.byteAt a = s.byteAt a) ∧ t.platform = s.platform ∧ t.fetched = s.fetched ∧
    t.draws = s.draws + 1 ∧ (∀ b, b ∈ t.stored ↔ b ∈ s.stored ∨ ∃ p ∈ ws, p.1.toNat = b)) ∧
  (∀ s inst pc x c ws, ∀ p ∈ ws, p.1.toNat ∈ s.fetched →
    applyHost (.next pc x c ws) inst s = .refused (.storeToFetchedCode s.pc)) ∧
  (∀ s inst cause tval, applyHost (.fault cause tval) inst s = .fault (.host cause tval s.pc s)) ∧
  (∀ s inst, applyHost .refused inst s = .refused (.hostStep inst))

/-- Where a step is refused before it decodes: a fetch the platform does not admit (the model's choice, log 8), a fetch of a byte the run stored to (20_memory.md section 6, R66), and an ISE word at a `pc` that is no multiple of 4 (the model's choice, log 9). -/
def Obligations.FetchRefusals : Prop :=
  (∀ s : State, admits s.platform .read s.pc 4 = false → step s = .refused (.fetchNotAdmitted s.pc)) ∧
  (∀ s : State, admits s.platform .read s.pc 4 = true → (∃ k < 4, (s.pc + BitVec.ofNat 32 k).toNat ∈ s.stored) →
    step s = .refused (.fetchOfStoredByte s.pc)) ∧
  (∀ s : State, FetchReady s → s.pc.toNat % 4 ≠ 0 → (wordAtPc s).extractLsb' 0 7 = 0b0101011#7 →
    step s = .refused (.fetchMisaligned s.pc))

/-- Words of 30_encoding.md and the instruction rules decode to the instructions printed beside them. -/
def Obligations.PrintedWordsDecode : Prop :=
  decode 0x0410012B = .instr (.addP4 2 0 1) ∧ decode 0x1E10012B = .instr (.sllP8 2 0 1) ∧
    decode 0x4010082B = .instr (.xort 16 0 1) ∧ decode 0x039010AB = .instr (.twid 1 0 1 2 3 0) ∧
    decode 0x800982AB = .instr (.mvcop 5 19) ∧ decode 0x880388AB = .instr (.mvgpr 17 7) ∧
    decode 0x0095322B = .instr (.lhuCr 4 1 2 10) ∧ decode 0xFE45ECAB = .instr (.shCr 4 1 (-2) 11) ∧
    decode 0x3000002B = .reserved 0x3000002B .op5Unlisted ∧ decode 0x00000033 = .host 0x00000033

/-- 30_encoding.md section 2 and 3: decoding the encoding of a well-formed instruction gives it back, with every operand at every value the encoding admits. -/
def Obligations.DecodeEncodeRoundTrip : Prop :=
  ∀ i : Instr, i.wellFormed = true → ∃ w, encode i = some w ∧ decode w = .instr i

/-- 30_encoding.md sections 2 to 4: a word that decodes to an instruction is the encoding of that instruction, which is well formed. -/
def Obligations.EncodeDecodeRoundTrip : Prop :=
  ∀ (w : Word) (i : Instr), decode w = .instr i → i.wellFormed = true ∧ encode i = some w

/-- 30_encoding.md R97 and R100: a word decodes to an instruction of a row exactly when it satisfies the row's match and mask, and no word satisfies two rows. -/
def Obligations.OpcodeTableDecides : Prop :=
  (∀ r ∈ opcodeRows, ∀ w : Word, w &&& r.2 = r.1 ↔ ∃ i, decode w = .instr i ∧ rowOf i = some r) ∧
  (∀ r ∈ opcodeRows, ∀ r' ∈ opcodeRows, ∀ w : Word, w &&& r.2 = r.1 → w &&& r'.2 = r'.1 → r = r') ∧
  (∀ (w : Word) i, decode w = .instr i → ∃ r ∈ opcodeRows, rowOf i = some r)

/-- 30_encoding.md R99 and the reserved patterns of R96: a word is the host's exactly when its bits 6:0 are not the ISE's; otherwise it is reserved exactly when it has one of the listed patterns. -/
def Obligations.ReservedPatternsDecide : Prop :=
  ∀ w : Word, (decode w = .host w ↔ w.extractLsb' 0 7 ≠ 0b0101011#7) ∧
    (w.extractLsb' 0 7 = 0b0101011#7 →
      ((∃ why, decode w = .reserved w why) ↔ ReservedPattern w) ∧ ((∃ i, decode w = .instr i) ↔ ¬ ReservedPattern w))

/-- 20_memory.md section 2 and 6 (R54, R64): after SW.cr, LBU.cr from any of the four bytes reads that byte of the view stored. -/
def Obligations.ByteLoadAfterWordStore : Prop :=
  ∀ rs2 imm rs1 s t, exec (.swCr rs2 imm rs1) s = .next t → ∀ rd b imm' rs1' u (k : Fin 4),
    exec (.lbuCr rd b imm' rs1') t = .next u →
    t.gpr rs1' + BitVec.ofInt 32 imm' = s.gpr rs1 + BitVec.ofInt 32 imm + BitVec.ofNat 32 k.val →
    byte (u.cpr rd) b = byte (s.cpr rs2) k

/-- 20_memory.md section 6 (R64): after SW.cr of a view, LW.cr from the same address loads it into any view. -/
def Obligations.WordLoadAfterWordStore : Prop :=
  ∀ rs2 imm rs1 s t, exec (.swCr rs2 imm rs1) s = .next t → ∀ rd imm' rs1' u,
    exec (.lwCr rd imm' rs1') t = .next u → t.gpr rs1' + BitVec.ofInt 32 imm' = s.gpr rs1 + BitVec.ofInt 32 imm →
    u.cpr rd = s.cpr rs2

/-- 44_memory_access.md section 4 (R204): four LBU.cr with b = 0, 1, 2, 3 to one view set it to the four bytes, whatever it held. -/
def Obligations.FourByteLoadsBuildWord : Prop :=
  ∀ rd i0 i1 i2 i3 r0 r1 r2 r3 s s1 s2 s3 t,
    exec (.lbuCr rd 0 i0 r0) s = .next s1 → exec (.lbuCr rd 1 i1 r1) s1 = .next s2 →
    exec (.lbuCr rd 2 i2 r2) s2 = .next s3 → exec (.lbuCr rd 3 i3 r3) s3 = .next t →
    t.cpr rd = s.byteAt (s.gpr r3 + BitVec.ofInt 32 i3) ++ s.byteAt (s.gpr r2 + BitVec.ofInt 32 i2) ++
      s.byteAt (s.gpr r1 + BitVec.ofInt 32 i1) ++ s.byteAt (s.gpr r0 + BitVec.ofInt 32 i0)

/-- 40_move.md (R121, R122): MVGPR and then MVCOP through the same operand address moves one general purpose register to another. -/
def Obligations.MoveThereAndBack : Prop :=
  ∀ cpr gpr gpr' s t u, exec (.mvgpr cpr gpr) s = .next t → exec (.mvcop gpr' cpr) t = .next u → gpr' ≠ 0 →
    u.gpr gpr' = s.gpr gpr

/-- What reset leaves: `x[0]` is 0 (10_state.md section 6); the other registers, `pc` and memory are the model's launch values (DESIGN CHOICE, log 1 to 4). -/
def Obligations.ResetState : Prop :=
  State.reset.gpr 0 = 0 ∧ (∀ i, i ≠ 0 → State.reset.gpr i = Config.launchGpr i) ∧
    (∀ (n : CprNum) (k : ByteIdx), byte State.reset.c[n] k = Config.launchCprByte n k) ∧
    State.reset.pc = Config.resetPc ∧ (∀ a, State.reset.byteAt a = Config.launchByte a.toNat) ∧
    State.reset.fetched = [] ∧ State.reset.stored = []

/-- The invariant holds at reset. -/
def Obligations.ResetMeetsInvariant : Prop :=
  State.reset.inv = true

/-- Every step keeps the invariant, from every state that meets it: the slot of `x[0]` holds 0, memory and the address sets are canonical, and no fetched byte has been stored to. -/
def Obligations.StepKeepsInvariant : Prop :=
  ∀ s t, s.inv = true → step s = .next t → t.inv = true

/-- 20_memory.md section 6 (R66): no step changes a byte that the run has fetched, nor one that it fetches itself, and what has been fetched stays so. -/
def Obligations.StepLeavesFetchedCodeAlone : Prop :=
  ∀ s t, step s = .next t →
    (∀ b ∈ s.fetched, b ∈ t.fetched) ∧ (∀ k < 4, (s.pc + BitVec.ofNat 32 k).toNat ∈ t.fetched) ∧
    ∀ a, a.toNat ∈ t.fetched → t.byteAt a = s.byteAt a

/-- 20_memory.md section 6 (R66): in a run that reaches its END_PC, every byte the run fetched still holds what the memory it started from held. -/
def Obligations.RunFetchesLaunchMemory : Prop :=
  ∀ endPc k s t, s.inv = true → runTo endPc k s = .final t →
    t.inv = true ∧ ∀ a, a.toNat ∈ t.fetched → t.byteAt a = s.byteAt a

/-- 00_scope.md section 4 (R8): no step changes the OPEN parameters held in State. That the counter of free values never goes back, in an ISE step or a host step, is the model's choice (DESIGN CHOICE, log 10, 11): the counter is the model's own field. -/
def Obligations.StepKeepsPlatform : Prop :=
  ∀ s t, step s = .next t → t.platform = s.platform ∧ s.draws ≤ t.draws

/-- 20_memory.md section 1 (R53) and 60_exceptions.md section 2 (R221), log 7, 22: every predicate on (kind, address, size) with size 1, 2 or 4 is the admission of some platform, so a statement about every platform is about every `MemMap`; every predicate that refuses single bytes to the accesses of a kind and size is one given by regions alone, which admits an access exactly when it admits all its bytes at that size; and no platform admits an access with a byte refused to it. -/
def Obligations.EveryMemMapIsAPlatform : Prop :=
  (∀ (p : AccessKind → Word → Nat → Bool) (q : Platform),
    ∃ m : MemMap, ∀ k a n, n ∈ [1, 2, 4] → admits { q with memMap := m } k a n = p k a n) ∧
  (∀ (p : AccessKind → Word → Nat → Bool) (q : Platform),
    ∃ m : MemMap, m.accesses = [] ∧ ∀ k a n, n ∈ [1, 2, 4] →
      (admits { q with memMap := m } k a n = true ↔ ∀ i < n, p k (a + BitVec.ofNat 32 i) n = true)) ∧
  ∀ (q : Platform) k a n, n ∈ [1, 2, 4] → admits q k a n = true → ¬ HasRefusedByte q k a n

/-- 00_scope.md sections 3 and 4 (R7, R8), the encoding as a parameter: under any encoding a step runs the term which that encoding gives the word at `pc`, with one meaning for the term whatever the encoding; a reserved word raises, any other word goes to HostStep. The premises on the fetch and on `pc` are the model's (log 8, 9, 12). -/
def Obligations.AnyEncodingStepRunsItsTerm : Prop :=
  ∀ (xc : Encoding) (s : State), FetchReady s → ∃ t, NotesFetch s t ∧
    (∀ i, xc.decode (wordAtPc s) = .instr i →
      stepWith xc s = if s.pc.toNat % 4 = 0 then exec i t else .refused (.fetchMisaligned s.pc)) ∧
    (∀ v why, xc.decode (wordAtPc s) = .reserved v why →
      stepWith xc s = if s.pc.toNat % 4 = 0 then .fault (.trap .illegalInstruction v s.pc t)
        else .refused (.fetchMisaligned s.pc)) ∧
    (∀ v, xc.decode (wordAtPc s) = .host v → stepWith xc s = applyHost (Config.hostStep v t) v t)

/-- 00_scope.md section 4 (R8) and 20_memory.md section 6 (R66): whatever the encoding, a step keeps the invariant and the OPEN parameters, and changes no byte that the run has fetched. The address sets are the model's bookkeeping (log 12). -/
def Obligations.AnyEncodingStepKeepsInvariant : Prop :=
  ∀ (xc : Encoding) s t, s.inv = true → stepWith xc s = .next t →
    t.inv = true ∧ t.platform = s.platform ∧ (∀ b ∈ s.fetched, b ∈ t.fetched) ∧
      ∀ a, a.toNat ∈ t.fetched → t.byteAt a = s.byteAt a

/-- 30_encoding.md sections 1 to 4, at every XC_OPCODE: the provisional encoding has what the spec says of any encoding, every well-formed term has a word, and that word and no other decodes to it. -/
def Obligations.ProvisionalEncodingIsLawful : Prop :=
  ∀ opcode : BitVec 7, (provisionalEncoding opcode).Lawful ∧
    (∀ i : Instr, i.wellFormed = true → ∃ w, encodeWith opcode i = some w) ∧
    ∀ (w : Word) (i : Instr), decodeWith opcode w = .instr i ↔ encodeWith opcode i = some w

/-- 30_encoding.md section 6 (R102): a term with an immediate out of range, at any `IMM_W`, has no assembler text, and at the provisional one no word; so has a named-only term (R98). -/
def Obligations.OutOfRangeHasNoTextAndNoWord : Prop :=
  (∀ immW i, i.wellFormedAt immW = false → assemblyAt immW i = none) ∧
  (∀ opcode i, i.wellFormed = false → encodeWith opcode i = none) ∧
  ∀ (immW : Nat) (imm : Int) rd rs1 (b : ByteIdx) (h : Fin 2), 2 * imm < -2 ^ immW ∨ 2 ^ immW ≤ 2 * imm →
    ∀ i ∈ [.lbuCr rd b imm rs1, .lhuCr rd h imm rs1, .lwCr rd imm rs1, .sbCr rd b imm rs1, .shCr rd h imm rs1,
      .swCr rd imm rs1], Instr.wellFormedAt immW i = false

/-- 60_exceptions.md section 2 (R221) and 44_memory_access.md section 1: an access with a byte in a region refused to accesses of its kind and size transfers nothing, wherever it starts: the load or store raises its access fault with the effective address and the state before it, once the misaligned exception does not come first. That a byte is asked about at the size of the access is the model's reading (log 22); that a store raises also where it would hit fetched code is log 13. -/
def Obligations.StraddlingAccessTransfersNothing : Prop :=
  (∀ rd b imm rs1 s, let a := s.gpr rs1 + BitVec.ofInt 32 imm
    HasRefusedByte s.platform .read a 1 → exec (.lbuCr rd b imm rs1) s = .fault (.trap .loadAccessFault a s.pc s)) ∧
  (∀ rd h imm rs1 s, let a := s.gpr rs1 + BitVec.ofInt 32 imm
    HasRefusedByte s.platform .read a 2 → ¬ HalfStops s a →
      exec (.lhuCr rd h imm rs1) s = .fault (.trap .loadAccessFault a s.pc s)) ∧
  (∀ rd imm rs1 s, let a := s.gpr rs1 + BitVec.ofInt 32 imm
    HasRefusedByte s.platform .read a 4 → ¬ WordStops s a →
      exec (.lwCr rd imm rs1) s = .fault (.trap .loadAccessFault a s.pc s)) ∧
  (∀ rs2 b imm rs1 s, let a := s.gpr rs1 + BitVec.ofInt 32 imm
    HasRefusedByte s.platform .write a 1 → exec (.sbCr rs2 b imm rs1) s = .fault (.trap .storeAccessFault a s.pc s)) ∧
  (∀ rs2 h imm rs1 s, let a := s.gpr rs1 + BitVec.ofInt 32 imm
    HasRefusedByte s.platform .write a 2 → ¬ HalfStops s a →
      exec (.shCr rs2 h imm rs1) s = .fault (.trap .storeAccessFault a s.pc s)) ∧
  (∀ rs2 imm rs1 s, let a := s.gpr rs1 + BitVec.ofInt 32 imm
    HasRefusedByte s.platform .write a 4 → ¬ WordStops s a →
      exec (.swCr rs2 imm rs1) s = .fault (.trap .storeAccessFault a s.pc s))
end

