-- ==== Sys2Proof/Laws/State.lean ====
section
/-! SUPPORT. What each update of the state does to each field: one lemma per field per update. -/

namespace Sys2Proof.Machine

variable (s : State)

@[simp] theorem setGpr_c (i : GprNum) (v : Word) : (s.setGpr i v).c = s.c := by
  unfold State.setGpr; split <;> rfl

@[simp] theorem setGpr_pc (i : GprNum) (v : Word) : (s.setGpr i v).pc = s.pc := by
  unfold State.setGpr; split <;> rfl

@[simp] theorem setGpr_mem (i : GprNum) (v : Word) : (s.setGpr i v).mem = s.mem := by
  unfold State.setGpr; split <;> rfl

@[simp] theorem setGpr_platform (i : GprNum) (v : Word) : (s.setGpr i v).platform = s.platform := by
  unfold State.setGpr; split <;> rfl

@[simp] theorem setGpr_draws (i : GprNum) (v : Word) : (s.setGpr i v).draws = s.draws := by
  unfold State.setGpr; split <;> rfl

@[simp] theorem setGpr_fetched (i : GprNum) (v : Word) : (s.setGpr i v).fetched = s.fetched := by
  unfold State.setGpr; split <;> rfl

@[simp] theorem setGpr_stored (i : GprNum) (v : Word) : (s.setGpr i v).stored = s.stored := by
  unfold State.setGpr; split <;> rfl

@[simp] theorem noteDraw_x : (s.noteDraw).x = s.x := rfl

@[simp] theorem noteDraw_c : (s.noteDraw).c = s.c := rfl

@[simp] theorem noteDraw_pc : (s.noteDraw).pc = s.pc := rfl

@[simp] theorem noteDraw_mem : (s.noteDraw).mem = s.mem := rfl

@[simp] theorem noteDraw_platform : (s.noteDraw).platform = s.platform := rfl

@[simp] theorem noteDraw_draws : (s.noteDraw).draws = s.draws + 1 := rfl

@[simp] theorem noteDraw_fetched : (s.noteDraw).fetched = s.fetched := rfl

@[simp] theorem noteDraw_stored : (s.noteDraw).stored = s.stored := rfl

@[simp] theorem setStoredByte_x (n : CprNum) (k : ByteIdx) (b : Byte) : (s.setStoredByte n k b).x = s.x := rfl

@[simp] theorem setStoredByte_c (n : CprNum) (k : ByteIdx) (b : Byte) : (s.setStoredByte n k b).c = s.c.set n (setByte s.c[n] k b) := rfl

@[simp] theorem setStoredByte_pc (n : CprNum) (k : ByteIdx) (b : Byte) : (s.setStoredByte n k b).pc = s.pc := rfl

@[simp] theorem setStoredByte_mem (n : CprNum) (k : ByteIdx) (b : Byte) : (s.setStoredByte n k b).mem = s.mem := rfl

@[simp] theorem setStoredByte_platform (n : CprNum) (k : ByteIdx) (b : Byte) : (s.setStoredByte n k b).platform = s.platform := rfl

@[simp] theorem setStoredByte_draws (n : CprNum) (k : ByteIdx) (b : Byte) : (s.setStoredByte n k b).draws = s.draws := rfl

@[simp] theorem setStoredByte_fetched (n : CprNum) (k : ByteIdx) (b : Byte) : (s.setStoredByte n k b).fetched = s.fetched := rfl

@[simp] theorem setStoredByte_stored (n : CprNum) (k : ByteIdx) (b : Byte) : (s.setStoredByte n k b).stored = s.stored := rfl

@[simp] theorem setCprByte_x (a : CprAddr) (k : ByteIdx) (b : Byte) : (s.setCprByte a k b).x = s.x := rfl

@[simp] theorem setCprByte_pc (a : CprAddr) (k : ByteIdx) (b : Byte) : (s.setCprByte a k b).pc = s.pc := rfl

@[simp] theorem setCprByte_mem (a : CprAddr) (k : ByteIdx) (b : Byte) : (s.setCprByte a k b).mem = s.mem := rfl

@[simp] theorem setCprByte_platform (a : CprAddr) (k : ByteIdx) (b : Byte) : (s.setCprByte a k b).platform = s.platform := rfl

@[simp] theorem setCprByte_draws (a : CprAddr) (k : ByteIdx) (b : Byte) : (s.setCprByte a k b).draws = s.draws := rfl

@[simp] theorem setCprByte_fetched (a : CprAddr) (k : ByteIdx) (b : Byte) : (s.setCprByte a k b).fetched = s.fetched := rfl

@[simp] theorem setCprByte_stored (a : CprAddr) (k : ByteIdx) (b : Byte) : (s.setCprByte a k b).stored = s.stored := rfl

@[simp] theorem setCpr_x (a : CprAddr) (v : Word) : (s.setCpr a v).x = s.x := by
  unfold State.setCpr; split <;> rfl

@[simp] theorem setCpr_pc (a : CprAddr) (v : Word) : (s.setCpr a v).pc = s.pc := by
  unfold State.setCpr; split <;> rfl

@[simp] theorem setCpr_mem (a : CprAddr) (v : Word) : (s.setCpr a v).mem = s.mem := by
  unfold State.setCpr; split <;> rfl

@[simp] theorem setCpr_platform (a : CprAddr) (v : Word) : (s.setCpr a v).platform = s.platform := by
  unfold State.setCpr; split <;> rfl

@[simp] theorem setCpr_draws (a : CprAddr) (v : Word) : (s.setCpr a v).draws = s.draws := by
  unfold State.setCpr; split <;> rfl

@[simp] theorem setCpr_fetched (a : CprAddr) (v : Word) : (s.setCpr a v).fetched = s.fetched := by
  unfold State.setCpr; split <;> rfl

@[simp] theorem setCpr_stored (a : CprAddr) (v : Word) : (s.setCpr a v).stored = s.stored := by
  unfold State.setCpr; split <;> rfl

@[simp] theorem setCprHalf_x (a : CprAddr) (h : Fin 2) (v : BitVec 16) : (s.setCprHalf a h v).x = s.x := rfl

@[simp] theorem setCprHalf_pc (a : CprAddr) (h : Fin 2) (v : BitVec 16) : (s.setCprHalf a h v).pc = s.pc := rfl

@[simp] theorem setCprHalf_mem (a : CprAddr) (h : Fin 2) (v : BitVec 16) : (s.setCprHalf a h v).mem = s.mem := rfl

@[simp] theorem setCprHalf_platform (a : CprAddr) (h : Fin 2) (v : BitVec 16) : (s.setCprHalf a h v).platform = s.platform := rfl

@[simp] theorem setCprHalf_draws (a : CprAddr) (h : Fin 2) (v : BitVec 16) : (s.setCprHalf a h v).draws = s.draws := rfl

@[simp] theorem setCprHalf_fetched (a : CprAddr) (h : Fin 2) (v : BitVec 16) : (s.setCprHalf a h v).fetched = s.fetched := rfl

@[simp] theorem setCprHalf_stored (a : CprAddr) (h : Fin 2) (v : BitVec 16) : (s.setCprHalf a h v).stored = s.stored := rfl

@[simp] theorem memWrite_x (addr : Word) (bs : List Byte) : (memWrite addr bs s).x = s.x := rfl

@[simp] theorem memWrite_c (addr : Word) (bs : List Byte) : (memWrite addr bs s).c = s.c := rfl

@[simp] theorem memWrite_pc (addr : Word) (bs : List Byte) : (memWrite addr bs s).pc = s.pc := rfl

@[simp] theorem memWrite_mem (addr : Word) (bs : List Byte) : (memWrite addr bs s).mem = s.mem.writeBytes addr bs := rfl

@[simp] theorem memWrite_platform (addr : Word) (bs : List Byte) : (memWrite addr bs s).platform = s.platform := rfl

@[simp] theorem memWrite_draws (addr : Word) (bs : List Byte) : (memWrite addr bs s).draws = s.draws := rfl

@[simp] theorem memWrite_fetched (addr : Word) (bs : List Byte) : (memWrite addr bs s).fetched = s.fetched := rfl

@[simp] theorem memWrite_stored (addr : Word) (bs : List Byte) : (memWrite addr bs s).stored = s.stored.insertAll (span addr bs.length) := rfl

@[simp] theorem noteFetch_x : (s.noteFetch).x = s.x := rfl

@[simp] theorem noteFetch_c : (s.noteFetch).c = s.c := rfl

@[simp] theorem noteFetch_pc : (s.noteFetch).pc = s.pc := rfl

@[simp] theorem noteFetch_mem : (s.noteFetch).mem = s.mem := rfl

@[simp] theorem noteFetch_platform : (s.noteFetch).platform = s.platform := rfl

@[simp] theorem noteFetch_draws : (s.noteFetch).draws = s.draws := rfl

@[simp] theorem noteFetch_fetched : (s.noteFetch).fetched = s.fetched.insertAll (span s.pc 4) := rfl

@[simp] theorem noteFetch_stored : (s.noteFetch).stored = s.stored := rfl

@[simp] theorem placeWord_x (w : Word) : (s.placeWord w).x = s.x := rfl

@[simp] theorem placeWord_c (w : Word) : (s.placeWord w).c = s.c := rfl

@[simp] theorem placeWord_pc (w : Word) : (s.placeWord w).pc = s.pc := rfl

@[simp] theorem placeWord_mem (w : Word) : (s.placeWord w).mem = s.mem.writeBytes s.pc (bytesOfWord w) := rfl

@[simp] theorem placeWord_platform (w : Word) : (s.placeWord w).platform = s.platform := rfl

@[simp] theorem placeWord_draws (w : Word) : (s.placeWord w).draws = s.draws := rfl

@[simp] theorem placeWord_fetched (w : Word) : (s.placeWord w).fetched = s.fetched := rfl

@[simp] theorem placeWord_stored (w : Word) : (s.placeWord w).stored = s.stored.without (span s.pc 4) := rfl

@[simp] theorem afterHost_x (pc : Word) (x : Vector Word 32) (c : Vector Word 16) (ws : List (Word × Byte)) : (s.afterHost pc x c ws).x = x.set 0 0 := rfl

@[simp] theorem afterHost_c (pc : Word) (x : Vector Word 32) (c : Vector Word 16) (ws : List (Word × Byte)) : (s.afterHost pc x c ws).c = c := rfl

@[simp] theorem afterHost_pc (pc : Word) (x : Vector Word 32) (c : Vector Word 16) (ws : List (Word × Byte)) : (s.afterHost pc x c ws).pc = pc := rfl

@[simp] theorem afterHost_mem (pc : Word) (x : Vector Word 32) (c : Vector Word 16) (ws : List (Word × Byte)) : (s.afterHost pc x c ws).mem = s.mem.writeAll ws := rfl

@[simp] theorem afterHost_platform (pc : Word) (x : Vector Word 32) (c : Vector Word 16) (ws : List (Word × Byte)) : (s.afterHost pc x c ws).platform = s.platform := rfl

@[simp] theorem afterHost_draws (pc : Word) (x : Vector Word 32) (c : Vector Word 16) (ws : List (Word × Byte)) : (s.afterHost pc x c ws).draws = s.draws + 1 := rfl

@[simp] theorem afterHost_fetched (pc : Word) (x : Vector Word 32) (c : Vector Word 16) (ws : List (Word × Byte)) : (s.afterHost pc x c ws).fetched = s.fetched := rfl

@[simp] theorem afterHost_stored (pc : Word) (x : Vector Word 32) (c : Vector Word 16) (ws : List (Word × Byte)) : (s.afterHost pc x c ws).stored = s.stored.insertAll (storeAddrs ws) := rfl

@[simp] theorem advance_x : s.advance.x = s.x := rfl

@[simp] theorem advance_c : s.advance.c = s.c := rfl

@[simp] theorem advance_pc : s.advance.pc = s.pc + 4 := rfl

@[simp] theorem advance_mem : s.advance.mem = s.mem := rfl

@[simp] theorem advance_platform : s.advance.platform = s.platform := rfl

@[simp] theorem advance_draws : s.advance.draws = s.draws := rfl

@[simp] theorem advance_fetched : s.advance.fetched = s.fetched := rfl

@[simp] theorem advance_stored : s.advance.stored = s.stored := rfl

/-- Completing an instruction changes `pc` only. -/
theorem retire_eq : retire s = .next s.advance := rfl

end Sys2Proof.Machine
end

