-- ==== Sys2Proof/Laws/Memory.lean ====
section
/-! SUPPORT. Memory and address sets: reads after writes, and that every operation keeps the canonical form. -/

namespace Sys2Proof.Machine

/-! ## Address sets -/

theorem AddrSet.mem_insert (t : AddrSet) (a b : Nat) : b ∈ AddrSet.insert t a ↔ b = a ∨ b ∈ t := by
  induction t with
  | nil => simp [AddrSet.insert]
  | cons c t ih =>
    simp only [AddrSet.insert]
    split
    · simp
    · split
      · subst c; simp
      · simp only [List.mem_cons, ih]; tauto

theorem AddrSet.mem_insertAll (t : AddrSet) (as : List Word) (b : Nat) :
    b ∈ AddrSet.insertAll t as ↔ b ∈ t ∨ ∃ a ∈ as, a.toNat = b := by
  induction as generalizing t with
  | nil => simp [AddrSet.insertAll]
  | cons a as ih =>
    simp only [AddrSet.insertAll, ih, AddrSet.mem_insert, List.mem_cons, exists_eq_or_imp]
    constructor
    · rintro ((h | h) | h)
      · exact .inr (.inl h.symm)
      · exact .inl h
      · exact .inr (.inr h)
    · rintro (h | h | h)
      · exact .inl (.inr h)
      · exact .inl (.inl h.symm)
      · exact .inr h

theorem AddrSet.meets_iff (t : AddrSet) (as : List Word) : AddrSet.meets t as = true ↔ ∃ a ∈ as, a.toNat ∈ t := by
  simp [AddrSet.meets]

theorem AddrSet.risesFrom_insert (t : AddrSet) (a lo : Nat) (ha : a < 2 ^ 32) (hlo : lo ≤ a)
    (h : AddrSet.risesFrom lo t = true) : AddrSet.risesFrom lo (AddrSet.insert t a) = true := by
  induction t generalizing lo with
  | nil => simpa [AddrSet.insert, AddrSet.risesFrom, hlo] using ha
  | cons b t ih =>
    simp only [AddrSet.risesFrom, Bool.and_eq_true, decide_eq_true_eq] at h
    simp only [AddrSet.insert]
    split
    · rename_i hab
      simp only [AddrSet.risesFrom, Bool.and_eq_true, decide_eq_true_eq]
      exact ⟨⟨hlo, ha⟩, ⟨by omega, h.1.2⟩, h.2⟩
    · split
      · simp only [AddrSet.risesFrom, Bool.and_eq_true, decide_eq_true_eq]
        exact h
      · simp only [AddrSet.risesFrom, Bool.and_eq_true, decide_eq_true_eq]
        exact ⟨h.1, ih (b + 1) (by omega) h.2⟩

theorem AddrSet.wf_insertAll (t : AddrSet) (as : List Word) (h : AddrSet.wf t = true) :
    AddrSet.wf (AddrSet.insertAll t as) = true := by
  induction as generalizing t with
  | nil => exact h
  | cons a as ih => exact ih _ (AddrSet.risesFrom_insert t a.toNat 0 a.isLt (Nat.zero_le _) h)

/-! ## One byte of memory -/

theorem Memory.byte?_write (m : Memory) (a b : Nat) (v : Byte) :
    Memory.byte? (Memory.write m a v) b = if b = a then some v else Memory.byte? m b := by
  induction m with
  | nil => simp [Memory.write, Memory.byte?]
  | cons e m ih =>
    obtain ⟨c, w⟩ := e
    simp only [Memory.write]
    split
    · simp only [Memory.byte?]
    · split
      · subst c
        simp only [Memory.byte?]
        split <;> rfl
      · rename_i h1 h2
        simp only [Memory.byte?, ih]
        by_cases hb : b = c
        · have : b ≠ a := fun h => h2 (h ▸ hb)
          simp [hb, Ne.symm h2]
        · simp [hb]

theorem Memory.risesFrom_write (m : Memory) (a lo : Nat) (v : Byte) (ha : a < 2 ^ 32) (hlo : lo ≤ a)
    (h : Memory.risesFrom lo m = true) : Memory.risesFrom lo (Memory.write m a v) = true := by
  induction m generalizing lo with
  | nil => simpa [Memory.write, Memory.risesFrom, hlo] using ha
  | cons e m ih =>
    obtain ⟨b, w⟩ := e
    simp only [Memory.risesFrom, Bool.and_eq_true, decide_eq_true_eq] at h
    simp only [Memory.write]
    split
    · simp only [Memory.risesFrom, Bool.and_eq_true, decide_eq_true_eq]
      exact ⟨⟨hlo, ha⟩, ⟨by omega, h.1.2⟩, h.2⟩
    · split
      · rename_i hab
        subst b
        simp only [Memory.risesFrom, Bool.and_eq_true, decide_eq_true_eq]
        exact h
      · simp only [Memory.risesFrom, Bool.and_eq_true, decide_eq_true_eq]
        exact ⟨h.1, ih (b + 1) (by omega) h.2⟩

/-- Writing a byte keeps memory's canonical form. -/
theorem Memory.wf_write (m : Memory) (a : Word) (v : Byte) (h : Memory.wf m = true) :
    Memory.wf (Memory.write m a.toNat v) = true :=
  Memory.risesFrom_write m a.toNat 0 v a.isLt (Nat.zero_le _) h

/-- Writing consecutive bytes keeps memory's canonical form. -/
theorem Memory.wf_writeBytes (m : Memory) (addr : Word) (bs : List Byte) (h : Memory.wf m = true) :
    Memory.wf (Memory.writeBytes m addr bs) = true := by
  induction bs generalizing m addr with
  | nil => exact h
  | cons b bs ih => exact ih _ _ (Memory.wf_write m addr b h)

/-- The byte stores of a host step keep memory's canonical form. -/
theorem Memory.wf_writeAll (m : Memory) (ws : List (Word × Byte)) (h : Memory.wf m = true) :
    Memory.wf (Memory.writeAll m ws) = true := by
  induction ws generalizing m with
  | nil => exact h
  | cons e ws ih => exact ih _ (Memory.wf_write m e.1 e.2 h)

/-! ## Reads and writes of the machine -/

theorem byteAt_congr {s t : State} (h : t.mem = s.mem) (a : Word) : t.byteAt a = s.byteAt a := by
  simp [State.byteAt, h]

@[simp] theorem byteAt_advance (s : State) (a : Word) : s.advance.byteAt a = s.byteAt a := byteAt_congr rfl a

theorem mem_span (addr a : Word) (n : Nat) (hn : n ≤ 2 ^ 32) :
    a ∈ span addr n ↔ (a - addr).toNat < n := by
  induction n generalizing addr with
  | zero => simp [span]
  | succ n ih =>
    simp only [span, List.mem_cons, ih (addr + 1) (by omega)]
    constructor
    · rintro (h | h)
      · subst h; simp
      · bv_omega
    · intro h
      by_cases hz : a = addr
      · exact .inl hz
      · right; bv_omega

/-- The addresses of an n-byte access (20_memory.md R50 to R52). -/
theorem mem_span_iff (addr a : Word) (n : Nat) (hn : n ≤ 2 ^ 32) :
    a ∈ span addr n ↔ ∃ k < n, a = addr + BitVec.ofNat 32 k := by
  rw [mem_span _ _ _ hn]
  constructor
  · intro h
    exact ⟨(a - addr).toNat, h, by rw [BitVec.ofNat_toNat, BitVec.setWidth_eq]; bv_omega⟩
  · rintro ⟨k, hk, rfl⟩
    bv_omega

theorem byte?_writeBytes_other (m : Memory) (addr : Word) (bs : List Byte) (a : Word)
    (h : a ∉ span addr bs.length) :
    Memory.byte? (Memory.writeBytes m addr bs) a.toNat = Memory.byte? m a.toNat := by
  induction bs generalizing m addr with
  | nil => rfl
  | cons b bs ih =>
    simp only [List.length_cons, span, List.mem_cons, not_or] at h
    have : a.toNat ≠ addr.toNat := fun hh => h.1 (BitVec.eq_of_toNat_eq hh)
    rw [Memory.writeBytes, ih _ _ h.2, Memory.byte?_write, if_neg this]

/-- A store leaves every byte outside its span alone (20_memory.md R51). -/
theorem byteAt_memWrite_other (s : State) (addr : Word) (bs : List Byte) (a : Word)
    (h : a ∉ span addr bs.length) : (memWrite addr bs s).byteAt a = s.byteAt a := by
  simp [State.byteAt, byte?_writeBytes_other _ _ _ _ h]

theorem byte?_writeBytes_at (m : Memory) (addr : Word) (bs : List Byte) (k : Nat) (hk : k < bs.length)
    (hn : bs.length ≤ 2 ^ 32) :
    Memory.byte? (Memory.writeBytes m addr bs) (addr + BitVec.ofNat 32 k).toNat = some bs[k] := by
  induction bs generalizing m addr k with
  | nil => simp at hk
  | cons b bs ih =>
    cases k with
    | zero =>
      have h : addr ∉ span (addr + 1) bs.length := by
        rw [mem_span _ _ _ (by simp at hn; omega)]
        simp only [List.length_cons] at hn
        bv_omega
      have e : addr + BitVec.ofNat 32 0 = addr := BitVec.add_zero addr
      rw [e, Memory.writeBytes, byte?_writeBytes_other _ _ _ _ h, Memory.byte?_write, if_pos rfl]
      rfl
    | succ k =>
      have e : addr + BitVec.ofNat 32 (k + 1) = addr + 1 + BitVec.ofNat 32 k := by
        rw [BitVec.ofNat_add, BitVec.add_comm (BitVec.ofNat 32 k), ← BitVec.add_assoc]
        rfl
      rw [e]
      simpa [Memory.writeBytes] using
        ih (Memory.write m addr.toNat b) (addr + 1) k (by simpa using hk) (by simp at hn; omega)

/-- A store puts byte k at `addr + k` modulo 2^32 (20_memory.md R51, R52). -/
theorem byteAt_memWrite_at (s : State) (addr : Word) (bs : List Byte) (k : Nat) (hk : k < bs.length)
    (hn : bs.length ≤ 2 ^ 32) : (memWrite addr bs s).byteAt (addr + BitVec.ofNat 32 k) = bs[k] := by
  rw [State.byteAt, memWrite_mem, byte?_writeBytes_at _ _ _ _ hk hn, Option.getD_some]

/-- A byte the host step does not store to keeps its value. -/
theorem byte?_writeAll_other (m : Memory) (ws : List (Word × Byte)) (a : Word) (h : a ∉ storeAddrs ws) :
    Memory.byte? (Memory.writeAll m ws) a.toNat = Memory.byte? m a.toNat := by
  induction ws generalizing m with
  | nil => rfl
  | cons e ws ih =>
    simp only [storeAddrs, List.map_cons, List.mem_cons, not_or] at h
    have : a.toNat ≠ e.1.toNat := fun hh => h.1 (BitVec.eq_of_toNat_eq hh)
    rw [Memory.writeAll, ih _ h.2, Memory.byte?_write, if_neg this]

/-- A listed byte stays listed under a write. -/
theorem isSome_write (m : Memory) (a b : Nat) (v : Byte) (h : (Memory.byte? m b).isSome) :
    (Memory.byte? (Memory.write m a v) b).isSome := by
  rw [Memory.byte?_write]; split <;> simp [h]

theorem isSome_writeBytes (m : Memory) (addr : Word) (bs : List Byte) (b : Nat)
    (h : (Memory.byte? m b).isSome ∨ ∃ a ∈ span addr bs.length, a.toNat = b) :
    (Memory.byte? (Memory.writeBytes m addr bs) b).isSome := by
  induction bs generalizing m addr with
  | nil => simpa [span, Memory.writeBytes] using h
  | cons v bs ih =>
    apply ih
    simp only [List.length_cons, span, List.mem_cons, exists_eq_or_imp] at h
    rcases h with h | h | h
    · exact .inl (isSome_write _ _ _ _ h)
    · left; rw [Memory.byte?_write]; simp [h]
    · exact .inr h

theorem isSome_writeAll (m : Memory) (ws : List (Word × Byte)) (b : Nat)
    (h : (Memory.byte? m b).isSome ∨ ∃ a ∈ storeAddrs ws, a.toNat = b) :
    (Memory.byte? (Memory.writeAll m ws) b).isSome := by
  induction ws generalizing m with
  | nil => simpa [storeAddrs, Memory.writeAll] using h
  | cons e ws ih =>
    apply ih
    simp only [storeAddrs, List.map_cons, List.mem_cons, exists_eq_or_imp] at h
    rcases h with h | h | h
    · exact .inl (isSome_write _ _ _ _ h)
    · left; rw [Memory.byte?_write]; simp [h]
    · exact .inr h

end Sys2Proof.Machine
end

