-- ==== Sys2Proof/Laws/Bits.lean ====
section
/-! SUPPORT. The laws of the bytes of a word. -/

namespace Sys2Proof.Machine

theorem byteIdx_cases : ∀ k : ByteIdx, k = 0 ∨ k = 1 ∨ k = 2 ∨ k = 3 := by decide

theorem getLsbD_wordOfBytes (b0 b1 b2 b3 : Byte) (i : Nat) :
    (wordOfBytes b0 b1 b2 b3).getLsbD i =
      if i < 8 then b0.getLsbD i else if i < 16 then b1.getLsbD (i - 8)
      else if i < 24 then b2.getLsbD (i - 16) else b3.getLsbD (i - 24) := by
  simp only [wordOfBytes, BitVec.getLsbD_append]
  split_ifs <;> first | rfl | omega

@[simp] theorem byte_wordOfBytes_zero (b0 b1 b2 b3 : Byte) : byte (wordOfBytes b0 b1 b2 b3) 0 = b0 := by
  apply BitVec.eq_of_getLsbD_eq
  intro i hi
  simp [byte, getLsbD_wordOfBytes, hi]

@[simp] theorem byte_wordOfBytes_one (b0 b1 b2 b3 : Byte) : byte (wordOfBytes b0 b1 b2 b3) 1 = b1 := by
  apply BitVec.eq_of_getLsbD_eq
  intro i hi
  have h2 : 8 + i < 16 := by omega
  simp [byte, getLsbD_wordOfBytes, hi, h2]

@[simp] theorem byte_wordOfBytes_two (b0 b1 b2 b3 : Byte) : byte (wordOfBytes b0 b1 b2 b3) 2 = b2 := by
  apply BitVec.eq_of_getLsbD_eq
  intro i hi
  have h1 : ¬ 16 + i < 8 := by omega
  have h3 : 16 + i < 24 := by omega
  simp [byte, getLsbD_wordOfBytes, hi, h1, h3]

@[simp] theorem byte_wordOfBytes_three (b0 b1 b2 b3 : Byte) : byte (wordOfBytes b0 b1 b2 b3) 3 = b3 := by
  apply BitVec.eq_of_getLsbD_eq
  intro i hi
  have h1 : ¬ 24 + i < 8 := by omega
  have h2 : ¬ 24 + i < 16 := by omega
  simp [byte, getLsbD_wordOfBytes, hi, h1, h2]

@[simp] theorem byte_ofBytes (f : ByteIdx → Byte) (k : ByteIdx) : byte (ofBytes f) k = f k := by
  fin_cases k <;> simp [ofBytes]

theorem wordOfBytes_byte (v : Word) : wordOfBytes (byte v 0) (byte v 1) (byte v 2) (byte v 3) = v := by
  apply BitVec.eq_of_getLsbD_eq
  intro i hi
  simp only [getLsbD_wordOfBytes, byte, BitVec.getLsbD_extractLsb']
  split_ifs with h1 h2 h3
  · simp [h1]
  · have : 8 + (i - 8) = i := by omega
    simp [this]; omega
  · have : 16 + (i - 16) = i := by omega
    simp [this]; omega
  · have : 24 + (i - 24) = i := by omega
    simp [this]; omega

@[simp] theorem ofBytes_byte (v : Word) : ofBytes (byte v) = v := wordOfBytes_byte v

/-- Two words with the same bytes are the same word. -/
theorem eq_of_byte_eq {v w : Word} (h : ∀ k, byte v k = byte w k) : v = w := by
  rw [← ofBytes_byte v, ← ofBytes_byte w, funext h]

@[simp] theorem byte_setByte_same (v : Word) (k : ByteIdx) (b : Byte) : byte (setByte v k b) k = b := by
  simp [setByte]

theorem byte_setByte_other (v : Word) {k i : ByteIdx} (b : Byte) (h : i ≠ k) :
    byte (setByte v k b) i = byte v i := by
  simp [setByte, h]

theorem byte_setByte (v : Word) (k i : ByteIdx) (b : Byte) :
    byte (setByte v k b) i = if i = k then b else byte v i := by
  simp [setByte]

theorem extractLsb'_append_low (x y : Byte) : (x ++ y : BitVec 16).extractLsb' 0 8 = y := by
  apply BitVec.eq_of_getLsbD_eq
  intro i hi
  simp only [BitVec.getLsbD_extractLsb', BitVec.getLsbD_append, Nat.zero_add, hi, decide_true, Bool.true_and, if_true]

theorem extractLsb'_append_high (x y : Byte) : (x ++ y : BitVec 16).extractLsb' 8 8 = x := by
  apply BitVec.eq_of_getLsbD_eq
  intro i hi
  have h1 : ¬ 8 + i < 8 := by omega
  have h2 : 8 + i - 8 = i := by omega
  simp only [BitVec.getLsbD_extractLsb', BitVec.getLsbD_append, h1, h2, hi, decide_true, Bool.true_and, if_false]

end Sys2Proof.Machine
end

