-- ==== Sys2Proof/Laws/Views.lean ====
section
/-! SUPPORT. The registers: reads after writes through the GPR file and through the two views of the CPR file, and what
a write leaves alone. -/

namespace Sys2Proof.Machine

/-! ## General purpose registers -/

@[simp] theorem gpr_zero (s : State) : s.gpr 0 = 0 := rfl

theorem gpr_setGpr (s : State) (i j : GprNum) (v : Word) :
    (s.setGpr i v).gpr j = if j = 0 then 0 else if j = i then v else s.gpr j := by
  by_cases hj : j = 0
  · simp [hj]
  · by_cases hi : i = 0
    · have : j ≠ i := fun h => hj (h.trans hi)
      simp [State.setGpr, hi, hj]
    · by_cases hji : j = i
      · subst hji
        simp [State.gpr, State.setGpr, hj]
      · have : i.val ≠ j.val := fun h => hji (Fin.ext h).symm
        simp [State.gpr, State.setGpr, hj, hi, hji, this]

theorem gpr_congr {s t : State} (h : t.x = s.x) (i : GprNum) : t.gpr i = s.gpr i := by
  simp [State.gpr, h]

@[simp] theorem gpr_advance (s : State) (i : GprNum) : s.advance.gpr i = s.gpr i := gpr_congr rfl i

/-! ## Stored bytes of the CPR file -/

/-- `c[n].k` (10_state.md R24). -/
def State.storedByte (s : State) (n : CprNum) (k : ByteIdx) : Byte := byte s.c[n] k

theorem storedByte_congr {s t : State} (h : t.c = s.c) (n : CprNum) (k : ByteIdx) :
    t.storedByte n k = s.storedByte n k := by
  simp [State.storedByte, h]

@[simp] theorem storedByte_advance (s : State) (n : CprNum) (k : ByteIdx) :
    s.advance.storedByte n k = s.storedByte n k := storedByte_congr rfl n k

theorem storedByte_setStoredByte (s : State) (n m : CprNum) (k i : ByteIdx) (b : Byte) :
    (s.setStoredByte n k b).storedByte m i = if m = n ∧ i = k then b else s.storedByte m i := by
  by_cases hm : m = n
  · subst hm
    simp [State.storedByte, byte_setByte]
  · have : n.val ≠ m.val := fun h => hm (Fin.ext h).symm
    simp [State.storedByte, hm, this]

theorem storedByte_setCprByte (s : State) (a : CprAddr) (k : ByteIdx) (b : Byte) (m : CprNum) (i : ByteIdx) :
    (s.setCprByte a k b).storedByte m i = if (m, i) = home a k then b else s.storedByte m i := by
  simp [State.setCprByte, storedByte_setStoredByte, Prod.ext_iff]

/-! ## Views -/

/-- Addresses 16 to 31 are the transposed ones (10_state.md R26). -/
theorem transposed_iff : ∀ a : CprAddr, transposed a = true ↔ 16 ≤ a.toNat := by decide

theorem regNum_val : ∀ a : CprAddr, (regNum a).val = a.toNat % 16 := by decide

theorem laneOf_val : ∀ a : CprAddr, (laneOf a).val = a.toNat % 4 := by decide

theorem groupOf_val : ∀ a : CprAddr, (groupOf a).val = a.toNat / 4 % 4 := by decide

/-- Byte k of the view at address n is byte k of `c[n]` (10_state.md R27). -/
theorem home_standard {a : CprAddr} {n : CprNum} (h : a.toNat = n.val) (k : ByteIdx) : home a k = (n, k) := by
  have h1 : ¬ transposed a = true := by rw [transposed_iff]; omega
  have h2 : regNum a = n := Fin.ext (by rw [regNum_val]; omega)
  simp [home, h1, h2]

/-- Byte k of the view at address 16 + 4g + j is byte j of `c[4g + k]` (10_state.md R28). -/
theorem home_transposed {a : CprAddr} {g j k : Fin 4} {n : CprNum} (h : a.toNat = 16 + 4 * g.val + j.val)
    (hn : n.val = 4 * g.val + k.val) : home a k = (n, j) := by
  have h1 : transposed a = true := by rw [transposed_iff]; omega
  have h2 : groupReg (groupOf a) k = n := Fin.ext (by simp only [groupReg, groupOf_val]; omega)
  have h3 : laneOf a = j := Fin.ext (by rw [laneOf_val]; omega)
  simp [home, h1, h2, h3]

/-- Byte k of the view at a is the stored byte at its home. -/
theorem cprByte_eq (s : State) (a : CprAddr) (k : ByteIdx) :
    byte (s.cpr a) k = s.storedByte (home a k).1 (home a k).2 := by
  unfold State.cpr home State.storedByte
  split <;> simp

/-- The four bytes of a view have four homes. -/
theorem home_injective (a : CprAddr) {k i : ByteIdx} (h : home a k = home a i) : k = i := by
  unfold home at h
  split at h
  · have h1 := congrArg (fun p => p.1.val) h
    simp only [groupReg] at h1
    exact Fin.ext (Nat.add_left_cancel h1)
  · exact congrArg Prod.snd h

theorem home_eq_iff (a : CprAddr) (k i : ByteIdx) : home a k = home a i ↔ k = i :=
  ⟨home_injective a, fun h => h ▸ rfl⟩

/-- A byte write through a view, byte by byte: its own byte has the new value, every other stored byte its old one. -/
theorem cprByte_setCprByte (s : State) (a : CprAddr) (k i : ByteIdx) (b : Byte) :
    byte ((s.setCprByte a k b).cpr a) i = if i = k then b else byte (s.cpr a) i := by
  simp [cprByte_eq, storedByte_setCprByte, home_eq_iff]

/-- A halfword write through a view, byte by byte (44_memory_access.md R192). -/
theorem cprByte_setCprHalf (s : State) (a : CprAddr) (h : Fin 2) (v : BitVec 16) (k : ByteIdx) :
    byte ((s.setCprHalf a h v).cpr a) k =
      if k = halfHi h then v.extractLsb' 8 8 else if k = halfLo h then v.extractLsb' 0 8 else byte (s.cpr a) k := by
  simp only [State.setCprHalf, cprByte_setCprByte]

theorem storedByte_setCprHalf (s : State) (a : CprAddr) (h : Fin 2) (v : BitVec 16) (n : CprNum) (k : ByteIdx) :
    (s.setCprHalf a h v).storedByte n k =
      if (n, k) = home a (halfHi h) then v.extractLsb' 8 8
      else if (n, k) = home a (halfLo h) then v.extractLsb' 0 8 else s.storedByte n k := by
  simp only [State.setCprHalf, storedByte_setCprByte]

theorem storedByte_setCpr (s : State) (a : CprAddr) (v : Word) (m : CprNum) (i : ByteIdx) :
    (s.setCpr a v).storedByte m i =
      if (m, i) = home a 3 then byte v 3 else if (m, i) = home a 2 then byte v 2
      else if (m, i) = home a 1 then byte v 1 else if (m, i) = home a 0 then byte v 0 else s.storedByte m i := by
  by_cases ht : transposed a = true
  · simp [State.setCpr, ht, storedByte_setCprByte]
  · by_cases hm : m = regNum a
    · subst hm
      rcases byteIdx_cases i with h | h | h | h <;> subst h <;>
        simp [State.setCpr, ht, home, State.storedByte]
    · have : (regNum a).val ≠ m.val := fun h => hm (Fin.ext h).symm
      simp [State.setCpr, ht, home, State.storedByte, hm, this]

/-- Every byte of the view written has the new value. -/
theorem storedByte_setCpr_home (s : State) (a : CprAddr) (v : Word) (k : ByteIdx) :
    (s.setCpr a v).storedByte (home a k).1 (home a k).2 = byte v k := by
  rw [storedByte_setCpr]
  rcases byteIdx_cases k with h | h | h | h <;> subst h <;> simp [home_eq_iff]

/-- A write through a view leaves every stored byte that is not the view's alone (10_state.md R27, R29). -/
theorem storedByte_setCpr_other (s : State) (a : CprAddr) (v : Word) (m : CprNum) (i : ByteIdx)
    (h : ∀ k, home a k ≠ (m, i)) : (s.setCpr a v).storedByte m i = s.storedByte m i := by
  rw [storedByte_setCpr]
  simp [fun k => (h k).symm]

/-- A write through a view is read back through it (10_state.md R27, R29). -/
@[simp] theorem cpr_setCpr_same (s : State) (a : CprAddr) (v : Word) : (s.setCpr a v).cpr a = v := by
  apply eq_of_byte_eq
  intro k
  rw [cprByte_eq, storedByte_setCpr_home]

theorem cpr_congr {s t : State} (h : t.c = s.c) (a : CprAddr) : t.cpr a = s.cpr a := by
  simp [State.cpr, h]

@[simp] theorem cpr_advance (s : State) (a : CprAddr) : s.advance.cpr a = s.cpr a := cpr_congr rfl a

/-- Two states with the same stored bytes have the same CPR file. -/
theorem c_eq_of_storedByte_eq {s t : State} (h : ∀ n k, t.storedByte n k = s.storedByte n k) : t.c = s.c := by
  apply Vector.ext
  intro i hi
  exact eq_of_byte_eq (fun k => h ⟨i, hi⟩ k)

end Sys2Proof.Machine
end

