-- ==== Sys2Proof/Laws/Access.lean ====
section
/-! SUPPORT. The checks of a data access: everything a load or a store can answer, said once. -/

namespace Sys2Proof.Machine

/-! ## Admission -/

/-- A byte is refused exactly where it lies in a region refused to the kind and size. -/
theorem byteRefused_iff (m : MemMap) (k : AccessKind) (n : Nat) (b : Word) :
    byteRefused m k n b = true ↔ ∃ r ∈ m.windows, r.kind = k ∧ r.size = n ∧ r.lo ≤ b ∧ b ≤ r.hi := by
  simp [byteRefused, and_assoc]

/-- Everything admission says (20_memory.md R53, 60_exceptions.md R221). -/
theorem admits_iff (p : Platform) (k : AccessKind) (addr : Word) (n : Nat) :
    admits p k addr n = true ↔
      (∀ b ∈ span addr n, byteRefused p.memMap k n b = false) ∧ ⟨k, n, addr⟩ ∉ p.memMap.accesses := by
  simp [admits]

/-- An access with a byte refused at its size is refused (60_exceptions.md R221). -/
theorem not_admits_of_byteRefused {p : Platform} {k : AccessKind} {addr b : Word} {n : Nat} (hb : b ∈ span addr n)
    (h : byteRefused p.memMap k n b = true) : admits p k addr n = false := by
  rw [Bool.eq_false_iff]
  intro ha
  rw [((admits_iff p k addr n).mp ha).1 b hb] at h
  cases h

/-- A platform with everything admitted admits everything (20_memory.md R53). -/
theorem admits_of_admitsAll {p : Platform} (h : p.memMap = .admitsAll) (k : AccessKind) (addr : Word) (n : Nat) :
    admits p k addr n = true := by
  simp [admits_iff, h, MemMap.admitsAll, byteRefused]

/-! ## The checks -/

/-- The access passes both checks (44_memory_access.md R190). -/
def passes (k : AccessKind) (n : Nat) (addr : Word) (s : State) : Bool :=
  (aligned addr n || s.platform.misalignedSupported) && admits s.platform k addr n

theorem guardAccess_of_passes {k : AccessKind} {n : Nat} {addr : Word} {s : State} (h : passes k n addr s = true)
    (done : Outcome) : guardAccess k n addr s done = done := by
  simp only [passes, Bool.and_eq_true, Bool.or_eq_true] at h
  rcases h with ⟨h1 | h1, h2⟩ <;> simp [guardAccess, h1, h2]

theorem guardAccess_of_misaligned {k : AccessKind} {n : Nat} {addr : Word} {s : State} (h1 : aligned addr n = false)
    (h2 : s.platform.misalignedSupported = false) (done : Outcome) :
    guardAccess k n addr s done = raise (misalignedCause k) addr s := by
  simp [guardAccess, h1, h2]

theorem guardAccess_of_refused {k : AccessKind} {n : Nat} {addr : Word} {s : State}
    (h1 : (aligned addr n || s.platform.misalignedSupported) = true) (h2 : admits s.platform k addr n = false)
    (done : Outcome) : guardAccess k n addr s done = raise (accessFaultCause k) addr s := by
  rcases (Bool.or_eq_true ..).mp h1 with h | h <;> simp [guardAccess, h, h2]

/-- Everything `guardAccess` can answer. -/
theorem guardAccess_cases (k : AccessKind) (n : Nat) (addr : Word) (s : State) (done : Outcome) :
    (aligned addr n = false ∧ s.platform.misalignedSupported = false ∧
      guardAccess k n addr s done = raise (misalignedCause k) addr s) ∨
    ((aligned addr n || s.platform.misalignedSupported) = true ∧ admits s.platform k addr n = false ∧
      guardAccess k n addr s done = raise (accessFaultCause k) addr s) ∨
    (passes k n addr s = true ∧ guardAccess k n addr s done = done) := by
  cases h1 : aligned addr n <;> cases h2 : s.platform.misalignedSupported <;> cases h3 : admits s.platform k addr n <;>
    simp [guardAccess, passes, h1, h2, h3]

/-- A load that answers a next state passed its checks and completed. -/
theorem load_next {n : Nat} {addr : Word} {s after t : State} (h : load n addr s after = .next t) :
    passes .read n addr s = true ∧ t = after.advance := by
  rcases guardAccess_cases .read n addr s (retire after) with ⟨_, _, e⟩ | ⟨_, _, e⟩ | ⟨hp, e⟩ <;>
    rw [load, e] at h
  · cases h
  · cases h
  · exact ⟨hp, by cases h; rfl⟩

/-- A store that answers a next state passed its checks, met no fetched byte, and wrote its bytes. -/
theorem store_next {addr : Word} {bs : List Byte} {s t : State} (h : store addr bs s = .next t) :
    passes .write bs.length addr s = true ∧ s.fetched.meets (span addr bs.length) = false ∧
      t = (memWrite addr bs s).advance := by
  rcases guardAccess_cases .write bs.length addr s (if s.fetched.meets (span addr bs.length) then
      .refused (.storeToFetchedCode addr) else retire (memWrite addr bs s)) with ⟨_, _, e⟩ | ⟨_, _, e⟩ | ⟨hp, e⟩ <;>
    rw [store, e] at h
  · cases h
  · cases h
  · cases hm : s.fetched.meets (span addr bs.length) <;> simp only [hm] at h
    · exact ⟨hp, rfl, by cases h; rfl⟩
    · cases h

/-- A load faults only with the two load exceptions, with the address as the value and the state unchanged. -/
theorem load_fault {n : Nat} {addr : Word} {s after : State} {f : Fault} (h : load n addr s after = .fault f) :
    f = .trap .loadAddressMisaligned addr s.pc s ∨ f = .trap .loadAccessFault addr s.pc s := by
  rcases guardAccess_cases .read n addr s (retire after) with ⟨_, _, e⟩ | ⟨_, _, e⟩ | ⟨_, e⟩ <;> rw [load, e] at h
  · cases h; exact .inl rfl
  · cases h; exact .inr rfl
  · cases h

/-- A store faults only with the two store exceptions, with the address as the value and the state unchanged. -/
theorem store_fault {addr : Word} {bs : List Byte} {s : State} {f : Fault} (h : store addr bs s = .fault f) :
    f = .trap .storeAddressMisaligned addr s.pc s ∨ f = .trap .storeAccessFault addr s.pc s := by
  rcases guardAccess_cases .write bs.length addr s (if s.fetched.meets (span addr bs.length) then
      .refused (.storeToFetchedCode addr) else retire (memWrite addr bs s)) with ⟨_, _, e⟩ | ⟨_, _, e⟩ | ⟨_, e⟩ <;>
    rw [store, e] at h
  · cases h; exact .inl rfl
  · cases h; exact .inr rfl
  · split at h <;> cases h

/-- A byte access is always aligned (20_memory.md R56). -/
@[simp] theorem aligned_one (addr : Word) : aligned addr 1 = true := by
  simp [aligned, Nat.mod_one]

/-- A halfword access is misaligned exactly when bit 0 of its address is 1 (20_memory.md R56). -/
theorem aligned_two_false (addr : Word) : aligned addr 2 = false ↔ addr.getLsbD 0 = true := by
  simp only [aligned, decide_eq_false_iff_not, BitVec.getLsbD, Nat.testBit_zero, decide_eq_true_eq]
  omega

/-- A word access is misaligned exactly when bits 1:0 of its address are not 00 (20_memory.md R56). -/
theorem aligned_four_false (addr : Word) : aligned addr 4 = false ↔ addr.extractLsb' 0 2 ≠ 0b00#2 := by
  simp [aligned, ← BitVec.toNat_inj, BitVec.extractLsb'_toNat]

/-! ## What a load and a store answer, by the checks -/

theorem load_of_misaligned {n : Nat} {addr : Word} {s after : State} (h1 : aligned addr n = false)
    (h2 : s.platform.misalignedSupported = false) :
    load n addr s after = .fault (.trap .loadAddressMisaligned addr s.pc s) :=
  guardAccess_of_misaligned h1 h2 _

theorem load_of_refused {n : Nat} {addr : Word} {s after : State}
    (h1 : ¬ (aligned addr n = false ∧ s.platform.misalignedSupported = false))
    (h2 : admits s.platform .read addr n = false) :
    load n addr s after = .fault (.trap .loadAccessFault addr s.pc s) :=
  guardAccess_of_refused (by revert h1; cases aligned addr n <;> cases s.platform.misalignedSupported <;> simp) h2 _

theorem load_of_admitted {n : Nat} {addr : Word} {s after : State}
    (h1 : ¬ (aligned addr n = false ∧ s.platform.misalignedSupported = false))
    (h2 : admits s.platform .read addr n = true) : load n addr s after = .next after.advance :=
  guardAccess_of_passes
    (by revert h1; cases h : aligned addr n <;> cases h' : s.platform.misalignedSupported <;> simp [passes, h, h', h2]) _

theorem store_of_misaligned {addr : Word} {bs : List Byte} {s : State} (h1 : aligned addr bs.length = false)
    (h2 : s.platform.misalignedSupported = false) :
    store addr bs s = .fault (.trap .storeAddressMisaligned addr s.pc s) :=
  guardAccess_of_misaligned h1 h2 _

theorem store_of_refused {addr : Word} {bs : List Byte} {s : State}
    (h1 : ¬ (aligned addr bs.length = false ∧ s.platform.misalignedSupported = false))
    (h2 : admits s.platform .write addr bs.length = false) :
    store addr bs s = .fault (.trap .storeAccessFault addr s.pc s) :=
  guardAccess_of_refused
    (by revert h1; cases aligned addr bs.length <;> cases s.platform.misalignedSupported <;> simp) h2 _

theorem store_of_admitted {addr : Word} {bs : List Byte} {s : State}
    (h1 : ¬ (aligned addr bs.length = false ∧ s.platform.misalignedSupported = false))
    (h2 : admits s.platform .write addr bs.length = true) :
    store addr bs s =
      if s.fetched.meets (span addr bs.length) then .refused (.storeToFetchedCode addr)
      else .next (memWrite addr bs s).advance :=
  guardAccess_of_passes (by
    revert h1
    cases h : aligned addr bs.length <;> cases h' : s.platform.misalignedSupported <;> simp [passes, h, h', h2]) _

end Sys2Proof.Machine
end

