-- ==== Sys2Proof/Laws/Decode.lean ====
section
/-! SUPPORT. The slices of an encoded word, and what a masked comparison says of a word's slices. -/

namespace Sys2Proof

/-- If `w AND mask = match` and the mask covers a slice, the word's slice is the match value's. -/
theorem instField_of_mask {w mask m : Word} (h : w &&& mask = m) (lo n : Nat)
    (hm : mask.extractLsb' lo n = BitVec.allOnes n) : instField w lo n = m.extractLsb' lo n := by
  rw [← h, BitVec.extractLsb'_and, hm, BitVec.and_allOnes]; rfl

/-- The word of four bytes has those bytes. -/
theorem decodeBytes_bytesOfWord (w : Word) : decodeBytes (bytesOfWord w) = .word (decode w) [] := by
  simp [decodeBytes, bytesOfWord, Machine.wordOfBytes_byte]

/-! ## The slices of an encoded word: no field is dropped or moved. -/

@[simp] theorem instField_encXR_27 (opcode : BitVec 7) (op5 : BitVec 5) (w : BitVec 2) (f rs1 rd : BitVec 5) :
    instField (encXR opcode op5 w f rs1 rd) 27 5 = op5 := by
  apply BitVec.eq_of_getLsbD_eq
  intro i hi
  simp only [instField, encXR, BitVec.getLsbD_append, BitVec.getLsbD_extractLsb']
  interval_cases i <;> simp

@[simp] theorem instField_encXR_25 (opcode : BitVec 7) (op5 : BitVec 5) (w : BitVec 2) (f rs1 rd : BitVec 5) :
    instField (encXR opcode op5 w f rs1 rd) 25 2 = w := by
  apply BitVec.eq_of_getLsbD_eq
  intro i hi
  simp only [instField, encXR, BitVec.getLsbD_append, BitVec.getLsbD_extractLsb']
  interval_cases i <;> simp

@[simp] theorem instField_encXR_20 (opcode : BitVec 7) (op5 : BitVec 5) (w : BitVec 2) (f rs1 rd : BitVec 5) :
    instField (encXR opcode op5 w f rs1 rd) 20 5 = f := by
  apply BitVec.eq_of_getLsbD_eq
  intro i hi
  simp only [instField, encXR, BitVec.getLsbD_append, BitVec.getLsbD_extractLsb']
  interval_cases i <;> simp

@[simp] theorem instField_encXR_15 (opcode : BitVec 7) (op5 : BitVec 5) (w : BitVec 2) (f rs1 rd : BitVec 5) :
    instField (encXR opcode op5 w f rs1 rd) 15 5 = rs1 := by
  apply BitVec.eq_of_getLsbD_eq
  intro i hi
  simp only [instField, encXR, BitVec.getLsbD_append, BitVec.getLsbD_extractLsb']
  interval_cases i <;> simp

@[simp] theorem instField_encXR_12 (opcode : BitVec 7) (op5 : BitVec 5) (w : BitVec 2) (f rs1 rd : BitVec 5) :
    instField (encXR opcode op5 w f rs1 rd) 12 3 = 0b000#3 := by
  apply BitVec.eq_of_getLsbD_eq
  intro i hi
  simp only [instField, encXR, BitVec.getLsbD_append, BitVec.getLsbD_extractLsb']
  interval_cases i <;> simp

@[simp] theorem instField_encXR_7 (opcode : BitVec 7) (op5 : BitVec 5) (w : BitVec 2) (f rs1 rd : BitVec 5) :
    instField (encXR opcode op5 w f rs1 rd) 7 5 = rd := by
  apply BitVec.eq_of_getLsbD_eq
  intro i hi
  simp only [instField, encXR, BitVec.getLsbD_append, BitVec.getLsbD_extractLsb']
  interval_cases i <;> simp

@[simp] theorem instField_encXR_0 (opcode : BitVec 7) (op5 : BitVec 5) (w : BitVec 2) (f rs1 rd : BitVec 5) :
    instField (encXR opcode op5 w f rs1 rd) 0 7 = opcode := by
  apply BitVec.eq_of_getLsbD_eq
  intro i hi
  simp only [instField, encXR, BitVec.getLsbD_append, BitVec.getLsbD_extractLsb']
  interval_cases i <;> simp

@[simp] theorem instField_encXT_28 (opcode : BitVec 7) (b3 b2 b1 b0 : BitVec 2) (rs1 rd : BitVec 5) :
    instField (encXT opcode b3 b2 b1 b0 rs1 rd) 28 4 = 0b0000#4 := by
  apply BitVec.eq_of_getLsbD_eq
  intro i hi
  simp only [instField, encXT, BitVec.getLsbD_append, BitVec.getLsbD_extractLsb']
  interval_cases i <;> simp

@[simp] theorem instField_encXT_26 (opcode : BitVec 7) (b3 b2 b1 b0 : BitVec 2) (rs1 rd : BitVec 5) :
    instField (encXT opcode b3 b2 b1 b0 rs1 rd) 26 2 = b3 := by
  apply BitVec.eq_of_getLsbD_eq
  intro i hi
  simp only [instField, encXT, BitVec.getLsbD_append, BitVec.getLsbD_extractLsb']
  interval_cases i <;> simp

@[simp] theorem instField_encXT_24 (opcode : BitVec 7) (b3 b2 b1 b0 : BitVec 2) (rs1 rd : BitVec 5) :
    instField (encXT opcode b3 b2 b1 b0 rs1 rd) 24 2 = b2 := by
  apply BitVec.eq_of_getLsbD_eq
  intro i hi
  simp only [instField, encXT, BitVec.getLsbD_append, BitVec.getLsbD_extractLsb']
  interval_cases i <;> simp

@[simp] theorem instField_encXT_22 (opcode : BitVec 7) (b3 b2 b1 b0 : BitVec 2) (rs1 rd : BitVec 5) :
    instField (encXT opcode b3 b2 b1 b0 rs1 rd) 22 2 = b1 := by
  apply BitVec.eq_of_getLsbD_eq
  intro i hi
  simp only [instField, encXT, BitVec.getLsbD_append, BitVec.getLsbD_extractLsb']
  interval_cases i <;> simp

@[simp] theorem instField_encXT_20 (opcode : BitVec 7) (b3 b2 b1 b0 : BitVec 2) (rs1 rd : BitVec 5) :
    instField (encXT opcode b3 b2 b1 b0 rs1 rd) 20 2 = b0 := by
  apply BitVec.eq_of_getLsbD_eq
  intro i hi
  simp only [instField, encXT, BitVec.getLsbD_append, BitVec.getLsbD_extractLsb']
  interval_cases i <;> simp

@[simp] theorem instField_encXT_15 (opcode : BitVec 7) (b3 b2 b1 b0 : BitVec 2) (rs1 rd : BitVec 5) :
    instField (encXT opcode b3 b2 b1 b0 rs1 rd) 15 5 = rs1 := by
  apply BitVec.eq_of_getLsbD_eq
  intro i hi
  simp only [instField, encXT, BitVec.getLsbD_append, BitVec.getLsbD_extractLsb']
  interval_cases i <;> simp

@[simp] theorem instField_encXT_12 (opcode : BitVec 7) (b3 b2 b1 b0 : BitVec 2) (rs1 rd : BitVec 5) :
    instField (encXT opcode b3 b2 b1 b0 rs1 rd) 12 3 = 0b001#3 := by
  apply BitVec.eq_of_getLsbD_eq
  intro i hi
  simp only [instField, encXT, BitVec.getLsbD_append, BitVec.getLsbD_extractLsb']
  interval_cases i <;> simp

@[simp] theorem instField_encXT_7 (opcode : BitVec 7) (b3 b2 b1 b0 : BitVec 2) (rs1 rd : BitVec 5) :
    instField (encXT opcode b3 b2 b1 b0 rs1 rd) 7 5 = rd := by
  apply BitVec.eq_of_getLsbD_eq
  intro i hi
  simp only [instField, encXT, BitVec.getLsbD_append, BitVec.getLsbD_extractLsb']
  interval_cases i <;> simp

@[simp] theorem instField_encXT_0 (opcode : BitVec 7) (b3 b2 b1 b0 : BitVec 2) (rs1 rd : BitVec 5) :
    instField (encXT opcode b3 b2 b1 b0 rs1 rd) 0 7 = opcode := by
  apply BitVec.eq_of_getLsbD_eq
  intro i hi
  simp only [instField, encXT, BitVec.getLsbD_append, BitVec.getLsbD_extractLsb']
  interval_cases i <;> simp

@[simp] theorem instField_encXL_22 (opcode : BitVec 7) (f3 : BitVec 3) (imm : BitVec 10) (sel : BitVec 2) (rs1 rd : BitVec 5) :
    instField (encXL opcode f3 imm sel rs1 rd) 22 10 = imm := by
  apply BitVec.eq_of_getLsbD_eq
  intro i hi
  simp only [instField, encXL, BitVec.getLsbD_append, BitVec.getLsbD_extractLsb']
  interval_cases i <;> simp

@[simp] theorem instField_encXL_20 (opcode : BitVec 7) (f3 : BitVec 3) (imm : BitVec 10) (sel : BitVec 2) (rs1 rd : BitVec 5) :
    instField (encXL opcode f3 imm sel rs1 rd) 20 2 = sel := by
  apply BitVec.eq_of_getLsbD_eq
  intro i hi
  simp only [instField, encXL, BitVec.getLsbD_append, BitVec.getLsbD_extractLsb']
  interval_cases i <;> simp

@[simp] theorem instField_encXL_15 (opcode : BitVec 7) (f3 : BitVec 3) (imm : BitVec 10) (sel : BitVec 2) (rs1 rd : BitVec 5) :
    instField (encXL opcode f3 imm sel rs1 rd) 15 5 = rs1 := by
  apply BitVec.eq_of_getLsbD_eq
  intro i hi
  simp only [instField, encXL, BitVec.getLsbD_append, BitVec.getLsbD_extractLsb']
  interval_cases i <;> simp

@[simp] theorem instField_encXL_12 (opcode : BitVec 7) (f3 : BitVec 3) (imm : BitVec 10) (sel : BitVec 2) (rs1 rd : BitVec 5) :
    instField (encXL opcode f3 imm sel rs1 rd) 12 3 = f3 := by
  apply BitVec.eq_of_getLsbD_eq
  intro i hi
  simp only [instField, encXL, BitVec.getLsbD_append, BitVec.getLsbD_extractLsb']
  interval_cases i <;> simp

@[simp] theorem instField_encXL_7 (opcode : BitVec 7) (f3 : BitVec 3) (imm : BitVec 10) (sel : BitVec 2) (rs1 rd : BitVec 5) :
    instField (encXL opcode f3 imm sel rs1 rd) 7 5 = rd := by
  apply BitVec.eq_of_getLsbD_eq
  intro i hi
  simp only [instField, encXL, BitVec.getLsbD_append, BitVec.getLsbD_extractLsb']
  interval_cases i <;> simp

@[simp] theorem instField_encXL_0 (opcode : BitVec 7) (f3 : BitVec 3) (imm : BitVec 10) (sel : BitVec 2) (rs1 rd : BitVec 5) :
    instField (encXL opcode f3 imm sel rs1 rd) 0 7 = opcode := by
  apply BitVec.eq_of_getLsbD_eq
  intro i hi
  simp only [instField, encXL, BitVec.getLsbD_append, BitVec.getLsbD_extractLsb']
  interval_cases i <;> simp

@[simp] theorem instField_encXS_25 (opcode : BitVec 7) (f3 : BitVec 3) (imm : BitVec 10) (sel : BitVec 2) (rs1 rs2 : BitVec 5) :
    instField (encXS opcode f3 imm sel rs1 rs2) 25 7 = imm.extractLsb' 3 7 := by
  apply BitVec.eq_of_getLsbD_eq
  intro i hi
  simp only [instField, encXS, BitVec.getLsbD_append, BitVec.getLsbD_extractLsb']
  interval_cases i <;> simp

@[simp] theorem instField_encXS_20 (opcode : BitVec 7) (f3 : BitVec 3) (imm : BitVec 10) (sel : BitVec 2) (rs1 rs2 : BitVec 5) :
    instField (encXS opcode f3 imm sel rs1 rs2) 20 5 = rs2 := by
  apply BitVec.eq_of_getLsbD_eq
  intro i hi
  simp only [instField, encXS, BitVec.getLsbD_append, BitVec.getLsbD_extractLsb']
  interval_cases i <;> simp

@[simp] theorem instField_encXS_15 (opcode : BitVec 7) (f3 : BitVec 3) (imm : BitVec 10) (sel : BitVec 2) (rs1 rs2 : BitVec 5) :
    instField (encXS opcode f3 imm sel rs1 rs2) 15 5 = rs1 := by
  apply BitVec.eq_of_getLsbD_eq
  intro i hi
  simp only [instField, encXS, BitVec.getLsbD_append, BitVec.getLsbD_extractLsb']
  interval_cases i <;> simp

@[simp] theorem instField_encXS_12 (opcode : BitVec 7) (f3 : BitVec 3) (imm : BitVec 10) (sel : BitVec 2) (rs1 rs2 : BitVec 5) :
    instField (encXS opcode f3 imm sel rs1 rs2) 12 3 = f3 := by
  apply BitVec.eq_of_getLsbD_eq
  intro i hi
  simp only [instField, encXS, BitVec.getLsbD_append, BitVec.getLsbD_extractLsb']
  interval_cases i <;> simp

@[simp] theorem instField_encXS_9 (opcode : BitVec 7) (f3 : BitVec 3) (imm : BitVec 10) (sel : BitVec 2) (rs1 rs2 : BitVec 5) :
    instField (encXS opcode f3 imm sel rs1 rs2) 9 3 = imm.extractLsb' 0 3 := by
  apply BitVec.eq_of_getLsbD_eq
  intro i hi
  simp only [instField, encXS, BitVec.getLsbD_append, BitVec.getLsbD_extractLsb']
  interval_cases i <;> simp

@[simp] theorem instField_encXS_7 (opcode : BitVec 7) (f3 : BitVec 3) (imm : BitVec 10) (sel : BitVec 2) (rs1 rs2 : BitVec 5) :
    instField (encXS opcode f3 imm sel rs1 rs2) 7 2 = sel := by
  apply BitVec.eq_of_getLsbD_eq
  intro i hi
  simp only [instField, encXS, BitVec.getLsbD_append, BitVec.getLsbD_extractLsb']
  interval_cases i <;> simp

@[simp] theorem instField_encXS_0 (opcode : BitVec 7) (f3 : BitVec 3) (imm : BitVec 10) (sel : BitVec 2) (rs1 rs2 : BitVec 5) :
    instField (encXS opcode f3 imm sel rs1 rs2) 0 7 = opcode := by
  apply BitVec.eq_of_getLsbD_eq
  intro i hi
  simp only [instField, encXS, BitVec.getLsbD_append, BitVec.getLsbD_extractLsb']
  interval_cases i <;> simp

/-! ## A word is the concatenation of its slices. -/

/-- The slices of format XR (30_encoding.md R85). -/
theorem parts_XR (w : Word) :
    instField w 27 5 ++ instField w 25 2 ++ instField w 20 5 ++ instField w 15 5 ++ instField w 12 3 ++ instField w 7 5 ++ instField w 0 7 = w := by
  apply BitVec.eq_of_getLsbD_eq
  intro i hi
  simp only [instField, BitVec.getLsbD_append, BitVec.getLsbD_extractLsb']
  interval_cases i <;> simp

/-- The slices of format XT (30_encoding.md R86). -/
theorem parts_XT (w : Word) :
    instField w 28 4 ++ instField w 26 2 ++ instField w 24 2 ++ instField w 22 2 ++ instField w 20 2 ++ instField w 15 5 ++ instField w 12 3 ++ instField w 7 5 ++ instField w 0 7 = w := by
  apply BitVec.eq_of_getLsbD_eq
  intro i hi
  simp only [instField, BitVec.getLsbD_append, BitVec.getLsbD_extractLsb']
  interval_cases i <;> simp

/-- The slices of format XL (30_encoding.md R87). -/
theorem parts_XL (w : Word) :
    instField w 22 10 ++ instField w 20 2 ++ instField w 15 5 ++ instField w 12 3 ++ instField w 7 5 ++ instField w 0 7 = w := by
  apply BitVec.eq_of_getLsbD_eq
  intro i hi
  simp only [instField, BitVec.getLsbD_append, BitVec.getLsbD_extractLsb']
  interval_cases i <;> simp

/-- The slices of format XS (30_encoding.md R88). -/
theorem parts_XS (w : Word) :
    instField w 25 7 ++ instField w 20 5 ++ instField w 15 5 ++ instField w 12 3 ++ instField w 9 3 ++ instField w 7 2 ++ instField w 0 7 = w := by
  apply BitVec.eq_of_getLsbD_eq
  intro i hi
  simp only [instField, BitVec.getLsbD_append, BitVec.getLsbD_extractLsb']
  interval_cases i <;> simp

/-- The two parts of a store's immediate are the immediate. -/
theorem storeImm_parts (imm : BitVec 10) : imm.extractLsb' 3 7 ++ imm.extractLsb' 0 3 = imm := by
  apply BitVec.eq_of_getLsbD_eq
  intro i hi
  simp only [BitVec.getLsbD_append, BitVec.getLsbD_extractLsb']
  interval_cases i <;> simp

/-- The parts of a store's immediate, back from the whole. -/
theorem storeImm_high (a : BitVec 7) (b : BitVec 3) : (a ++ b : BitVec 10).extractLsb' 3 7 = a := by
  apply BitVec.eq_of_getLsbD_eq
  intro i hi
  simp only [BitVec.getLsbD_append, BitVec.getLsbD_extractLsb']
  interval_cases i <;> simp

theorem storeImm_low (a : BitVec 7) (b : BitVec 3) : (a ++ b : BitVec 10).extractLsb' 0 3 = b := by
  apply BitVec.eq_of_getLsbD_eq
  intro i hi
  simp only [BitVec.getLsbD_append, BitVec.getLsbD_extractLsb']
  interval_cases i <;> simp

/-- An immediate that fits is the value of its ten bits. -/
theorem toInt_ofInt_of_fits (imm : Int) (h : immFits Config.immW imm = true) :
    (BitVec.ofInt 10 imm).toInt = imm := by
  simp only [immFits, Config.immW, Bool.and_eq_true, decide_eq_true_eq] at h
  rw [BitVec.toInt_ofInt]
  apply Int.bmod_eq_of_le <;> norm_num at h ⊢ <;> omega

/-- The immediate of a decoded load fits. -/
theorem immFits_toInt (v : BitVec 10) : immFits Config.immW v.toInt = true := by
  have h1 := v.two_mul_toInt_lt
  have h2 := v.le_two_mul_toInt
  simp only [immFits, Config.immW, Bool.and_eq_true, decide_eq_true_eq]
  norm_num at h1 h2 ⊢
  omega

/-- A load or store whose immediate fits has its word. -/
theorem ifFits_of_fits {imm : Int} (h : immFits Config.immW imm = true) (w : Word) : ifFits imm w = some w := if_pos h

/-- A load or store has no other word, and none where its immediate does not fit (30_encoding.md R102). -/
theorem ifFits_eq_some {imm : Int} {w v : Word} : ifFits imm w = some v ↔ immFits Config.immW imm = true ∧ w = v := by
  simp [ifFits]

/-! ## What a word of the ISE opcode space stands for: a term, or that word as reserved (30_encoding.md R100). -/

/-- The answer is a term, or `inst` itself as reserved. -/
def AnswersIse (inst : Word) (d : Decoded) : Prop := (∃ i, d = .instr i) ∨ ∃ why, d = .reserved inst why

theorem answersIse_instr (inst : Word) (i : Instr) : AnswersIse inst (.instr i) := .inl ⟨i, rfl⟩

theorem answersIse_reserved (inst : Word) (why : Reserved) : AnswersIse inst (.reserved inst why) := .inr ⟨why, rfl⟩

theorem answersIse_ite {inst : Word} {p : Prop} [Decidable p] {d e : Decoded} (hd : AnswersIse inst d)
    (he : AnswersIse inst e) : AnswersIse inst (if p then d else e) := by
  split
  · exact hd
  · exact he

theorem decodeXR_answers (inst : Word) : AnswersIse inst (decodeXR inst) := by
  simp only [decodeXR, widthZero, rs2Zero]
  repeat' apply answersIse_ite
  all_goals first | exact answersIse_instr _ _ | exact answersIse_reserved _ _

theorem decodeIse_answers (inst : Word) : AnswersIse inst (decodeIse inst) := by
  simp only [decodeIse, decodeXT, halfSel, wordSel]
  repeat' apply answersIse_ite
  all_goals first | exact decodeXR_answers _ | exact answersIse_instr _ _ | exact answersIse_reserved _ _

/-- A word with the prefix of the ISE is no host word. -/
theorem decodeWith_of_ise {opcode : BitVec 7} {w : Word} (h : instField w 0 7 = opcode) :
    AnswersIse w (decodeWith opcode w) := by
  rw [decodeWith, if_pos h]
  exact decodeIse_answers w

/-- A word with another prefix is the host's. -/
theorem decodeWith_of_host {opcode : BitVec 7} {w : Word} (h : instField w 0 7 ≠ opcode) :
    decodeWith opcode w = .host w := if_neg h

end Sys2Proof
end

