-- ==== Sys2Proof/Laws/Packed.lean ====
section
/-! SUPPORT. The packed fields: each field of a packed result is the function of the same-numbered fields. -/

namespace Sys2Proof.Machine

/-- The bits of joined fields. -/
theorem getLsbD_joinFields (W : Nat) (f : Nat → BitVec W) (n i j : Nat) (hi : i < n) (hj : j < W)
    (hn : W * n ≤ 32) : (joinFields W f n).getLsbD (W * i + j) = (f i).getLsbD j := by
  have key : ∀ m, m ≤ i → (joinFields W f m).getLsbD (W * i + j) = false := by
    intro m hm
    induction m with
    | zero => simp [joinFields]
    | succ m ih =>
      have h1 : W * (m + 1) ≤ W * i := Nat.mul_le_mul_left W hm
      have h2 : W * (m + 1) = W * m + W := Nat.mul_succ W m
      have h3 : W ≤ W * i + j - W * m := by omega
      simp [joinFields, ih (by omega), BitVec.getLsbD_of_ge (f m) _ h3]
  have hb : W * i + j < 32 := by
    have h1 : W * (i + 1) ≤ W * n := Nat.mul_le_mul_left W hi
    have h2 : W * (i + 1) = W * i + W := Nat.mul_succ W i
    omega
  induction n with
  | zero => omega
  | succ n ih =>
    have hs : W * (n + 1) = W * n + W := Nat.mul_succ W n
    by_cases h : i = n
    · subst h
      have h1 : ¬ W * i + j < W * i := by omega
      have h2 : W * i + j - W * i = j := by omega
      simp only [joinFields, BitVec.getLsbD_or, key i (Nat.le_refl i), BitVec.getLsbD_shiftLeft,
        BitVec.getLsbD_setWidth, h1, h2, hb, Bool.false_or, decide_true, decide_false, Bool.not_false, Bool.true_and]
      simp
      omega
    · have h1 : W * (i + 1) ≤ W * n := Nat.mul_le_mul_left W (by omega)
      have h2 : W * (i + 1) = W * i + W := Nat.mul_succ W i
      have h3 : W * i + j < W * n := by omega
      simp [joinFields, ih (by omega) (by omega), h3]

theorem field_joinFields (p : Packing) (f : Nat → BitVec (fieldWidth p)) (i : Nat) (hi : i < fieldCount p) :
    field p (joinFields (fieldWidth p) f (fieldCount p)) i = f i := by
  apply BitVec.eq_of_getLsbD_eq
  intro j hj
  have hn : fieldWidth p * fieldCount p ≤ 32 := by cases p <;> decide
  rw [field, BitVec.getLsbD_extractLsb', getLsbD_joinFields _ _ _ _ _ hi hj hn]
  simp [hj]

/-- The defining property of `packed(f, N, a, b)` (41_packed_arithmetic.md R131). -/
theorem field_packed2 (p : Packing) (f : BitVec (fieldWidth p) → BitVec (fieldWidth p) → BitVec (fieldWidth p))
    (a b : Word) (i : Nat) (hi : i < fieldCount p) :
    field p (packed2 p f a b) i = f (field p a i) (field p b i) :=
  field_joinFields p _ i hi

theorem field_packed1 (p : Packing) (f : BitVec (fieldWidth p) → BitVec (fieldWidth p)) (a : Word) (i : Nat)
    (hi : i < fieldCount p) : field p (packed1 p f a) i = f (field p a i) :=
  field_joinFields p _ i hi

/-- A field as a number: the quotient and remainder that its slice is. -/
theorem field_toNat (p : Packing) (v : Word) (i : Nat) :
    (field p v i).toNat = v.toNat / 2 ^ (fieldWidth p * i) % 2 ^ fieldWidth p := by
  simp [field, BitVec.extractLsb'_toNat, Nat.shiftRight_eq_div_pow]

/-- Two words with the same fields are the same word. -/
theorem eq_of_field_eq (p : Packing) {v w : Word} (h : ∀ i < fieldCount p, field p v i = field p w i) : v = w := by
  apply BitVec.eq_of_getLsbD_eq
  intro i hi
  have hW : 0 < fieldWidth p := by cases p <;> decide
  have hi' : i / fieldWidth p < fieldCount p := by
    rw [Nat.div_lt_iff_lt_mul hW]
    have : fieldCount p * fieldWidth p = 32 := by cases p <;> rfl
    omega
  have hb := congrArg (fun x => x.getLsbD (i % fieldWidth p)) (h _ hi')
  simpa [field, Nat.mod_lt i hW, Nat.div_add_mod] using hb

end Sys2Proof.Machine
end

