-- ==== Sys2Proof/Laws/Step.lean ====
section
/-! SUPPORT. Everything a fetch, a host step and a step can answer, and what each shared operation does to the
invariant. -/

namespace Sys2Proof.Machine

/-- A fetch that gives a word was admitted, met no stored byte, and noted its four bytes. -/
theorem fetch_word {s t : State} {w : Word} (h : fetch s = .word w t) :
    admits s.platform .read s.pc 4 = true ∧ s.stored.meets (span s.pc 4) = false ∧ w = memRead32 s s.pc ∧
      t = s.noteFetch := by
  unfold fetch at h
  split at h
  · cases h
  · split at h
    · cases h
    · cases h
      rename_i h1 h2
      exact ⟨by simpa using h1, by simpa using h2, rfl, rfl⟩

theorem fetch_of_ready {s : State} (h1 : admits s.platform .read s.pc 4 = true)
    (h2 : s.stored.meets (span s.pc 4) = false) : fetch s = .word (memRead32 s s.pc) s.noteFetch := by
  simp [fetch, h1, h2]

/-- A host step that completes stores to no fetched byte. -/
theorem runHost_next {w : Word} {s t : State} (h : runHost w s = .next t) :
    ∃ pc x c ws, s.fetched.meets (storeAddrs ws) = false ∧ t = s.afterHost pc x c ws := by
  unfold runHost applyHost at h
  split at h
  · rename_i pc x c ws _
    split at h
    · cases h
    · rename_i hm
      cases h
      exact ⟨pc, x, c, ws, by simpa using hm, rfl⟩
  · cases h
  · cases h

/-- `step` is the step of the default encoding (00_scope.md R8). -/
theorem step_eq (s : State) : step s = stepWith defaultEncoding s := rfl

/-- A step whose fetch gives a word does what that word stands for under the encoding. -/
theorem stepWith_of_fetch (xc : Encoding) {s s1 : State} {w : Word} (h : fetch s = .word w s1) :
    stepWith xc s = match xc.decode w with
      | .instr i => atWordBoundary s1 (exec i s1)
      | .reserved v _ => atWordBoundary s1 (runReserved v s1)
      | .host v => runHost v s1 := by
  cases hd : xc.decode w <;> simp [stepWith, h, hd]

/-- `stepWith_of_fetch` at the default encoding. -/
theorem step_of_fetch {s s1 : State} {w : Word} (h : fetch s = .word w s1) :
    step s = match decode w with
      | .instr i => atWordBoundary s1 (exec i s1)
      | .reserved v _ => atWordBoundary s1 (runReserved v s1)
      | .host v => runHost v s1 :=
  stepWith_of_fetch defaultEncoding h

/-- A step whose fetch is refused is refused. -/
theorem step_of_refused {s : State} {r : Refusal} (h : fetch s = .refused r) : step s = .refused r := by
  simp only [step_eq, stepWith, h]

/-- Under any encoding, a step that answers a next state ran an ISE instruction at a multiple of 4, or the host step. -/
theorem stepWith_next {xc : Encoding} {s t : State} (h : stepWith xc s = .next t) :
    admits s.platform .read s.pc 4 = true ∧ s.stored.meets (span s.pc 4) = false ∧
    ((∃ i, xc.decode (memRead32 s s.pc) = .instr i ∧ aligned s.pc 4 = true ∧ exec i s.noteFetch = .next t) ∨
     (∃ w, xc.decode (memRead32 s s.pc) = .host w ∧ runHost w s.noteFetch = .next t)) := by
  unfold stepWith at h
  split at h
  · cases h
  · rename_i w s1 hf
    obtain ⟨h1, h2, rfl, rfl⟩ := fetch_word hf
    refine ⟨h1, h2, ?_⟩
    split at h
    · rename_i i hd
      unfold atWordBoundary at h
      split at h
      · rename_i ha
        exact .inl ⟨i, hd, ha, h⟩
      · cases h
    · unfold atWordBoundary at h
      split at h <;> cases h
    · rename_i w hd
      exact .inr ⟨w, hd, h⟩

theorem step_next {s t : State} (h : step s = .next t) :
    admits s.platform .read s.pc 4 = true ∧ s.stored.meets (span s.pc 4) = false ∧
    ((∃ i, decode (memRead32 s s.pc) = .instr i ∧ aligned s.pc 4 = true ∧ exec i s.noteFetch = .next t) ∨
     (∃ w, decode (memRead32 s s.pc) = .host w ∧ runHost w s.noteFetch = .next t)) :=
  stepWith_next (xc := defaultEncoding) h

/-! ## The invariant -/

theorem AddrSet.listedIn_iff (t : AddrSet) (m : Memory) :
    t.listedIn m = true ↔ ∀ a ∈ t, (m.byte? a).isSome = true := by
  simp [AddrSet.listedIn]

theorem AddrSet.disjoint_iff (t u : AddrSet) : t.disjoint u = true ↔ ∀ a ∈ t, a ∉ u := by
  simp [AddrSet.disjoint]

/-- The invariant's six parts. -/
theorem State.inv_iff (s : State) :
    s.inv = true ↔ s.x[0] = 0 ∧ s.mem.wf = true ∧ s.fetched.wf = true ∧ s.stored.wf = true ∧
      (∀ a ∈ s.stored, (s.mem.byte? a).isSome = true) ∧ (∀ a ∈ s.fetched, a ∉ s.stored) := by
  simp [State.inv, AddrSet.listedIn_iff, AddrSet.disjoint_iff, and_assoc]

/-- An update that leaves the slot of `x[0]`, memory and the two sets alone keeps the invariant. -/
theorem inv_of_same {s t : State} (hx : t.x[0] = s.x[0]) (hm : t.mem = s.mem) (hf : t.fetched = s.fetched)
    (hs : t.stored = s.stored) (h : s.inv = true) : t.inv = true := by
  rw [State.inv_iff] at h ⊢
  rw [hx, hm, hf, hs]
  exact h

theorem inv_setGpr {s : State} (i : GprNum) (v : Word) (h : s.inv = true) : (s.setGpr i v).inv = true := by
  refine inv_of_same ?_ (by simp) (by simp) (by simp) h
  unfold State.setGpr
  split
  · rfl
  · rename_i hi
    have : i.val ≠ 0 := fun hh => hi (Fin.ext hh)
    simp [this]

theorem inv_memWrite {s : State} {addr : Word} {bs : List Byte} (hm : s.fetched.meets (span addr bs.length) = false)
    (h : s.inv = true) : (memWrite addr bs s).inv = true := by
  rw [State.inv_iff] at h ⊢
  obtain ⟨h1, h2, h3, h4, h5, h6⟩ := h
  refine ⟨h1, Memory.wf_writeBytes _ _ _ h2, h3, AddrSet.wf_insertAll _ _ h4, ?_, ?_⟩
  · intro a ha
    simp only [memWrite_stored, AddrSet.mem_insertAll] at ha
    exact isSome_writeBytes _ _ _ _ (ha.imp (h5 a) id)
  · intro a ha hs
    simp only [memWrite_stored, AddrSet.mem_insertAll] at hs
    rcases hs with hs | ⟨b, hb, rfl⟩
    · exact h6 a ha hs
    · exact Bool.eq_false_iff.mp hm ((AddrSet.meets_iff _ _).mpr ⟨b, hb, ha⟩)

theorem inv_noteFetch {s : State} (hm : s.stored.meets (span s.pc 4) = false) (h : s.inv = true) :
    s.noteFetch.inv = true := by
  rw [State.inv_iff] at h ⊢
  obtain ⟨h1, h2, h3, h4, h5, h6⟩ := h
  refine ⟨h1, h2, AddrSet.wf_insertAll _ _ h3, h4, h5, ?_⟩
  intro a ha hs
  simp only [noteFetch_fetched, AddrSet.mem_insertAll] at ha
  rcases ha with ha | ⟨b, hb, rfl⟩
  · exact h6 a ha hs
  · exact Bool.eq_false_iff.mp hm ((AddrSet.meets_iff _ _).mpr ⟨b, hb, hs⟩)

theorem inv_afterHost {s : State} {pc : Word} {x : Vector Word 32} {c : Vector Word 16} {ws : List (Word × Byte)}
    (hm : s.fetched.meets (storeAddrs ws) = false) (h : s.inv = true) : (s.afterHost pc x c ws).inv = true := by
  rw [State.inv_iff] at h ⊢
  obtain ⟨_, h2, h3, h4, h5, h6⟩ := h
  refine ⟨by simp, Memory.wf_writeAll _ _ h2, h3, AddrSet.wf_insertAll _ _ h4, ?_, ?_⟩
  · intro a ha
    simp only [afterHost_stored, AddrSet.mem_insertAll] at ha
    exact isSome_writeAll _ _ _ (ha.imp (h5 a) id)
  · intro a ha hs
    simp only [afterHost_stored, AddrSet.mem_insertAll] at hs
    rcases hs with hs | ⟨b, hb, rfl⟩
    · exact h6 a ha hs
    · exact Bool.eq_false_iff.mp hm ((AddrSet.meets_iff _ _).mpr ⟨b, hb, ha⟩)

end Sys2Proof.Machine
end

