-- ==== Sys2Proof/Laws/Exec.lean ====
section
/-! SUPPORT. Everything an instruction can do when it completes, and everything it can raise, said once. -/

namespace Sys2Proof.Machine

/-- The instructions that write a whole view, and its operand address (the table of 10_state.md R32). -/
def viewWritten : Instr → Option CprAddr
  | .addP1 rd _ _ | .addP2 rd _ _ | .addP4 rd _ _ | .addP8 rd _ _ => some rd
  | .subP1 rd _ _ | .subP2 rd _ _ | .subP4 rd _ _ | .subP8 rd _ _ => some rd
  | .mulP1 rd _ _ | .mulP2 rd _ _ | .mulP4 rd _ _ | .mulP8 rd _ _ => some rd
  | .sllP1 rd _ _ | .sllP2 rd _ _ | .sllP4 rd _ _ | .sllP8 rd _ _ => some rd
  | .srlP1 rd _ _ | .srlP2 rd _ _ | .srlP4 rd _ _ | .srlP8 rd _ _ => some rd
  | .rotP1 rd _ _ | .rotP2 rd _ _ | .rotP4 rd _ _ | .rotP8 rd _ _ => some rd
  | .xort rd _ _ | .andt rd _ _ | .ort rd _ _ => some rd
  | .twid rd _ _ _ _ _ => some rd
  | .mvgpr cpr _ => some cpr
  | .lwCr rd _ _ => some rd
  | _ => none

/-- The bytes a store instruction stores and its effective address. -/
def bytesStored (s : State) : Instr → Option (Word × List Byte)
  | .sbCr rs2 b imm rs1 => some (effAddr rs1 imm s, [s.cprByte rs2 b])
  | .shCr rs2 h imm rs1 => some (effAddr rs1 imm s, [s.cprByte rs2 (halfLo h), s.cprByte rs2 (halfHi h)])
  | .swCr rs2 imm rs1 =>
    some (effAddr rs1 imm s, [s.cprByte rs2 0, s.cprByte rs2 1, s.cprByte rs2 2, s.cprByte rs2 3])
  | _ => none

/-- What an instruction does to the state when it completes, before `pc` advances. -/
inductive Effect (s : State) : Instr → State → Prop where
  | gpr (i : GprNum) (a : CprAddr) : Effect s (.mvcop i a) (s.setGpr i (s.cpr a))
  | view {i : Instr} {rd : CprAddr} (v : Word) (h : viewWritten i = some rd) : Effect s i (s.setCpr rd v)
  | drawn {i : Instr} {rd : CprAddr} (h : viewWritten i = some rd) : Effect s i (s.noteDraw.setCpr rd s.drawn)
  | byte (rd : CprAddr) (b : ByteIdx) (imm : Int) (rs1 : GprNum) (v : Byte) :
      Effect s (.lbuCr rd b imm rs1) (s.setCprByte rd b v)
  | half (rd : CprAddr) (h : Fin 2) (imm : Int) (rs1 : GprNum) (v : BitVec 16) :
      Effect s (.lhuCr rd h imm rs1) (s.setCprHalf rd h v)
  | store {i : Instr} {addr : Word} {bs : List Byte} (h : bytesStored s i = some (addr, bs))
      (hf : s.fetched.meets (span addr bs.length) = false) : Effect s i (memWrite addr bs s)

theorem packedArith_next {p : Packing} {f : BitVec (fieldWidth p) → BitVec (fieldWidth p) → BitVec (fieldWidth p)}
    {rd rs1 rs2 : CprAddr} {s t : State} {i : Instr} (hi : viewWritten i = some rd)
    (h : packedArith p f rd rs1 rs2 s = .next t) : ∃ u, Effect s i u ∧ t = u.advance := by
  cases h
  exact ⟨_, .view _ hi, rfl⟩

theorem packedShift_next {p : Packing} {f : Nat → BitVec (fieldWidth p) → BitVec (fieldWidth p)} {rd rs1 : CprAddr}
    {shamt : Fin 32} {s t : State} {i : Instr} (hi : viewWritten i = some rd)
    (h : packedShift p f rd rs1 shamt s = .next t) : ∃ u, Effect s i u ∧ t = u.advance := by
  unfold packedShift at h
  split at h <;> cases h
  · exact ⟨_, .view _ hi, rfl⟩
  · exact ⟨_, .drawn hi, rfl⟩

theorem storeForm_next {s t : State} {i : Instr} {addr : Word} {bs : List Byte} (hi : bytesStored s i = some (addr, bs))
    (h : store addr bs s = .next t) : ∃ u, Effect s i u ∧ t = u.advance := by
  obtain ⟨_, hf, rfl⟩ := store_next h
  exact ⟨_, .store hi hf, rfl⟩

/-- Everything an instruction can do when it completes. -/
theorem exec_next {i : Instr} {s t : State} (h : exec i s = .next t) : ∃ u, Effect s i u ∧ t = u.advance := by
  cases i
  case mvcop g a => cases h; exact ⟨_, .gpr g a, rfl⟩
  case mvgpr a g => cases h; exact ⟨_, .view (rd := a) _ rfl, rfl⟩
  case xort rd rs1 rs2 => cases h; exact ⟨_, .view (rd := rd) _ rfl, rfl⟩
  case andt rd rs1 rs2 => cases h; exact ⟨_, .view (rd := rd) _ rfl, rfl⟩
  case ort rd rs1 rs2 => cases h; exact ⟨_, .view (rd := rd) _ rfl, rfl⟩
  case twid rd rs1 b0 b1 b2 b3 => cases h; exact ⟨_, .view (rd := rd) _ rfl, rfl⟩
  case lbuCr rd b imm rs1 => exact ⟨_, .byte rd b imm rs1 _, (load_next h).2⟩
  case lhuCr rd b imm rs1 => exact ⟨_, .half rd b imm rs1 _, (load_next h).2⟩
  case lwCr rd imm rs1 => exact ⟨_, .view (rd := rd) _ rfl, (load_next h).2⟩
  case sbCr rs2 b imm rs1 => exact storeForm_next rfl h
  case shCr rs2 b imm rs1 => exact storeForm_next rfl h
  case swCr rs2 imm rs1 => exact storeForm_next rfl h
  case addP1 | addP2 | addP4 | addP8 | subP1 | subP2 | subP4 | subP8 | mulP1 | mulP2 | mulP4 | mulP8 =>
    exact packedArith_next rfl h
  case sllP1 | sllP2 | sllP4 | sllP8 | srlP1 | srlP2 | srlP4 | srlP8 | rotP1 | rotP2 | rotP4 | rotP8 =>
    exact packedShift_next rfl h
  all_goals cases h

/-- The effect itself leaves `pc` to `State.advance` (10_state.md R34). -/
theorem Effect.pc {s u : State} {i : Instr} (h : Effect s i u) : u.pc = s.pc := by
  cases h <;> simp

theorem Effect.platform {s u : State} {i : Instr} (h : Effect s i u) : u.platform = s.platform := by
  cases h <;> simp

theorem Effect.fetched {s u : State} {i : Instr} (h : Effect s i u) : u.fetched = s.fetched := by
  cases h <;> simp

theorem Effect.draws_le {s u : State} {i : Instr} (h : Effect s i u) : s.draws ≤ u.draws := by
  cases h <;> simp

theorem packedShift_fault {p : Packing} {f : Nat → BitVec (fieldWidth p) → BitVec (fieldWidth p)} {rd rs1 : CprAddr}
    {shamt : Fin 32} {s : State} {e : Fault} : packedShift p f rd rs1 shamt s ≠ .fault e := by
  unfold packedShift drawDest retire
  split <;> simp

/-- The invariant's fields survive the effect of an instruction. -/
theorem Effect.inv {s u : State} {i : Instr} (h : Effect s i u) (hs : s.inv = true) : u.inv = true := by
  cases h with
  | gpr i a => exact inv_setGpr i _ hs
  | view v h => exact inv_of_same (by simp) (by simp) (by simp) (by simp) hs
  | drawn h => exact inv_of_same (by simp) (by simp) (by simp) (by simp) hs
  | byte rd b imm rs1 v => exact inv_of_same (by rfl) (by rfl) (by rfl) (by rfl) hs
  | half rd h imm rs1 v => exact inv_of_same (by simp) (by simp) (by simp) (by simp) hs
  | store h hf => exact inv_memWrite hf hs

/-- A byte of memory that an effect changes is among the bytes stored to (20_memory.md R66). -/
theorem Effect.byteAt {s u : State} {i : Instr} (h : Effect s i u) :
    (∀ b ∈ s.stored, b ∈ u.stored) ∧ ∀ a, a.toNat ∉ u.stored → u.byteAt a = s.byteAt a := by
  cases h with
  | store h hf =>
    refine ⟨fun b hb => ?_, fun a ha => ?_⟩
    · rw [memWrite_stored, AddrSet.mem_insertAll]
      exact .inl hb
    · rw [memWrite_stored, AddrSet.mem_insertAll] at ha
      exact byteAt_memWrite_other _ _ _ _ (fun hc => ha (.inr ⟨a, hc, rfl⟩))
  | _ => exact ⟨fun b hb => by simpa [State.setCprByte] using hb, fun a _ => byteAt_congr (by simp [State.setCprByte]) a⟩

/-- A byte of memory that a step under any encoding changes is among the bytes stored to (20_memory.md R66). -/
theorem stepWith_byteAt {xc : Encoding} {s t : State} (h : stepWith xc s = .next t) :
    (∀ b ∈ s.stored, b ∈ t.stored) ∧ ∀ a, a.toNat ∉ t.stored → t.byteAt a = s.byteAt a := by
  obtain ⟨_, _, ⟨i, _, _, h⟩ | ⟨w, _, h⟩⟩ := stepWith_next h
  · obtain ⟨u, hu, rfl⟩ := exec_next h
    exact ⟨hu.byteAt.1, fun a ha => (byteAt_advance u a).trans (hu.byteAt.2 a ha)⟩
  · obtain ⟨pc, x, c, ws, _, rfl⟩ := runHost_next h
    refine ⟨fun b hb => ?_, fun a ha => ?_⟩
    · rw [afterHost_stored, AddrSet.mem_insertAll]
      exact .inl hb
    · rw [afterHost_stored, AddrSet.mem_insertAll] at ha
      have : a ∉ storeAddrs ws := fun hc => ha (.inr ⟨a, hc, rfl⟩)
      simp [State.byteAt, byte?_writeAll_other _ _ _ this]

theorem step_byteAt {s t : State} (h : step s = .next t) :
    (∀ b ∈ s.stored, b ∈ t.stored) ∧ ∀ a, a.toNat ∉ t.stored → t.byteAt a = s.byteAt a :=
  stepWith_byteAt (xc := defaultEncoding) h

end Sys2Proof.Machine
end

