-- ==== Sys2Proof/Laws/PerInstr.lean ====
section
/-! SUPPORT. The family EncodedOpcode of LAWS.json: a statement about each instruction as syntax, and one lemma per
constructor. -/

namespace Sys2Proof.Laws.EncodedOpcode

/-- Exactly the well-formed instructions have an encoding (30_encoding.md R98, R102), and bits 6:0 of an instruction's
encoding are the ISE opcode (30_encoding.md R84). -/
def Statement (i : Instr) : Prop :=
  (i.wellFormed = true ↔ ∃ w, encode i = some w) ∧ ∀ w, encode i = some w → instField w 0 7 = Config.opcode

/-- What the lemmas of the constructors without an immediate share. -/
theorem of_encode {i : Instr} {v : Word} (h : encode i = some v) (hw : i.wellFormed = true)
    (hv : instField v 0 7 = Config.opcode) : Statement i :=
  ⟨⟨fun _ => ⟨v, h⟩, fun _ => hw⟩, fun _ e => Option.some.inj (h.symm.trans e) ▸ hv⟩

/-- What the lemmas of the loads and stores share. -/
theorem of_ifFits {i : Instr} {imm : Int} {v : Word} (h : encode i = ifFits imm v)
    (hw : i.wellFormed = immFits Config.immW imm) (hv : instField v 0 7 = Config.opcode) : Statement i := by
  rw [Statement, h, hw, ifFits]
  split
  · exact ⟨by simp [*], by rintro w ⟨rfl⟩; exact hv⟩
  · exact ⟨by simp [*], by simp⟩

/-- What the lemmas of the named-only constructors share. -/
theorem of_none {i : Instr} (h : encode i = none) (hw : i.wellFormed = false) : Statement i :=
  ⟨by simp [h, hw], by simp [h]⟩

theorem addP1 (rd rs1 rs2 : CprAddr) : Statement (.addP1 rd rs1 rs2) :=
  of_encode rfl rfl (instField_encXR_0 _ _ _ _ _ _)

theorem addP2 (rd rs1 rs2 : CprAddr) : Statement (.addP2 rd rs1 rs2) :=
  of_encode rfl rfl (instField_encXR_0 _ _ _ _ _ _)

theorem addP4 (rd rs1 rs2 : CprAddr) : Statement (.addP4 rd rs1 rs2) :=
  of_encode rfl rfl (instField_encXR_0 _ _ _ _ _ _)

theorem addP8 (rd rs1 rs2 : CprAddr) : Statement (.addP8 rd rs1 rs2) :=
  of_encode rfl rfl (instField_encXR_0 _ _ _ _ _ _)

theorem subP1 (rd rs1 rs2 : CprAddr) : Statement (.subP1 rd rs1 rs2) :=
  of_encode rfl rfl (instField_encXR_0 _ _ _ _ _ _)

theorem subP2 (rd rs1 rs2 : CprAddr) : Statement (.subP2 rd rs1 rs2) :=
  of_encode rfl rfl (instField_encXR_0 _ _ _ _ _ _)

theorem subP4 (rd rs1 rs2 : CprAddr) : Statement (.subP4 rd rs1 rs2) :=
  of_encode rfl rfl (instField_encXR_0 _ _ _ _ _ _)

theorem subP8 (rd rs1 rs2 : CprAddr) : Statement (.subP8 rd rs1 rs2) :=
  of_encode rfl rfl (instField_encXR_0 _ _ _ _ _ _)

theorem mulP1 (rd rs1 rs2 : CprAddr) : Statement (.mulP1 rd rs1 rs2) :=
  of_encode rfl rfl (instField_encXR_0 _ _ _ _ _ _)

theorem mulP2 (rd rs1 rs2 : CprAddr) : Statement (.mulP2 rd rs1 rs2) :=
  of_encode rfl rfl (instField_encXR_0 _ _ _ _ _ _)

theorem mulP4 (rd rs1 rs2 : CprAddr) : Statement (.mulP4 rd rs1 rs2) :=
  of_encode rfl rfl (instField_encXR_0 _ _ _ _ _ _)

theorem mulP8 (rd rs1 rs2 : CprAddr) : Statement (.mulP8 rd rs1 rs2) :=
  of_encode rfl rfl (instField_encXR_0 _ _ _ _ _ _)

theorem sllP1 (rd rs1 : CprAddr) (shamt : Fin 32) : Statement (.sllP1 rd rs1 shamt) :=
  of_encode rfl rfl (instField_encXR_0 _ _ _ _ _ _)

theorem sllP2 (rd rs1 : CprAddr) (shamt : Fin 32) : Statement (.sllP2 rd rs1 shamt) :=
  of_encode rfl rfl (instField_encXR_0 _ _ _ _ _ _)

theorem sllP4 (rd rs1 : CprAddr) (shamt : Fin 32) : Statement (.sllP4 rd rs1 shamt) :=
  of_encode rfl rfl (instField_encXR_0 _ _ _ _ _ _)

theorem sllP8 (rd rs1 : CprAddr) (shamt : Fin 32) : Statement (.sllP8 rd rs1 shamt) :=
  of_encode rfl rfl (instField_encXR_0 _ _ _ _ _ _)

theorem srlP1 (rd rs1 : CprAddr) (shamt : Fin 32) : Statement (.srlP1 rd rs1 shamt) :=
  of_encode rfl rfl (instField_encXR_0 _ _ _ _ _ _)

theorem srlP2 (rd rs1 : CprAddr) (shamt : Fin 32) : Statement (.srlP2 rd rs1 shamt) :=
  of_encode rfl rfl (instField_encXR_0 _ _ _ _ _ _)

theorem srlP4 (rd rs1 : CprAddr) (shamt : Fin 32) : Statement (.srlP4 rd rs1 shamt) :=
  of_encode rfl rfl (instField_encXR_0 _ _ _ _ _ _)

theorem srlP8 (rd rs1 : CprAddr) (shamt : Fin 32) : Statement (.srlP8 rd rs1 shamt) :=
  of_encode rfl rfl (instField_encXR_0 _ _ _ _ _ _)

theorem rotP1 (rd rs1 : CprAddr) (shamt : Fin 32) : Statement (.rotP1 rd rs1 shamt) :=
  of_encode rfl rfl (instField_encXR_0 _ _ _ _ _ _)

theorem rotP2 (rd rs1 : CprAddr) (shamt : Fin 32) : Statement (.rotP2 rd rs1 shamt) :=
  of_encode rfl rfl (instField_encXR_0 _ _ _ _ _ _)

theorem rotP4 (rd rs1 : CprAddr) (shamt : Fin 32) : Statement (.rotP4 rd rs1 shamt) :=
  of_encode rfl rfl (instField_encXR_0 _ _ _ _ _ _)

theorem rotP8 (rd rs1 : CprAddr) (shamt : Fin 32) : Statement (.rotP8 rd rs1 shamt) :=
  of_encode rfl rfl (instField_encXR_0 _ _ _ _ _ _)

theorem xort (rd rs1 rs2 : CprAddr) : Statement (.xort rd rs1 rs2) :=
  of_encode rfl rfl (instField_encXR_0 _ _ _ _ _ _)

theorem andt (rd rs1 rs2 : CprAddr) : Statement (.andt rd rs1 rs2) :=
  of_encode rfl rfl (instField_encXR_0 _ _ _ _ _ _)

theorem ort (rd rs1 rs2 : CprAddr) : Statement (.ort rd rs1 rs2) :=
  of_encode rfl rfl (instField_encXR_0 _ _ _ _ _ _)

theorem mvcop (gpr : GprNum) (cpr : CprAddr) : Statement (.mvcop gpr cpr) :=
  of_encode rfl rfl (instField_encXR_0 _ _ _ _ _ _)

theorem mvgpr (cpr : CprAddr) (gpr : GprNum) : Statement (.mvgpr cpr gpr) :=
  of_encode rfl rfl (instField_encXR_0 _ _ _ _ _ _)

theorem twid (rd rs1 : CprAddr) (b0 b1 b2 b3 : ByteIdx) : Statement (.twid rd rs1 b0 b1 b2 b3) :=
  of_encode rfl rfl (instField_encXT_0 _ _ _ _ _ _ _)

theorem lbuCr (rd : CprAddr) (b : ByteIdx) (imm : Int) (rs1 : GprNum) : Statement (.lbuCr rd b imm rs1) :=
  of_ifFits rfl rfl (instField_encXL_0 _ _ _ _ _ _)

theorem lhuCr (rd : CprAddr) (h : Fin 2) (imm : Int) (rs1 : GprNum) : Statement (.lhuCr rd h imm rs1) :=
  of_ifFits rfl rfl (instField_encXL_0 _ _ _ _ _ _)

theorem lwCr (rd : CprAddr) (imm : Int) (rs1 : GprNum) : Statement (.lwCr rd imm rs1) :=
  of_ifFits rfl rfl (instField_encXL_0 _ _ _ _ _ _)

theorem sbCr (rs2 : CprAddr) (b : ByteIdx) (imm : Int) (rs1 : GprNum) : Statement (.sbCr rs2 b imm rs1) :=
  of_ifFits rfl rfl (instField_encXS_0 _ _ _ _ _ _)

theorem shCr (rs2 : CprAddr) (h : Fin 2) (imm : Int) (rs1 : GprNum) : Statement (.shCr rs2 h imm rs1) :=
  of_ifFits rfl rfl (instField_encXS_0 _ _ _ _ _ _)

theorem swCr (rs2 : CprAddr) (imm : Int) (rs1 : GprNum) : Statement (.swCr rs2 imm rs1) :=
  of_ifFits rfl rfl (instField_encXS_0 _ _ _ _ _ _)

theorem addM : Statement .addM := of_none rfl rfl

theorem subM : Statement .subM := of_none rfl rfl

theorem accM : Statement .accM := of_none rfl rfl

theorem macM : Statement .macM := of_none rfl rfl

theorem sllM : Statement .sllM := of_none rfl rfl

theorem srlM : Statement .srlM := of_none rfl rfl

theorem equM : Statement .equM := of_none rfl rfl

theorem ltuM : Statement .ltuM := of_none rfl rfl

theorem gtuM : Statement .gtuM := of_none rfl rfl

theorem scatter : Statement .scatter := of_none rfl rfl

theorem gather : Statement .gather := of_none rfl rfl

end Sys2Proof.Laws.EncodedOpcode
end

