-- ==== Sys2Proof/Tests/Slice0.lean ====
section
/-! SUPPORT. Small tests. Every expected value is taken from the spec's printed examples (95_test_vectors.md, and the
examples inside the instruction rules), never from the model; and every statement of Obligations.lean that has hypotheses
has a witness here that meets them. -/

namespace Sys2Proof.Tests

open Machine Claims

/-! ## States -/

/-- A platform without misaligned support that rotates left and admits everything, and its opposite. -/
def plF : Platform := ⟨false, .left, .admitsAll⟩
def plT : Platform := ⟨true, .right, .admitsAll⟩

/-- A platform that refuses every access. -/
def plNo : Platform :=
  ⟨false, .left, ⟨RefusedWindow.everySize .read 0 0xFFFFFFFF ++ RefusedWindow.everySize .write 0 0xFFFFFFFF, []⟩⟩

/-- Misaligned accesses are supported; 0x2000 to 0x2FFF is refused at every size, 0x4000 to 0x40FF to words alone, 0x1000 to
0x1007 to bytes and halfwords (word-only registers), and one misaligned word by itself. -/
def plRegion : Platform :=
  ⟨true, .left, ⟨RefusedWindow.everySize .read 0x2000 0x2FFF ++ RefusedWindow.everySize .write 0x2000 0x2FFF ++
    [⟨.read, 4, 0x4000, 0x40FF⟩, ⟨.read, 1, 0x1000, 0x1007⟩, ⟨.read, 2, 0x1000, 0x1007⟩], [⟨.read, 4, 0x1001⟩]⟩⟩

/-- The byte at address 0 is refused. -/
def plZero : Platform := ⟨true, .left, ⟨RefusedWindow.everySize .read 0 0, []⟩⟩

/-- State S41 of 95_test_vectors.md 2.1 (`c4`..`c7` there are in `s47`), with state SM's `x10`, `x11`, memory of 2.6,
and `x7 = 0xDDCCBBAA`. `pc` is 0x100. -/
def s41 (p : Platform) : State where
  x := #v[0, 0, 0, 0, 0, 0, 0, 0xDDCCBBAA, 0, 0, 0x1000, 0x2000, 0, 0, 0, 0, 0, 0, 0, 0, 0, 0, 0, 0, 0, 0, 0, 0, 0, 0, 0, 0]
  c := #v[0x03020100, 0x13121110, 0x23222120, 0x33323130, 0x44434241, 0, 0, 0, 0, 0, 0, 0, 0, 0, 0, 0]
  pc := 0x100
  mem := [(0xFFF, 0x9F), (0x1000, 0xA0), (0x1001, 0xA1), (0x1002, 0xA2), (0x1003, 0xA3), (0x1004, 0xB0), (0x1005, 0xB1),
    (0x1006, 0xB2), (0x1007, 0xB3), (0xFFFFFFFF, 0x77)]
  platform := p
  draws := 7
  fetched := []
  stored := []

/-- The same with `c0 = a`, `c1 = b`. -/
def sAB (p : Platform) (a b : Word) : State := { s41 p with c := ((s41 p).c.set 0 a).set 1 b }

/-- The same with `c4`..`c7` of S41. -/
def s47 : State :=
  { s41 plF with c := (((((s41 plF).c.set 4 0x47464544).set 5 0x57565554).set 6 0x67666564).set 7 0x77767574) }

/-- What the next state of an outcome shows through f. -/
def seen {α : Type} (f : State → α) : Outcome → Option α
  | .next t => some (f t)
  | _ => none

/-- The stored word n after. -/
def cAt (n : CprNum) (o : Outcome) : Option Word := seen (fun t => t.c[n]) o

/-- `c0`..`c3` after. -/
def c0123 (o : Outcome) : Option (List Word) := seen (fun t => [t.c[0], t.c[1], t.c[2], t.c[3]]) o

/-- n bytes of memory from `a` after. -/
def bytes (a : Word) (n : Nat) (o : Outcome) : Option (List Byte) := seen (fun t => (span a n).map t.byteAt) o

/-- The trap record of an outcome. -/
def trapOf : Outcome → Option (Cause × Word × Word)
  | .fault (.trap c v e _) => some (c, v, e)
  | _ => none

/-- The refusal of an outcome. -/
def refusalOf : Outcome → Option Refusal
  | .refused r => some r
  | _ => none

/-! ## Well-formedness: an ill-formed term for each check -/

/-- 30_encoding.md R90: offsets go from -512 to 511. -/
theorem test_wellFormed_imm_too_big :
    (Instr.lwCr 0 512 10).wellFormed = false ∧ (Instr.lbuCr 0 0 512 10).wellFormed = false ∧
    (Instr.lhuCr 0 0 512 10).wellFormed = false ∧ (Instr.sbCr 0 0 512 10).wellFormed = false ∧
    (Instr.shCr 0 0 512 10).wellFormed = false ∧ (Instr.swCr 0 512 10).wellFormed = false := by decide

theorem test_wellFormed_imm_too_small :
    (Instr.lwCr 0 (-513) 10).wellFormed = false ∧ (Instr.swCr 0 (-513) 10).wellFormed = false := by decide

theorem test_wellFormed_imm_bounds :
    (Instr.lwCr 0 511 10).wellFormed = true ∧ (Instr.swCr 0 (-512) 10).wellFormed = true := by decide

/-- 30_encoding.md R98: no operands, no encoding. -/
theorem test_wellFormed_named_only :
    ∀ i ∈ [Instr.addM, .subM, .accM, .macM, .sllM, .srlM, .equM, .ltuM, .gtuM, .scatter, .gather],
    i.wellFormed = false := by decide

/-! ## Decoding: every constructor from a word the spec prints (95_test_vectors.md Part 2) -/

theorem test_decode_add :
    decode 0x0010012B = .instr (.addP1 2 0 1) ∧
    decode 0x0210012B = .instr (.addP2 2 0 1) ∧
    decode 0x0410012B = .instr (.addP4 2 0 1) ∧
    decode 0x0610012B = .instr (.addP8 2 0 1) := by decide

theorem test_decode_sub :
    decode 0x0810012B = .instr (.subP1 2 0 1) ∧
    decode 0x0A10012B = .instr (.subP2 2 0 1) ∧
    decode 0x0C10012B = .instr (.subP4 2 0 1) ∧
    decode 0x0E10012B = .instr (.subP8 2 0 1) := by decide

theorem test_decode_mul :
    decode 0x1010012B = .instr (.mulP1 2 0 1) ∧
    decode 0x1210012B = .instr (.mulP2 2 0 1) ∧
    decode 0x1410012B = .instr (.mulP4 2 0 1) ∧
    decode 0x1610012B = .instr (.mulP8 2 0 1) := by decide

theorem test_decode_sll :
    decode 0x19F0012B = .instr (.sllP1 2 0 31) ∧
    decode 0x1AF0012B = .instr (.sllP2 2 0 15) ∧
    decode 0x1C70012B = .instr (.sllP4 2 0 7) ∧
    decode 0x1FF0012B = .instr (.sllP8 2 0 31) := by decide

theorem test_decode_srl :
    decode 0x21F0012B = .instr (.srlP1 2 0 31) ∧
    decode 0x22F0012B = .instr (.srlP2 2 0 15) ∧
    decode 0x2470012B = .instr (.srlP4 2 0 7) ∧
    decode 0x27F0012B = .instr (.srlP8 2 0 31) := by decide

theorem test_decode_rot :
    decode 0x29F0012B = .instr (.rotP1 2 0 31) ∧
    decode 0x2AF0012B = .instr (.rotP2 2 0 15) ∧
    decode 0x2C70012B = .instr (.rotP4 2 0 7) ∧
    decode 0x2FF0012B = .instr (.rotP8 2 0 31) := by decide

theorem test_decode_bitwise :
    decode 0x4010082B = .instr (.xort 16 0 1) ∧
    decode 0x4810012B = .instr (.andt 2 0 1) ∧
    decode 0x504202AB = .instr (.ort 5 4 4) := by decide

theorem test_decode_moves :
    decode 0x800982AB = .instr (.mvcop 5 19) ∧
    decode 0x880388AB = .instr (.mvgpr 17 7) := by decide

theorem test_decode_twid :
    decode 0x039010AB = .instr (.twid 1 0 1 2 3 0) ∧
    decode 0x01B0182B = .instr (.twid 16 0 3 2 1 0) := by decide

theorem test_decode_loads :
    decode 0xFFC5222B = .instr (.lbuCr 4 0 (-1) 10) ∧
    decode 0x019539AB = .instr (.lhuCr 19 1 6 10) ∧
    decode 0x8005402B = .instr (.lwCr 0 (-512) 10) ∧
    decode 0x7FC5402B = .instr (.lwCr 0 511 10) := by decide

theorem test_decode_stores :
    decode 0x0125D1AB = .instr (.sbCr 18 3 0 11) ∧
    decode 0xFE45ECAB = .instr (.shCr 4 1 (-2) 11) ∧
    decode 0x8005F02B = .instr (.swCr 0 (-512) 11) ∧
    decode 0x7E05FE2B = .instr (.swCr 0 511 11) ∧
    decode 0xFFFFFE2B = .instr (.swCr 31 (-1) 31) := by decide

/-- The decoder answers Illegal(w). -/
def isReserved (w : Word) : Bool := match decode w with | .reserved v _ => v == w | _ => false

/-- 95_test_vectors.md 2.7. -/
theorem test_decode_reserved_xr :
    isReserved 0x3000002B = true ∧ isReserved 0x5800002B = true ∧ isReserved 0x9000002B = true ∧ isReserved 0xF800002B = true ∧
    isReserved 0x4210012B = true ∧ isReserved 0x8201062B = true ∧ isReserved 0x8011062B = true := by decide

theorem test_decode_reserved_other :
    isReserved 0x1000102B = true ∧ isReserved 0x0025302B = true ∧ isReserved 0x0015402B = true ∧ isReserved 0x0005E12B = true ∧
    isReserved 0x0005F0AB = true ∧ isReserved 0xFFFFFFAB = true := by decide

theorem test_decode_host :
    decode 0x00000033 = .host 0x00000033 ∧ decode 0x00000013 = .host 0x00000013 ∧ decode 0xFFFFFFFF = .host 0xFFFFFFFF := by decide

theorem test_encode_printed :
    encode (.twid 1 0 3 2 1 0) = some 0x01B010AB ∧ encode (.swCr 31 (-1) 31) = some 0xFFFFFE2B ∧
    encode (.lhuCr 4 1 2 10) = some 0x0095322B ∧ encode (.shCr 4 0 (-2) 11) = some 0xFE45EC2B := by decide

/-- 30_encoding.md R102: an error, not an instruction. -/
theorem test_encode_out_of_range :
    (∀ i ∈ [Instr.lbuCr 0 0 512 10, .lhuCr 0 0 512 10, .lwCr 0 512 10, .sbCr 0 0 512 10, .shCr 0 0 512 10, .swCr 0 512 10],
    encode i = none) ∧ encode (.swCr 0 (-513) 10) = none := by decide

theorem test_encode_bounds :
    encode (.lwCr 0 (-512) 10) = some 0x8005402B ∧ encode (.lwCr 0 511 10) = some 0x7FC5402B ∧ encode (.swCr 0 511 11) = some 0x7E05FE2B := by decide

/-- 93_implementation_defined.md U12: `IMM_W` is a parameter. -/
theorem test_wellFormed_other_width :
    (Instr.lwCr 0 512 10).wellFormedAt 12 = true ∧ (Instr.lwCr 0 2048 10).wellFormedAt 12 = false ∧
    (Instr.swCr 0 (-9) 10).wellFormedAt 4 = false ∧ (Instr.swCr 0 (-8) 10).wellFormedAt 4 = true := by decide

/-- 00_scope.md R8: `XC_OPCODE` is a parameter. The word is 30_encoding.md's ADD.p4 with other bits 6:0. -/
theorem test_decode_other_opcode :
    decodeWith 0b0001011 0x0410010B = .instr (.addP4 2 0 1) ∧ decodeWith 0b0001011 0x0410012B = .host 0x0410012B ∧
    encodeWith 0b0001011 (.addP4 2 0 1) = some 0x0410010B := by decide

theorem test_decodeTableWord :
    decodeTableWord 32 0x4010012B = some (.xort 2 0 1) ∧ decodeTableWord 32 0x3000002B = none := by decide

/-- 30_encoding.md R101, R102, on lines of 95_test_vectors.md. -/
theorem test_assembly :
    assembly (.twid 16 0 3 2 1 0) = some "TWID t0, c0, 3, 2, 1, 0" ∧ assembly (.shCr 4 0 (-2) 11) = some "SH.cr c4, 0, -2(x11)" := by decide

theorem test_assembly_error :
    assembly (.lwCr 0 512 10) = none ∧ assembly .addM = none := by decide

/-! ## Register views (95_test_vectors.md 2.1) -/

theorem test_view_reads :
    ((s41 plF).cpr 16, (s41 plF).cpr 17, (s41 plF).cpr 18, (s41 plF).cpr 19) = (0x30201000, 0x31211101, 0x32221202, 0x33231303) := by decide

theorem test_view_reads_group1 :
    (s47.cpr 20, s47.cpr 23, s47.cprByte 17 2, s47.cprByte 2 1) = (0x74645444, 0x77675747, 0x21, 0x21) := by decide

theorem test_view_write_then_byte :
    c0123 (.next (((s41 plF).setCpr 17 0xDDCCBBAA).setCprByte 18 3 0xEE)) = some [0x0302AA00, 0x1312BB10, 0x2322CC20, 0x33EEDD30] := by decide

/-! ## Moves (95_test_vectors.md 2.2) -/

theorem test_mvcop_transposed :
    seen (fun t => (t.gpr 5, t.pc)) (exec (.mvcop 5 19) (s41 plF)) = some (0x33231303, 0x104) := by decide

theorem test_mvcop_x0 :
    seen (fun t => (t.x, t.c == (s41 plF).c, t.pc)) (exec (.mvcop 0 1) (s41 plF)) = some ((s41 plF).x, true, 0x104) := by decide

theorem test_mvgpr_transposed :
    c0123 (exec (.mvgpr 17 7) (s41 plF)) = some [0x0302AA00, 0x1312BB10, 0x2322CC20, 0x3332DD30] := by decide

theorem test_mvgpr_x0 :
    cAt 3 (exec (.mvgpr 3 0) (s41 plF)) = some 0 := by decide

/-! ## Packed arithmetic (95_test_vectors.md 2.3, 2.4) -/

theorem test_add_p1 :
    cAt 2 (exec (.addP1 2 0 1) (sAB plF 0x89ABCDEF 0x12345678)) = some 0x9BE02467 := by decide

theorem test_add_p2 :
    cAt 2 (exec (.addP2 2 0 1) (sAB plF 0x89ABCDEF 0x12345678)) = some 0x9BDF2467 := by decide

theorem test_add_p4 :
    cAt 2 (exec (.addP4 2 0 1) (sAB plF 0x89ABCDEF 0x12345678)) = some 0x9BDF2367 := by decide

theorem test_add_p8 :
    cAt 2 (exec (.addP8 2 0 1) (sAB plF 0x89ABCDEF 0x12345678)) = some 0x9BDF1357 := by decide

theorem test_mul_p1 :
    cAt 2 (exec (.mulP1 2 0 1) (sAB plF 0x89ABCDEF 0x12345678)) = some 0xE242D208 := by decide

theorem test_mul_p2 :
    cAt 2 (exec (.mulP2 2 0 1) (sAB plF 0x89ABCDEF 0x12345678)) = some 0xFCBCD208 := by decide

theorem test_mul_p4 :
    cAt 2 (exec (.mulP4 2 0 1) (sAB plF 0x89ABCDEF 0x12345678)) = some 0xA2BCDE08 := by decide

theorem test_mul_p8 :
    cAt 2 (exec (.mulP8 2 0 1) (sAB plF 0x89ABCDEF 0x12345678)) = some 0x82ECCE28 := by decide

theorem test_sub_p1 :
    cAt 2 (exec (.subP1 2 1 0) (sAB plF 0x89ABCDEF 0x12345678)) = some 0x88888889 := by decide

theorem test_sub_p2 :
    cAt 2 (exec (.subP2 2 1 0) (sAB plF 0x89ABCDEF 0x12345678)) = some 0x88898889 := by decide

theorem test_sub_p4 :
    cAt 2 (exec (.subP4 2 1 0) (sAB plF 0x89ABCDEF 0x12345678)) = some 0x89898989 := by decide

theorem test_sub_p8 :
    cAt 2 (exec (.subP8 2 1 0) (sAB plF 0x89ABCDEF 0x12345678)) = some 0x99999999 := by decide

theorem test_add_p1_transposed_destination :
    c0123 (exec (.addP1 16 0 1) (s41 plF)) = some [0x03020110, 0x13121112, 0x23222114, 0x33323116] := by decide

/-- The source is read whole before the destination is written (00_scope.md R15). -/
theorem test_add_p4_source_is_destination :
    c0123 (exec (.addP4 17 17 1) (s41 plF)) = some [0x03021100, 0x13122210, 0x23223320, 0x33324430] := by decide

theorem test_sll_p1 :
    cAt 2 (exec (.sllP1 2 0 31) (sAB plF 0x89ABCDEF 0)) = some 0x80000000 := by decide

theorem test_srl_p1 :
    cAt 2 (exec (.srlP1 2 0 31) (sAB plF 0x89ABCDEF 0)) = some 0x00000001 := by decide

theorem test_rot_p1_left :
    cAt 2 (exec (.rotP1 2 0 31) (sAB plF 0x89ABCDEF 0)) = some 0xC4D5E6F7 := by decide

theorem test_rot_p1_right :
    cAt 2 (exec (.rotP1 2 0 31) (sAB plT 0x89ABCDEF 0)) = some 0x13579BDF := by decide

theorem test_sll_p2 :
    cAt 2 (exec (.sllP2 2 0 4) (sAB plF 0x89ABCDEF 0)) = some 0x9AB0DEF0 := by decide

theorem test_srl_p2 :
    cAt 2 (exec (.srlP2 2 0 4) (sAB plF 0x89ABCDEF 0)) = some 0x089A0CDE := by decide

theorem test_rot_p2_left :
    cAt 2 (exec (.rotP2 2 0 4) (sAB plF 0x89ABCDEF 0)) = some 0x9AB8DEFC := by decide

theorem test_rot_p2_right :
    cAt 2 (exec (.rotP2 2 0 4) (sAB plT 0x89ABCDEF 0)) = some 0xB89AFCDE := by decide

theorem test_sll_p4 :
    cAt 2 (exec (.sllP4 2 0 1) (sAB plF 0x89ABCDEF 0)) = some 0x12569ADE := by decide

theorem test_srl_p4 :
    cAt 2 (exec (.srlP4 2 0 1) (sAB plF 0x89ABCDEF 0)) = some 0x44556677 := by decide

theorem test_rot_p4_left :
    cAt 2 (exec (.rotP4 2 0 1) (sAB plF 0x89ABCDEF 0)) = some 0x13579BDF := by decide

theorem test_rot_p4_right :
    cAt 2 (exec (.rotP4 2 0 1) (sAB plT 0x89ABCDEF 0)) = some 0xC4D5E6F7 := by decide

theorem test_sll_p8 :
    cAt 2 (exec (.sllP8 2 0 3) (sAB plF 0x89ABCDEF 0)) = some 0x08080808 := by decide

theorem test_srl_p8 :
    cAt 2 (exec (.srlP8 2 0 3) (sAB plF 0x89ABCDEF 0)) = some 0x11111111 := by decide

theorem test_rot_p8_left :
    cAt 2 (exec (.rotP8 2 0 3) (sAB plF 0x89ABCDEF 0)) = some 0x4C5D6E7F := by decide

theorem test_rot_p8_right :
    cAt 2 (exec (.rotP8 2 0 3) (sAB plT 0x89ABCDEF 0)) = some 0x13579BDF := by decide

/-- A drawn result completes; its value is free (41_packed_arithmetic.md R145, R154), so only the rest is checked. -/
theorem test_shift_out_of_range :
    ∀ i ∈ [Instr.sllP2 2 0 16, .sllP4 2 0 8, .sllP8 2 0 4, .srlP2 2 0 16, .srlP4 2 0 8, .srlP8 2 0 31, .rotP2 2 0 16,
    .rotP4 2 0 8, .rotP8 2 0 4], seen (fun t => (t.draws, t.pc, t.c[0], t.c[3])) (exec i (s41 plF)) = some (8, 0x104, 0x03020100, 0x33323130) := by decide

/-! ## Bitwise and twiddle (95_test_vectors.md 2.5) -/

theorem test_xort :
    cAt 2 (exec (.xort 2 0 1) (sAB plF 0x89ABCDEF 0x12345678)) = some 0x9B9F9B97 := by decide

theorem test_xort_transposed :
    c0123 (exec (.xort 16 16 0) (s41 plF)) = some [0x03020100, 0x13121111, 0x23222122, 0x33323133] := by decide

theorem test_andt :
    cAt 2 (exec (.andt 2 0 1) (sAB plF 0x89ABCDEF 0x12345678)) = some 0x00204468 := by decide

theorem test_ort :
    cAt 2 (exec (.ort 2 0 1) (sAB plF 0x89ABCDEF 0x12345678)) = some 0x9BBFDFFF := by decide

theorem test_twid :
    cAt 1 (exec (.twid 1 0 1 2 3 0) (sAB plF 0xA3A2A1A0 0)) = some 0xA0A3A2A1 := by decide

theorem test_twid_transposed :
    c0123 (exec (.twid 16 0 3 2 1 0) (s41 plF)) = some [0x03020103, 0x13121102, 0x23222101, 0x33323100] := by decide

/-! ## Loads and stores (95_test_vectors.md 2.6) -/

theorem test_lbu :
    cAt 4 (exec (.lbuCr 4 2 5 10) (s41 plF)) = some 0x44B14241 ∧ cAt 4 (exec (.lbuCr 4 1 (-1) 0) (s41 plF)) = some 0x44437741 := by decide

theorem test_lbu_transposed :
    c0123 (exec (.lbuCr 17 2 0 10) (s41 plF)) = some [0x03020100, 0x13121110, 0x2322A020, 0x33323130] := by decide

theorem test_lhu :
    cAt 4 (exec (.lhuCr 4 1 2 10) (s41 plF)) = some 0xA3A24241 ∧
    c0123 (exec (.lhuCr 19 1 6 10) (s41 plF)) = some [0x03020100, 0x13121110, 0xB2222120, 0xB3323130] := by decide

theorem test_lhu_misaligned :
    trapOf (exec (.lhuCr 4 0 3 10) (s41 plF)) = some (.loadAddressMisaligned, 0x1003, 0x100) ∧
    cAt 4 (exec (.lhuCr 4 0 3 10) (s41 plT)) = some 0x4443B0A3 := by decide

theorem test_lw :
    c0123 (exec (.lwCr 18 4 10) (s41 plF)) = some [0x03B00100, 0x13B11110, 0x23B22120, 0x33B33130] := by decide

theorem test_lw_misaligned :
    trapOf (exec (.lwCr 0 2 10) (s41 plF)) = some (.loadAddressMisaligned, 0x1002, 0x100) ∧
    cAt 0 (exec (.lwCr 0 2 10) (s41 plT)) = some 0xB1B0A3A2 := by decide

/-- `x10 = 0xFFFFFFFE` and bytes on both sides of the top of memory. -/
def sTop (p : Platform) : State :=
  { (s41 p).setGpr 10 0xFFFFFFFE with mem := [(0, 0xE2), (1, 0xE3), (0xFFFFFFFE, 0xE0), (0xFFFFFFFF, 0xE1)] }

theorem test_load_wraps :
    cAt 0 (exec (.lwCr 0 0 10) (sTop plT)) = some 0xE3E2E1E0 ∧ cAt 4 (exec (.lhuCr 4 0 2 10) (sTop plF)) = some 0x4443E3E2 := by decide

theorem test_sb :
    bytes 0x2007 1 (exec (.sbCr 4 3 7 11) (s41 plF)) = some [0x44] ∧ bytes 0x2000 1 (exec (.sbCr 18 3 0 11) (s41 plF)) = some [0x32] := by decide

theorem test_sh :
    bytes 0x1FFE 2 (exec (.shCr 4 1 (-2) 11) (s41 plF)) = some [0x43, 0x44] ∧
    bytes 0x2002 2 (exec (.shCr 16 1 2 11) (s41 plF)) = some [0x20, 0x30] := by decide

theorem test_sh_misaligned :
    trapOf (exec (.shCr 4 0 1 11) (s41 plF)) = some (.storeAddressMisaligned, 0x2001, 0x100) ∧
    bytes 0x2001 2 (exec (.shCr 4 0 1 11) (s41 plT)) = some [0x41, 0x42] := by decide

theorem test_sw :
    bytes 0x2004 4 (exec (.swCr 17 4 11) (s41 plF)) = some [0x01, 0x11, 0x21, 0x31] := by decide

theorem test_sw_misaligned :
    trapOf (exec (.swCr 4 6 11) (s41 plF)) = some (.storeAddressMisaligned, 0x2006, 0x100) ∧
    bytes 0x2006 4 (exec (.swCr 4 6 11) (s41 plT)) = some [0x41, 0x42, 0x43, 0x44] := by decide

theorem test_access_faults :
    trapOf (exec (.lbuCr 4 0 5 10) (s41 plNo)) = some (.loadAccessFault, 0x1005, 0x100) ∧
    trapOf (exec (.swCr 4 0 11) (s41 plNo)) = some (.storeAccessFault, 0x2000, 0x100) := by decide

/-- 60_exceptions.md R221: an access that starts below a refused region and reaches into it. -/
theorem test_straddling_access_transfers_nothing :
    trapOf (exec (.lwCr 0 (-2) 11) (s41 plRegion)) = some (.loadAccessFault, 0x1FFE, 0x100) ∧
    trapOf (exec (.lhuCr 0 0 (-1) 11) (s41 plRegion)) = some (.loadAccessFault, 0x1FFF, 0x100) ∧
    trapOf (exec (.swCr 4 (-3) 11) (s41 plRegion)) = some (.storeAccessFault, 0x1FFD, 0x100) ∧
    trapOf (exec (.shCr 4 0 (-1) 11) (s41 plRegion)) = some (.storeAccessFault, 0x1FFF, 0x100) := by decide

/-- 20_memory.md R53: what touches no refused byte is performed. -/
theorem test_access_below_region :
    bytes 0x1FFC 4 (exec (.swCr 4 (-4) 11) (s41 plRegion)) = some [0x41, 0x42, 0x43, 0x44] ∧
    cAt 0 (exec (.lwCr 0 2 10) (s41 plRegion)) = some 0xB1B0A3A2 := by decide

/-- 20_memory.md R53: a platform may perform a word and refuse its bytes one at a time. -/
theorem test_word_only_registers :
    cAt 0 (exec (.lwCr 0 0 10) (s41 plRegion)) = some 0xA3A2A1A0 ∧
    trapOf (exec (.lbuCr 0 0 0 10) (s41 plRegion)) = some (.loadAccessFault, 0x1000, 0x100) ∧
    trapOf (exec (.lhuCr 0 0 0 10) (s41 plRegion)) = some (.loadAccessFault, 0x1000, 0x100) := by decide

/-- 20_memory.md R53: the decision is by kind, address and size. -/
theorem test_refusal_by_size :
    admits plRegion .read 0x3FFE 4 = false ∧ admits plRegion .read 0x40FF 4 = false ∧ admits plRegion .read 0x3FFC 4 = true ∧
    admits plRegion .read 0x3FFF 2 = true ∧ admits plRegion .write 0x4000 4 = true ∧
    admits plRegion .read 0x1001 4 = false ∧ admits plRegion .read 0x1000 4 = true := by decide

/-- 20_memory.md R52: a word at 0xFFFFFFFE has the byte at 0. -/
theorem test_admission_wraps :
    admits plZero .read 0xFFFFFFFE 4 = false ∧ admits plZero .read 0xFFFFFFFE 2 = true := by decide

/-- 60_exceptions.md R216. -/
theorem test_misaligned_before_access_fault :
    trapOf (exec (.lwCr 0 1 10) (s41 plNo)) = some (.loadAddressMisaligned, 0x1001, 0x100) ∧
    trapOf (exec (.shCr 4 0 1 11) (s41 plNo)) = some (.storeAddressMisaligned, 0x2001, 0x100) := by decide

/-! ## Named only, and steps -/

/-- 43_multiprecision.md R189, 44_memory_access.md R205, R206. -/
theorem test_named_only :
    ∀ p ∈ [(Instr.addM, "ADD.m"), (Instr.subM, "SUB.m"), (Instr.accM, "ACC.m"), (Instr.macM, "MAC.m"), (Instr.sllM, "SLL.m"), (Instr.srlM, "SRL.m"), (Instr.equM, "EQU.m"), (Instr.ltuM, "LTU.m"), (Instr.gtuM, "GTU.m"), (Instr.scatter, "SCATTER"), (Instr.gather, "GATHER")],
    refusalOf (exec p.1 (s41 plF)) = some (.namedOnly p.2) := by decide

theorem test_step_runs_placed_word :
    cAt 2 (step ((sAB plF 0x89ABCDEF 0x12345678).withFetchWord 32 0x0410012B)) = some 0x9BDF2367 := by decide

theorem test_step_reserved_raises :
    trapOf (step ((s41 plF).withFetchWord 32 0x3000002B)) = some (.illegalInstruction, 0x3000002B, 0x100) := by decide

/-- 20_memory.md R66: the store would overwrite its own word. -/
theorem test_step_store_to_own_code :
    refusalOf (step (((s41 plF).setGpr 11 0x100).withFetchWord 32 0x0045F02B)) = some (.storeToFetchedCode 0x100) := by decide

/-- An encoding with one instruction: the word 0x00000001 is SW.cr with an offset of twelve bits. -/
def xcOther : Encoding where
  opcode := 0b0000001
  immW := 12
  decode w := if w = 0x00000001 then .instr (.swCr 4 0x7FC 10) else if instField w 0 7 = 0b0000001 then .reserved w .otherEncoding else .host w

/-- 00_scope.md R7: the meaning is the term's, whatever word stands for it. -/
theorem test_stepWith_other_encoding :
    bytes 0x17FC 4 (stepWith xcOther ((s41 plF).withFetchWord 32 0x00000001)) = some [0x41, 0x42, 0x43, 0x44] ∧
    trapOf (stepWith xcOther ((s41 plF).withFetchWord 32 0x00000081)) = some (.illegalInstruction, 0x81, 0x100) := by decide

theorem test_stepWith_other_opcode :
    cAt 2 (stepWith (provisionalEncoding 0b0001011) ((sAB plF 0x89ABCDEF 0x12345678).withFetchWord 32 0x0410010B)) = some 0x9BDF2367 := by decide

theorem test_step_from_reset :
    seen (fun t => (t.gpr 0, t.pc)) (step (State.reset.withFetchWord 32 0x8000802B)) = some (0, 4) := by decide

/-! ## Witnesses: hypotheses of the statements of Obligations.lean, met -/

/-- A state with the word w at `pc`, which is 0x100. -/
def sW (w : Nat) : State := (s41 plF).withFetchWord 32 w

/-- The same at a `pc` that is no multiple of 4. -/
def sOdd (w : Nat) : State := { s41 plF with pc := 0x102 }.withFetchWord 32 w

theorem ready_of (s : State) (h1 : admits s.platform .read s.pc 4 = true) (h2 : s.stored = []) : FetchReady s :=
  ⟨h1, fun k _ => by simp [h2]⟩

theorem witness_gpr :
    (31 : GprNum) ≠ 0 ∧ (1 : GprNum) ≠ 31 := by decide

theorem witness_standard_view :
    (0 : CprAddr).toNat = (0 : CprNum).val ∧ (15 : CprAddr).toNat = (15 : CprNum).val ∧ (14 : CprNum) ≠ 15 := by decide

theorem witness_transposed_view :
    (16 : CprAddr).toNat = 16 + 4 * (0 : Fin 4).val + (0 : Fin 4).val ∧ (0 : CprNum).val = 4 * (0 : Fin 4).val + (0 : Fin 4).val ∧
    (31 : CprAddr).toNat = 16 + 4 * (3 : Fin 4).val + (3 : Fin 4).val ∧ (15 : CprNum).val = 4 * (3 : Fin 4).val + (3 : Fin 4).val ∧
    (11 : CprNum).val / 4 ≠ (3 : Fin 4).val ∧ (2 : Fin 4) ≠ 3 := by decide

/-- For every row, a word with all the operand bits 1 meets the premise of EncodedAs. -/
theorem witness_encodedAs :
    opcodeRows.all (fun r => decide ((r.1 ||| ~~~r.2) &&& r.2 = r.1)) = true := by decide

theorem witness_shift_distances :
    (3 : Fin 32).val < 4 ∧ 4 ≤ (4 : Fin 32).val ∧ (7 : Fin 32).val < 8 ∧ 8 ≤ (8 : Fin 32).val ∧ (15 : Fin 32).val < 16 ∧
    16 ≤ (16 : Fin 32).val ∧ 16 ≤ (31 : Fin 32).val := by decide

theorem witness_rotate_by_the_rest :
    (0 < (1 : Fin 32).val ∧ 0 < (3 : Fin 32).val ∧ (1 : Fin 32).val + (3 : Fin 32).val = 4) ∧
    (0 < (4 : Fin 32).val ∧ 0 < (4 : Fin 32).val ∧ (4 : Fin 32).val + (4 : Fin 32).val = 8) ∧
    (0 < (15 : Fin 32).val ∧ 0 < (1 : Fin 32).val ∧ (15 : Fin 32).val + (1 : Fin 32).val = 16) ∧
    (0 < (1 : Fin 32).val ∧ 0 < (31 : Fin 32).val ∧ (1 : Fin 32).val + (31 : Fin 32).val = 32) := by decide

/-- Both instructions complete, and the sources agree in field i and differ as words. -/
def fieldsAgree2 (W i : Nat) (op : CprAddr → CprAddr → CprAddr → Instr) (s s' : State) : Bool :=
  (seen (fun _ => ()) (exec (op 2 0 1) s)).isSome && (seen (fun _ => ()) (exec (op 2 0 1) s')).isSome &&
    decide (fieldNat W (s.cpr 0) i = fieldNat W (s'.cpr 0) i) && decide (fieldNat W (s.cpr 1) i = fieldNat W (s'.cpr 1) i)

def fieldsAgree1 (W i : Nat) (k : Fin 32) (op : CprAddr → CprAddr → Fin 32 → Instr) (s s' : State) : Bool :=
  (seen (fun _ => ()) (exec (op 2 0 k) s)).isSome && (seen (fun _ => ()) (exec (op 2 0 k) s')).isSome && decide (k.val < W) &&
    decide (s.platform.rotDir = s'.platform.rotDir) && decide (fieldNat W (s.cpr 0) i = fieldNat W (s'.cpr 0) i)

/-- One field agrees, at its highest index; for .p1 the one field is the word. -/
theorem witness_fields_agree_add_sll :
    (fieldsAgree2 16 1 .addP2 (sAB plF 0xF0000000 0xE0000000) (sAB plF 0xF0001234 0xE0005678) &&
    fieldsAgree1 16 1 15 .sllP2 (sAB plF 0xF0000000 0xE0000000) (sAB plF 0xF0001234 0xE0005678) &&
    fieldsAgree2 8 3 .addP4 (sAB plF 0xF0000000 0xE0000000) (sAB plF 0xF0001234 0xE0005678) &&
    fieldsAgree1 8 3 7 .sllP4 (sAB plF 0xF0000000 0xE0000000) (sAB plF 0xF0001234 0xE0005678) &&
    fieldsAgree2 4 7 .addP8 (sAB plF 0xF0000000 0xE0000000) (sAB plF 0xF0001234 0xE0005678) &&
    fieldsAgree1 4 7 3 .sllP8 (sAB plF 0xF0000000 0xE0000000) (sAB plF 0xF0001234 0xE0005678) &&
    fieldsAgree2 32 0 .addP1 (sAB plF 0xF0000000 0xE0000000) (sAB plF 0xF0000000 0xE0000000) &&
    fieldsAgree1 32 0 31 .sllP1 (sAB plF 0xF0000000 0xE0000000) (sAB plF 0xF0000000 0xE0000000)) = true := by decide

/-- One field agrees, at its highest index; for .p1 the one field is the word. -/
theorem witness_fields_agree_sub_srl :
    (fieldsAgree2 16 1 .subP2 (sAB plF 0xF0000000 0xE0000000) (sAB plF 0xF0001234 0xE0005678) &&
    fieldsAgree1 16 1 15 .srlP2 (sAB plF 0xF0000000 0xE0000000) (sAB plF 0xF0001234 0xE0005678) &&
    fieldsAgree2 8 3 .subP4 (sAB plF 0xF0000000 0xE0000000) (sAB plF 0xF0001234 0xE0005678) &&
    fieldsAgree1 8 3 7 .srlP4 (sAB plF 0xF0000000 0xE0000000) (sAB plF 0xF0001234 0xE0005678) &&
    fieldsAgree2 4 7 .subP8 (sAB plF 0xF0000000 0xE0000000) (sAB plF 0xF0001234 0xE0005678) &&
    fieldsAgree1 4 7 3 .srlP8 (sAB plF 0xF0000000 0xE0000000) (sAB plF 0xF0001234 0xE0005678) &&
    fieldsAgree2 32 0 .subP1 (sAB plF 0xF0000000 0xE0000000) (sAB plF 0xF0000000 0xE0000000) &&
    fieldsAgree1 32 0 31 .srlP1 (sAB plF 0xF0000000 0xE0000000) (sAB plF 0xF0000000 0xE0000000)) = true := by decide

/-- One field agrees, at its highest index; for .p1 the one field is the word. -/
theorem witness_fields_agree_mul_rot :
    (fieldsAgree2 16 1 .mulP2 (sAB plF 0xF0000000 0xE0000000) (sAB plF 0xF0001234 0xE0005678) &&
    fieldsAgree1 16 1 15 .rotP2 (sAB plF 0xF0000000 0xE0000000) (sAB plF 0xF0001234 0xE0005678) &&
    fieldsAgree2 8 3 .mulP4 (sAB plF 0xF0000000 0xE0000000) (sAB plF 0xF0001234 0xE0005678) &&
    fieldsAgree1 8 3 7 .rotP4 (sAB plF 0xF0000000 0xE0000000) (sAB plF 0xF0001234 0xE0005678) &&
    fieldsAgree2 4 7 .mulP8 (sAB plF 0xF0000000 0xE0000000) (sAB plF 0xF0001234 0xE0005678) &&
    fieldsAgree1 4 7 3 .rotP8 (sAB plF 0xF0000000 0xE0000000) (sAB plF 0xF0001234 0xE0005678) &&
    fieldsAgree2 32 0 .mulP1 (sAB plF 0xF0000000 0xE0000000) (sAB plF 0xF0000000 0xE0000000) &&
    fieldsAgree1 32 0 31 .rotP1 (sAB plF 0xF0000000 0xE0000000) (sAB plF 0xF0000000 0xE0000000)) = true := by decide

theorem witness_load_refused :
    admits plNo .read ((s41 plNo).gpr 10 + BitVec.ofInt 32 5) 1 = false ∧ admits plF .read ((s41 plF).gpr 10 + BitVec.ofInt 32 5) 1 = true := by decide

/-- The effective address of the statements, written out. -/
def ea (s : State) (rs1 : GprNum) (imm : Int) : Word := s.gpr rs1 + BitVec.ofInt 32 imm

theorem witness_half_clauses :
    HalfStops (s41 plF) (ea (s41 plF) 10 3) ∧ (¬ HalfStops (s41 plNo) (ea (s41 plNo) 10 2) ∧ admits plNo .read (ea (s41 plNo) 10 2) 2 = false ∧ admits plNo .write (ea (s41 plNo) 10 2) 2 = false) ∧
    (¬ HalfStops (s41 plT) (ea (s41 plT) 10 3) ∧ admits plT .read (ea (s41 plT) 10 3) 2 = true ∧ admits plT .write (ea (s41 plT) 10 3) 2 = true) ∧
    (¬ HalfStops (s41 plF) (ea (s41 plF) 10 2) ∧ admits plF .read (ea (s41 plF) 10 2) 2 = true) := by
  unfold HalfStops; decide

theorem witness_word_clauses :
    WordStops (s41 plF) (ea (s41 plF) 10 1) ∧ WordStops (s41 plF) (ea (s41 plF) 10 2) ∧ WordStops (s41 plF) (ea (s41 plF) 10 3) ∧
    (¬ WordStops (s41 plNo) (ea (s41 plNo) 10 4) ∧ admits plNo .read (ea (s41 plNo) 10 4) 4 = false ∧ admits plNo .write (ea (s41 plNo) 10 4) 4 = false) ∧
    (¬ WordStops (s41 plT) (ea (s41 plT) 10 3) ∧ admits plT .read (ea (s41 plT) 10 3) 4 = true ∧ admits plT .write (ea (s41 plT) 10 3) 4 = true) ∧
    (¬ WordStops (s41 plF) (ea (s41 plF) 10 4) ∧ admits plF .read (ea (s41 plF) 10 4) 4 = true) := by
  unfold WordStops; decide

/-- A run that has fetched the word at 0x2000. -/
def sFetched : State := { s41 plF with fetched := [0x2000, 0x2001, 0x2002, 0x2003] }

theorem witness_store_clauses :
    admits plNo .write (ea (s41 plNo) 11 3) 1 = false ∧
    admits plF .write (ea sFetched 11 3) 1 = true ∧ HitsFetched sFetched (ea sFetched 11 3) 1 ∧
    HitsFetched sFetched (ea sFetched 11 2) 2 ∧ HitsFetched sFetched (ea sFetched 11 0) 4 ∧
    ¬ HitsFetched sFetched (ea sFetched 11 4) 1 ∧ ¬ HitsFetched sFetched (ea sFetched 11 4) 2 ∧
    ¬ HitsFetched sFetched (ea sFetched 11 4) 4 ∧
    (0 : ByteIdx).val = 2 * (0 : Fin 2).val ∧ (3 : ByteIdx).val = 2 * (1 : Fin 2).val + 1 := by
  unfold HitsFetched; decide

theorem witness_completes : ∃ t, exec (.addP4 2 0 1) (s41 plF) = .next t := ⟨_, rfl⟩

theorem witness_gpr_changes :
    ∃ t, exec (.mvcop 5 19) (s41 plF) = .next t ∧ t.gpr 5 ≠ (s41 plF).gpr 5 := ⟨_, rfl, by decide⟩

theorem witness_unlisted_byte :
    ∃ t, exec (.lbuCr 17 2 0 10) (s41 plF) = .next t ∧ ∀ p ∈ cprWritten (.lbuCr 17 2 0 10), home p.1 p.2 ≠ (2, 0) :=
  ⟨_, rfl, fun p hp => by
    obtain rfl : p = (17, 2) := by simpa [cprWritten] using hp
    decide⟩

theorem witness_memory_elsewhere :
    ∃ t, exec (.shCr 4 1 (-2) 11) (s41 plF) = .next t ∧
      ∀ k < storeWidth (.shCr 4 1 (-2) 11), (0x2000 : Word) ≠ addrOf (.shCr 4 1 (-2) 11) (s41 plF) + BitVec.ofNat 32 k :=
  ⟨_, rfl, fun k hk => by
    have hk : k < 2 := hk
    obtain rfl | rfl : k = 0 ∨ k = 1 := by omega
    all_goals decide⟩

theorem witness_raises : ∃ f, exec (.swCr 4 6 11) (s41 plF) = .fault f := ⟨_, rfl⟩

theorem witness_reserved :
    FetchReady (sW 0x3000002B) ∧ (sW 0x3000002B).pc.toNat % 4 = 0 ∧ (wordAtPc (sW 0x3000002B)).extractLsb' 0 7 = 0b0101011#7 ∧
      ReservedPattern (wordAtPc (sW 0x3000002B)) :=
  ⟨ready_of _ (by decide) rfl, by decide, by decide, .inl ⟨by decide, .inl (by decide)⟩⟩

/-- Each of the reserved patterns has a word (95_test_vectors.md 2.7). -/
theorem witness_reserved_patterns :
    ReservedPattern 0x4210012B ∧ ReservedPattern 0x8011062B ∧ ReservedPattern 0x1000102B ∧ ReservedPattern 0x0025302B ∧
      ReservedPattern 0x0015402B ∧ ReservedPattern 0x0005E12B ∧ ReservedPattern 0x0005F0AB ∧ ¬ ReservedPattern 0x0000002B := by
  refine ⟨?_, ?_, ?_, ?_, ?_, ?_, ?_, ?_⟩ <;> unfold ReservedPattern <;> dsimp only <;> decide

theorem witness_step_trap : ∃ c v e b, step (sW 0x3000002B) = .fault (.trap c v e b) := ⟨_, _, _, _, rfl⟩

theorem witness_step_instr :
    FetchReady (sW 0x0410012B) ∧ (sW 0x0410012B).pc.toNat % 4 = 0 ∧ decode (wordAtPc (sW 0x0410012B)) = .instr (.addP4 2 0 1) :=
  ⟨ready_of _ (by decide) rfl, by decide, by decide⟩

theorem witness_host_word :
    FetchReady (sW 0x00000033) ∧ (wordAtPc (sW 0x00000033)).extractLsb' 0 7 ≠ 0b0101011#7 :=
  ⟨ready_of _ (by decide) rfl, by decide⟩

theorem witness_host_stores :
    (∀ p ∈ [((0x2004 : Word), (1 : Byte)), (0x2004, 2)], p.1.toNat ∉ sFetched.fetched) ∧
    ([((0x2004 : Word), (1 : Byte)), (0x2004, 2)] = [(0x2004, 1)] ++ (0x2004, 2) :: [] ∧
      ∀ p ∈ ([] : List (Word × Byte)), p.1 ≠ 0x2004) ∧
    (∀ p ∈ [((0x2004 : Word), (1 : Byte)), (0x2004, 2)], p.1 ≠ 0x2008) ∧
    ((0x2003 : Word), (1 : Byte)) ∈ [((0x2003 : Word), (1 : Byte))] ∧ (0x2003 : Word).toNat ∈ sFetched.fetched := by
  simp [sFetched]

/-- A run that has stored the last byte of the word at `pc`. -/
def sStored : State := { sW 0x0410012B with stored := [0x103] }

/-- A platform that refuses the fetch at 0x100. -/
def sNoFetch : State := { sW 0x0410012B with platform := ⟨false, .left, ⟨[], [⟨.read, 4, 0x100⟩]⟩⟩ }

theorem witness_fetch_refusals :
    admits sNoFetch.platform .read sNoFetch.pc 4 = false ∧
    (admits sStored.platform .read sStored.pc 4 = true ∧ ∃ k < 4, (sStored.pc + BitVec.ofNat 32 k).toNat ∈ sStored.stored) ∧
    (FetchReady (sOdd 0x0410012B) ∧ (sOdd 0x0410012B).pc.toNat % 4 ≠ 0 ∧ (wordAtPc (sOdd 0x0410012B)).extractLsb' 0 7 = 0b0101011#7) :=
  ⟨by decide, ⟨by decide, by decide⟩, ready_of _ (by decide) rfl, by decide, by decide⟩

theorem witness_wellFormed : (Instr.swCr 31 (-512) 31).wellFormed = true ∧ decode 0xFFFFFE2B = .instr (.swCr 31 (-1) 31) := by decide

theorem witness_rows :
    ((0x0000702B, 0x000071FF) ∈ opcodeRows) ∧ (0xFFFFFE2B#32 &&& 0x000071FF = 0x0000702B) ∧ decode 0xFFFFFE2B = .instr (.swCr 31 (-1) 31) := by
  decide

theorem witness_load_after_store :
    ∃ t u, exec (.swCr 4 0 11) (s41 plF) = .next t ∧ exec (.lbuCr 17 2 3 11) t = .next u ∧
      t.gpr 11 + BitVec.ofInt 32 3 = (s41 plF).gpr 11 + BitVec.ofInt 32 0 + BitVec.ofNat 32 (3 : Fin 4).val :=
  ⟨_, _, rfl, rfl, by decide⟩

theorem witness_word_after_store :
    ∃ t u, exec (.swCr 4 0 11) (s41 plF) = .next t ∧ exec (.lwCr 17 0 11) t = .next u ∧
      t.gpr 11 + BitVec.ofInt 32 0 = (s41 plF).gpr 11 + BitVec.ofInt 32 0 :=
  ⟨_, _, rfl, rfl, by decide⟩

theorem witness_four_loads :
    ∃ s1 s2 s3 t, exec (.lbuCr 17 0 0 10) (s41 plF) = .next s1 ∧ exec (.lbuCr 17 1 1 10) s1 = .next s2 ∧
      exec (.lbuCr 17 2 2 10) s2 = .next s3 ∧ exec (.lbuCr 17 3 3 10) s3 = .next t :=
  ⟨_, _, _, _, rfl, rfl, rfl, rfl⟩

theorem witness_move_there_and_back :
    ∃ t u, exec (.mvgpr 17 7) (s41 plF) = .next t ∧ exec (.mvcop 5 17) t = .next u ∧ (5 : GprNum) ≠ 0 :=
  ⟨_, _, rfl, rfl, by decide⟩

theorem witness_invariant : (sW 0x0410012B).inv = true ∧ ∃ t, step (sW 0x0410012B) = .next t := ⟨by decide, _, rfl⟩

theorem witness_fetched_code : ∃ t, step (sW 0x0045F02B) = .next t ∧ (0x103 : Word).toNat ∈ t.fetched := ⟨_, rfl, by decide⟩

theorem witness_run : (sW 0x0410012B).inv = true ∧ ∃ t, runTo 0x104 1 (sW 0x0410012B) = .final t ∧ (0x100 : Word).toNat ∈ t.fetched :=
  ⟨by decide, _, rfl, by decide⟩

theorem witness_any_encoding :
    (FetchReady (sW 0x00000001) ∧ xcOther.decode (wordAtPc (sW 0x00000001)) = .instr (.swCr 4 0x7FC 10)) ∧
    (FetchReady (sW 0x00000081) ∧ xcOther.decode (wordAtPc (sW 0x00000081)) = .reserved 0x00000081 .otherEncoding) ∧
    (FetchReady (sW 0x00000033) ∧ xcOther.decode (wordAtPc (sW 0x00000033)) = .host 0x00000033) ∧
    (sW 0x00000001).pc.toNat % 4 = 0 ∧ (sOdd 0x00000001).pc.toNat % 4 ≠ 0 :=
  ⟨⟨ready_of _ (by decide) rfl, by decide⟩, ⟨ready_of _ (by decide) rfl, by decide⟩,
    ⟨ready_of _ (by decide) rfl, by decide⟩, by decide, by decide⟩

theorem witness_any_encoding_invariant :
    (sW 0x00000001).inv = true ∧ ∃ t, stepWith xcOther (sW 0x00000001) = .next t ∧ (0x103 : Word).toNat ∈ t.fetched :=
  ⟨by decide, _, rfl, by decide⟩

theorem witness_out_of_range :
    (Instr.lwCr 0 512 10).wellFormed = false ∧ Instr.addM.wellFormedAt 12 = false ∧
    (2 : Int) ^ 10 ≤ 2 * 512 ∧ (2 * (-513) : Int) < -2 ^ 10 := by decide

/-- Refused at the first and at the last byte of an access, and refused to one size alone. -/
theorem witness_straddling :
    HasRefusedByte plRegion .read 0x1FFD 4 ∧ HasRefusedByte plRegion .write 0x1FFF 2 ∧ HasRefusedByte plRegion .read 0x2FFF 1 ∧
    HasRefusedByte plRegion .read 0x3FFD 4 ∧ ¬ HalfStops (s41 plRegion) 0x1FFF ∧ ¬ WordStops (s41 plRegion) 0x1FFD ∧
    admits plRegion .read 0x1FFC 4 = true :=
  ⟨⟨3, by decide, ⟨.read, 4, 0x2000, 0x2FFF⟩, by decide, by decide⟩,
    ⟨1, by decide, ⟨.write, 2, 0x2000, 0x2FFF⟩, by decide, by decide⟩,
    ⟨0, by decide, ⟨.read, 1, 0x2000, 0x2FFF⟩, by decide, by decide⟩,
    ⟨3, by decide, ⟨.read, 4, 0x4000, 0x40FF⟩, by decide, by decide⟩,
    by unfold HalfStops; decide, by unfold WordStops; decide, by decide⟩

theorem witness_access_sizes : 1 ∈ [1, 2, 4] ∧ 4 ∈ [1, 2, 4] := by decide

end Sys2Proof.Tests
end

section
/-! The register statements of 10_state.md, R20 to R30. -/

namespace Sys2Proof.Machine

/-! ## Frames of the register writes -/

/-- A write to the GPR file changes nothing but the GPR file. -/
theorem setGpr_frame (s : State) (i : GprNum) (v : Word) :
    s.setGpr i v = { s with x := (s.setGpr i v).x } := by
  unfold State.setGpr; split <;> rfl

/-- A write to `x[0]` is discarded (10_state.md R21). -/
@[simp] theorem setGpr_zero (s : State) (v : Word) : s.setGpr 0 v = s := rfl

/-- A byte write through a view changes nothing but the CPR file. -/
theorem setCprByte_frame (s : State) (a : CprAddr) (k : ByteIdx) (b : Byte) :
    s.setCprByte a k b = { s with c := (s.setCprByte a k b).c } := rfl

/-- A write through a view changes nothing but the CPR file. -/
theorem setCpr_frame (s : State) (a : CprAddr) (v : Word) :
    s.setCpr a v = { s with c := (s.setCpr a v).c } := by
  unfold State.setCpr; split <;> rfl

/-! ## Stored bytes at a known home -/

/-- The home of a view's byte reads as that byte of the view. -/
theorem byte_cpr_of_home {a : CprAddr} {k : ByteIdx} {n : CprNum} {j : ByteIdx} (h : home a k = (n, j)) (s : State) :
    byte (s.cpr a) k = byte s.c[n] j := by
  rw [cprByte_eq, h]; rfl

/-- A write through a view puts byte k of the value into the home of byte k. -/
theorem byte_setCpr_of_home {a : CprAddr} {k : ByteIdx} {n : CprNum} {j : ByteIdx} (h : home a k = (n, j))
    (s : State) (v : Word) : byte (s.setCpr a v).c[n] j = byte v k := by
  rw [← byte_cpr_of_home h, cpr_setCpr_same]

/-- A byte write through a view sets the byte's home, and only it (10_state.md R30). -/
theorem setCprByte_replaces_home {a : CprAddr} {k : ByteIdx} {n : CprNum} {j : ByteIdx} (h : home a k = (n, j))
    (s : State) (b : Byte) :
    byte (s.setCprByte a k b).c[n] j = b ∧
      ∀ (m : CprNum) (i : ByteIdx), (m ≠ n ∨ i ≠ j) → byte (s.setCprByte a k b).c[m] i = byte s.c[m] i := by
  have stored (m : CprNum) (i : ByteIdx) := storedByte_setCprByte s a k b m i
  simp only [h, State.storedByte] at stored
  constructor
  · rw [stored, if_pos rfl]
  · intro m i hmi
    rw [stored, if_neg]
    intro heq
    obtain ⟨hm, hi⟩ := Prod.mk.inj heq
    exact hmi.elim (· hm) (· hi)

/-- The homes of a transposed view's bytes lie in its group and lane: a stored byte of another group or of another
lane is none of them (10_state.md R28). -/
theorem home_transposed_ne {a : CprAddr} {g j : Fin 4} (ha : a.toNat = 16 + 4 * g.val + j.val) {n : CprNum}
    {i : ByteIdx} (hout : n.val / 4 ≠ g.val ∨ i ≠ j) (k : ByteIdx) : home a k ≠ (n, i) := by
  have hlt : 4 * g.val + k.val < 16 := by omega
  rw [home_transposed (n := ⟨4 * g.val + k.val, hlt⟩) ha rfl]
  intro heq
  obtain ⟨hn, hi⟩ := Prod.mk.inj heq
  have hgroup : n.val / 4 = g.val := by rw [← hn]; simp only; omega
  exact hout.elim (· hgroup) (· hi.symm)

/-! ## The statements -/

/-- Settles O4: the write and the read-back go through the homes of the view's four bytes. -/
theorem transposedViewWritesColumn : Obligations.TransposedViewWritesColumn := by
  intro s a g j v ha
  refine ⟨?column, ?others, cpr_setCpr_same s a v, setCpr_frame s a v⟩
  case column =>
    intro k n hn
    exact byte_setCpr_of_home (home_transposed ha hn) s v
  case others =>
    intro n i hout
    exact storedByte_setCpr_other s a v n i (home_transposed_ne ha hout)

/-- Settles O2: the home of byte k of a standard view is byte k of the stored word, so words agree byte by byte. -/
theorem standardViewIsStoredWord : Obligations.StandardViewIsStoredWord := by
  intro s a n v ha
  refine ⟨?read, ?written, ?others, setCpr_frame s a v⟩
  case read => exact eq_of_byte_eq fun k => byte_cpr_of_home (home_standard ha k) s
  case written => exact eq_of_byte_eq fun k => byte_setCpr_of_home (home_standard ha k) s v
  case others =>
    intro m hm
    apply eq_of_byte_eq
    intro i
    refine storedByte_setCpr_other s a v m i fun k => ?_
    rw [home_standard ha k]
    exact fun heq => hm (congrArg Prod.fst heq).symm

/-- Settles O3: the home of byte k of the view is byte j of `c[4g + k]`. -/
theorem transposedViewReadsColumn : Obligations.TransposedViewReadsColumn := by
  intro s a g j k n ha hn
  exact byte_cpr_of_home (home_transposed ha hn) s

/-- Settles O5: in both modes the byte replaced is the home of the view's byte k. -/
theorem cprByteWriteReplacesOneByte : Obligations.CprByteWriteReplacesOneByte := by
  intro s a k b
  refine ⟨rfl, ?standard, ?transposed, setCprByte_frame s a k b⟩
  case standard =>
    intro n ha
    exact setCprByte_replaces_home (home_standard ha k) s b
  case transposed =>
    intro g j n ha hn
    exact setCprByte_replaces_home (home_transposed ha hn) s b

/-- Settles O1: a read after a write is decided by the two register numbers. -/
theorem gprReadsAndWrites : Obligations.GprReadsAndWrites := by
  refine ⟨gpr_zero, setGpr_zero, fun s i v hi => ⟨?same, ?other, setGpr_frame s i v⟩⟩
  case same => rw [gpr_setGpr, if_neg hi, if_pos rfl]
  case other =>
    intro j hj
    rw [gpr_setGpr, if_neg hj]
    by_cases h0 : j = 0
    · rw [if_pos h0, h0, gpr_zero]
    · rw [if_neg h0]

end Sys2Proof.Machine
end

section
/-! The match and mask values of 30_encoding.md R97, and the decoder that answers by them (R100). -/

namespace Sys2Proof.Claims

/-! ## A row of R97 as the fields it fixes -/

/-- A field of an instruction word, and the value a row fixes for it. -/
structure FixedField where
  lo : Nat
  n : Nat
  value : BitVec n

/-- `v` at bits `lo` and up of a word that is 0 elsewhere. -/
def placeField (lo : Nat) {n : Nat} (v : BitVec n) : Word := v.setWidth 32 <<< lo

/-- The match and mask values of a row that fixes the fields `fs`. -/
def rowOfFields (fs : List FixedField) : Word × Word :=
  fs.foldr (fun f r => (placeField f.lo f.value ||| r.1, placeField f.lo (BitVec.allOnes f.n) ||| r.2)) (0, 0)

/-- Masking all of a word but one field leaves that field in its place. -/
theorem and_placeField_allOnes (w : Word) (lo n : Nat) :
    w &&& placeField lo (BitVec.allOnes n) = placeField lo (instField w lo n) := by
  apply BitVec.eq_of_getLsbD_eq
  intro i hi
  by_cases h : lo ≤ i
  · simp [placeField, instField, hi, h, Nat.not_lt.mpr h, Bool.and_comm]
  · simp [placeField, Nat.lt_of_not_le h]

/-- A slice of a field is a field. -/
theorem extractLsb'_instField {start len n : Nat} (h : start + len ≤ n) (w : Word) (lo : Nat) :
    (instField w lo n).extractLsb' start len = instField w (lo + start) len := by
  apply BitVec.eq_of_getLsbD_eq
  intro i hi
  have hn : start + i < n := by omega
  simp [instField, hi, hn, Nat.add_assoc]

/-- A word with the fields that a row fixes satisfies the row's match and mask. -/
theorem and_mask_of_fields {w : Word} {fs : List FixedField} (h : ∀ f ∈ fs, instField w f.lo f.n = f.value) :
    w &&& (rowOfFields fs).2 = (rowOfFields fs).1 := by
  induction fs with
  | nil => simp [rowOfFields]
  | cons f fs ih =>
    obtain ⟨hf, hfs⟩ := List.forall_mem_cons.mp h
    have hw := and_placeField_allOnes w f.lo f.n
    rw [hf] at hw
    calc w &&& (placeField f.lo (BitVec.allOnes f.n) ||| (rowOfFields fs).2)
        = (w &&& placeField f.lo (BitVec.allOnes f.n)) ||| (w &&& (rowOfFields fs).2) := BitVec.and_or_distrib_left
      _ = placeField f.lo f.value ||| (rowOfFields fs).1 := by rw [hw, ih hfs]

/-! ## The table: every row an instruction has is listed, and no two rows meet. -/

theorem mem_opcodeRows_of_rowOf {i : Instr} {r : Word × Word} (h : rowOf i = some r) : r ∈ opcodeRows := by
  cases i <;> cases h <;> decide

/-- Two rows of the table differ in a bit that both fix. -/
theorem opcodeRows_pairwise : opcodeRows.Pairwise (fun r r' => r.1 &&& r'.2 ≠ r'.1 &&& r.2) := by decide

/-- No word satisfies two rows (30_encoding.md R96, R100). -/
theorem opcodeRows_exclusive {r r' : Word × Word} (hr : r ∈ opcodeRows) (hr' : r' ∈ opcodeRows) {w : Word}
    (h : w &&& r.2 = r.1) (h' : w &&& r'.2 = r'.1) : r = r' := by
  have : Std.Symm fun r r' : Word × Word => r.1 &&& r'.2 ≠ r'.1 &&& r.2 := ⟨fun _ _ => Ne.symm⟩
  by_contra hne
  apply opcodeRows_pairwise.forall hr hr' hne
  rw [← h, ← h', BitVec.and_assoc, BitVec.and_assoc, BitVec.and_comm r.2]

/-! ## An instruction the decoder answers has a row, which the word satisfies. -/

/-- If `d` is an instruction, `w` satisfies its row. -/
def InRow (w : Word) (d : Decoded) : Prop := ∀ i, d = .instr i → ∃ r, rowOf i = some r ∧ w &&& r.2 = r.1

theorem inRow_reserved {w v : Word} {why : Reserved} : InRow w (.reserved v why) := fun _ h => nomatch h

theorem inRow_host {w v : Word} : InRow w (.host v) := fun _ h => nomatch h

theorem inRow_ite {w : Word} {p : Prop} [Decidable p] {d e : Decoded} (hd : p → InRow w d) (he : ¬ p → InRow w e) :
    InRow w (if p then d else e) := by
  split
  · exact hd ‹_›
  · exact he ‹_›

theorem inRow_of_fields {w : Word} {i : Instr} (fs : List FixedField) (hi : rowOf i = some (rowOfFields fs))
    (h : ∀ f ∈ fs, instField w f.lo f.n = f.value) : InRow w (.instr i) := by
  rintro _ ⟨⟩
  exact ⟨_, hi, and_mask_of_fields h⟩

/-- The fields that a form of format XR fixes (30_encoding.md R85, R91, R92). -/
def xrFields (op5 : BitVec 5) (width : BitVec 2) : List FixedField :=
  [⟨0, 7, Config.opcode⟩, ⟨12, 3, 0b000#3⟩, ⟨27, 5, op5⟩, ⟨25, 2, width⟩]

/-- If each of four forms has the row of its width, the form that the width selects has the row of that width. -/
theorem rowOf_byWidth {op5 : BitVec 5} {p1 p2 p4 p8 : Instr} (h1 : rowOf p1 = some (rowOfFields (xrFields op5 0b00#2)))
    (h2 : rowOf p2 = some (rowOfFields (xrFields op5 0b01#2))) (h4 : rowOf p4 = some (rowOfFields (xrFields op5 0b10#2)))
    (h8 : rowOf p8 = some (rowOfFields (xrFields op5 0b11#2))) (width : BitVec 2) :
    rowOf (byWidth width p1 p2 p4 p8) = some (rowOfFields (xrFields op5 width)) := by
  have hwidth : width = 0b00#2 ∨ width = 0b01#2 ∨ width = 0b10#2 ∨ width = 0b11#2 := by
    revert width; decide
  rcases hwidth with rfl | rfl | rfl | rfl
  · exact h1
  · exact h2
  · exact h4
  · exact h8

section
variable {w : Word} (h0 : instField w 0 7 = Config.opcode)
include h0

theorem inRow_xr {op5 : BitVec 5} {width : BitVec 2} {i : Instr} (hi : rowOf i = some (rowOfFields (xrFields op5 width)))
    (h12 : instField w 12 3 = 0b000#3) (h27 : instField w 27 5 = op5) (h25 : instField w 25 2 = width) :
    InRow w (.instr i) := by
  apply inRow_of_fields _ hi
  simp [xrFields, h0, h12, h27, h25]

theorem inRow_decodeXR (h12 : instField w 12 3 = 0b000#3) : InRow w (decodeXR w) := by
  unfold decodeXR
  refine inRow_ite (fun h27 => ?add) fun _ => inRow_ite (fun h27 => ?sub) fun _ => inRow_ite (fun h27 => ?mul) fun _ =>
    inRow_ite (fun h27 => ?sll) fun _ => inRow_ite (fun h27 => ?srl) fun _ => inRow_ite (fun h27 => ?rot) fun _ =>
    inRow_ite (fun h27 => inRow_ite (fun h25 => ?xort) fun _ => inRow_reserved) fun _ =>
    inRow_ite (fun h27 => inRow_ite (fun h25 => ?andt) fun _ => inRow_reserved) fun _ =>
    inRow_ite (fun h27 => inRow_ite (fun h25 => ?ort) fun _ => inRow_reserved) fun _ =>
    inRow_ite (fun h27 => inRow_ite (fun h25 => inRow_ite (fun h20 => ?mvcop) fun _ => inRow_reserved)
      fun _ => inRow_reserved) fun _ =>
    inRow_ite (fun h27 => inRow_ite (fun h25 => inRow_ite (fun h20 => ?mvgpr) fun _ => inRow_reserved)
      fun _ => inRow_reserved) fun _ => inRow_reserved
  case add | sub | mul | sll | srl | rot => exact inRow_xr h0 (rowOf_byWidth rfl rfl rfl rfl _) h12 h27 rfl
  case xort | andt | ort => exact inRow_xr h0 rfl h12 h27 h25
  case mvcop => exact inRow_of_fields (⟨20, 5, 0#5⟩ :: xrFields 0b10000#5 0b00#2) rfl (by simp [xrFields, *])
  case mvgpr => exact inRow_of_fields (⟨20, 5, 0#5⟩ :: xrFields 0b10001#5 0b00#2) rfl (by simp [xrFields, *])

theorem inRow_decodeXT (h12 : instField w 12 3 = 0b001#3) : InRow w (decodeXT w) :=
  inRow_ite (fun h28 => inRow_of_fields [⟨0, 7, Config.opcode⟩, ⟨12, 3, 0b001#3⟩, ⟨28, 4, 0b0000#4⟩] rfl
    (by simp [h0, h12, h28])) fun _ => inRow_reserved

theorem inRow_halfSel {lo : Nat} {f3 : BitVec 3} {k : Fin 2 → Instr}
    (hk : ∀ h, rowOf (k h) = some (rowOfFields [⟨0, 7, Config.opcode⟩, ⟨12, 3, f3⟩, ⟨lo + 1, 1, 0b0#1⟩]))
    (h12 : instField w 12 3 = f3) : InRow w (halfSel w (instField w lo 2) k) := by
  refine inRow_ite (fun hsel => inRow_of_fields _ (hk _) ?_) fun _ => inRow_reserved
  rw [extractLsb'_instField (by decide)] at hsel
  simp [h0, h12, hsel]

theorem inRow_wordSel {lo : Nat} {f3 : BitVec 3} {i : Instr}
    (hi : rowOf i = some (rowOfFields [⟨0, 7, Config.opcode⟩, ⟨12, 3, f3⟩, ⟨lo, 2, 0b00#2⟩]))
    (h12 : instField w 12 3 = f3) : InRow w (wordSel w (instField w lo 2) i) :=
  inRow_ite (fun hsel => inRow_of_fields _ hi (by simp [h0, h12, hsel])) fun _ => inRow_reserved

theorem inRow_byteForm {f3 : BitVec 3} {i : Instr}
    (hi : rowOf i = some (rowOfFields [⟨0, 7, Config.opcode⟩, ⟨12, 3, f3⟩]))
    (h12 : instField w 12 3 = f3) : InRow w (.instr i) :=
  inRow_of_fields _ hi (by simp [h0, h12])

theorem inRow_decodeIse : InRow w (decodeIse w) := by
  unfold decodeIse
  refine inRow_ite (inRow_decodeXR h0) fun hne0 => inRow_ite (inRow_decodeXT h0) fun hne1 =>
    inRow_ite (inRow_byteForm h0 rfl) fun hne2 => inRow_ite (inRow_halfSel h0 fun _ => rfl) fun hne3 =>
    inRow_ite (inRow_wordSel h0 rfl) fun hne4 => inRow_ite (inRow_byteForm h0 rfl) fun hne5 =>
    inRow_ite (inRow_halfSel h0 fun _ => rfl) fun hne6 => inRow_wordSel (f3 := 0b111#3) h0 rfl ?_
  bv_omega

end

/-- A word that decodes to an instruction satisfies the row of that instruction. -/
theorem inRow_decode (w : Word) : InRow w (decode w) :=
  inRow_ite inRow_decodeIse fun _ => inRow_host

/-! ## A word that satisfies a row decodes to an instruction. -/

/-- The `op5` of the packed forms, of the bitwise forms and of the moves (30_encoding.md R91). -/
def packedOps : List (BitVec 5) := [0b00000#5, 0b00001#5, 0b00010#5, 0b00011#5, 0b00100#5, 0b00101#5]
def bitwiseOps : List (BitVec 5) := [0b01000#5, 0b01001#5, 0b01010#5]
def moveOps : List (BitVec 5) := [0b10000#5, 0b10001#5]

/-- The row fixes the field at bits `lo` and up to `v`. -/
def fixes (r : Word × Word) (lo : Nat) {n : Nat} (v : BitVec n) : Bool :=
  r.2.extractLsb' lo n == BitVec.allOnes n && r.1.extractLsb' lo n == v

theorem instField_of_fixes {r : Word × Word} {lo n : Nat} {v : BitVec n} (hr : fixes r lo v) {w : Word}
    (h : w &&& r.2 = r.1) : instField w lo n = v := by
  simp only [fixes, Bool.and_eq_true, beq_iff_eq] at hr
  obtain ⟨hmask, hmatch⟩ := hr
  rw [instField_of_mask h lo n hmask, hmatch]

/-- The row fixes one of the patterns that 30_encoding.md R96 leaves to the instructions. -/
abbrev FixesForm (r : Word × Word) : Prop :=
  (fixes r 12 0b000#3 ∧ ∃ op5 ∈ packedOps, fixes r 27 op5) ∨
  (fixes r 12 0b000#3 ∧ ∃ op5 ∈ bitwiseOps, fixes r 27 op5 ∧ fixes r 25 0b00#2) ∨
  (fixes r 12 0b000#3 ∧ ∃ op5 ∈ moveOps, fixes r 27 op5 ∧ fixes r 25 0b00#2 ∧ fixes r 20 0b00000#5) ∨
  (fixes r 12 0b001#3 ∧ fixes r 28 0b0000#4) ∨
  (fixes r 12 0b010#3 ∨ fixes r 12 0b101#3) ∨
  (fixes r 12 0b011#3 ∧ fixes r 21 0b0#1 ∨ fixes r 12 0b110#3 ∧ fixes r 8 0b0#1) ∨
  (fixes r 12 0b100#3 ∧ fixes r 20 0b00#2 ∨ fixes r 12 0b111#3 ∧ fixes r 7 0b00#2)

theorem opcodeRows_fix_opcode : opcodeRows.Forall (fixes · 0 Config.opcode) := by decide

theorem opcodeRows_fix_form : opcodeRows.Forall FixesForm := by decide

section
variable {w : Word} (h0 : instField w 0 7 = Config.opcode)
include h0

theorem decode_eq_decodeIse : decode w = decodeIse w := if_pos h0

theorem decode_eq_decodeXR (h12 : instField w 12 3 = 0b000#3) : decode w = decodeXR w :=
  (decode_eq_decodeIse h0).trans (if_pos h12)

theorem decode_packed (h12 : instField w 12 3 = 0b000#3) (h27 : instField w 27 5 ∈ packedOps) :
    ∃ i, decode w = .instr i := by
  rw [decode_eq_decodeXR h0 h12]
  simp only [packedOps, List.mem_cons, List.not_mem_nil, or_false] at h27
  rcases h27 with h27 | h27 | h27 | h27 | h27 | h27 <;> simp [decodeXR, h27]

theorem decode_bitwise (h12 : instField w 12 3 = 0b000#3) (h27 : instField w 27 5 ∈ bitwiseOps)
    (h25 : instField w 25 2 = 0b00#2) : ∃ i, decode w = .instr i := by
  rw [decode_eq_decodeXR h0 h12]
  simp only [bitwiseOps, List.mem_cons, List.not_mem_nil, or_false] at h27
  rcases h27 with h27 | h27 | h27 <;> simp [decodeXR, widthZero, h27, h25]

theorem decode_move (h12 : instField w 12 3 = 0b000#3) (h27 : instField w 27 5 ∈ moveOps)
    (h25 : instField w 25 2 = 0b00#2) (h20 : instField w 20 5 = 0b00000#5) : ∃ i, decode w = .instr i := by
  rw [decode_eq_decodeXR h0 h12]
  simp only [moveOps, List.mem_cons, List.not_mem_nil, or_false] at h27
  rcases h27 with h27 | h27 <;> simp [decodeXR, widthZero, rs2Zero, h27, h25, h20]

theorem decode_twid (h12 : instField w 12 3 = 0b001#3) (h28 : instField w 28 4 = 0b0000#4) :
    ∃ i, decode w = .instr i := by
  rw [decode_eq_decodeIse h0]
  simp [decodeIse, decodeXT, h12, h28]

theorem decode_byteForm (h12 : instField w 12 3 = 0b010#3 ∨ instField w 12 3 = 0b101#3) :
    ∃ i, decode w = .instr i := by
  rw [decode_eq_decodeIse h0]
  rcases h12 with h12 | h12 <;> simp [decodeIse, h12]

theorem decode_halfForm (h : instField w 12 3 = 0b011#3 ∧ instField w 21 1 = 0b0#1 ∨
    instField w 12 3 = 0b110#3 ∧ instField w 8 1 = 0b0#1) : ∃ i, decode w = .instr i := by
  rw [decode_eq_decodeIse h0]
  rcases h with ⟨h12, hsel⟩ | ⟨h12, hsel⟩ <;> simp [decodeIse, halfSel, extractLsb'_instField, h12, hsel]

theorem decode_wordForm (h : instField w 12 3 = 0b100#3 ∧ instField w 20 2 = 0b00#2 ∨
    instField w 12 3 = 0b111#3 ∧ instField w 7 2 = 0b00#2) : ∃ i, decode w = .instr i := by
  rw [decode_eq_decodeIse h0]
  rcases h with ⟨h12, hsel⟩ | ⟨h12, hsel⟩ <;> simp [decodeIse, wordSel, h12, hsel]

end

/-- A word that satisfies a row of the table decodes to an instruction. -/
theorem decode_of_row {r : Word × Word} (hr : r ∈ opcodeRows) {w : Word} (h : w &&& r.2 = r.1) :
    ∃ i, decode w = .instr i := by
  have fixed {lo n : Nat} {v : BitVec n} (hv : fixes r lo v) : instField w lo n = v := instField_of_fixes hv h
  have h0 := fixed (List.forall_iff_forall_mem.mp opcodeRows_fix_opcode r hr)
  rcases List.forall_iff_forall_mem.mp opcodeRows_fix_form r hr with
    ⟨h12, op5, hop, h27⟩ | ⟨h12, op5, hop, h27, h25⟩ | ⟨h12, op5, hop, h27, h25, h20⟩ | ⟨h12, h28⟩ | h12 | hsel | hsel
  · exact decode_packed h0 (fixed h12) (fixed h27 ▸ hop)
  · exact decode_bitwise h0 (fixed h12) (fixed h27 ▸ hop) (fixed h25)
  · exact decode_move h0 (fixed h12) (fixed h27 ▸ hop) (fixed h25) (fixed h20)
  · exact decode_twid h0 (fixed h12) (fixed h28)
  · exact decode_byteForm h0 (h12.imp fixed fixed)
  · exact decode_halfForm h0 (hsel.imp (And.imp fixed fixed) (And.imp fixed fixed))
  · exact decode_wordForm h0 (hsel.imp (And.imp fixed fixed) (And.imp fixed fixed))

/-! ## The statement -/

/-- Settles O42: a word that satisfies a row decodes to an instruction, the word satisfies that instruction's row too,
and since no word satisfies two rows it is the same row. -/
theorem opcodeTableDecides : Obligations.OpcodeTableDecides := by
  refine ⟨fun r hr w => ⟨?decodes, ?satisfies⟩, fun r hr r' hr' w => opcodeRows_exclusive hr hr', ?listed⟩
  case decodes =>
    intro h
    obtain ⟨i, hi⟩ := decode_of_row hr h
    obtain ⟨r', hr', h'⟩ := inRow_decode w i hi
    have heq := opcodeRows_exclusive hr (mem_opcodeRows_of_rowOf hr') h h'
    exact ⟨i, hi, heq ▸ hr'⟩
  case satisfies =>
    rintro ⟨i, hi, hrow⟩
    obtain ⟨r', hr', h'⟩ := inRow_decode w i hi
    have heq : r = r' := Option.some.inj (hrow.symm.trans hr')
    exact heq ▸ h'
  case listed =>
    intro w i hi
    obtain ⟨r, hr, -⟩ := inRow_decode w i hi
    exact ⟨r, mem_opcodeRows_of_rowOf hr, hr⟩

end Sys2Proof.Claims
end

section
/-! The moves of 40_move.md, R121 and R122. -/

namespace Sys2Proof.Claims

open Machine

/-! ## What a completed write of a register leaves unchanged -/

/-- The case `x[0]` made explicit in a read (10_state.md R20). -/
theorem gpr_eq_ite (s : State) (i : GprNum) : s.gpr i = if i = 0 then 0 else s.gpr i := by
  split
  case isTrue h0 => rw [h0, gpr_zero]
  case isFalse => rfl

/-- A write to `x[i]` leaves every other general purpose register (10_state.md R21). -/
theorem gpr_setGpr_other {i j : GprNum} (h : j ≠ i) (s : State) (v : Word) : (s.setGpr i v).gpr j = s.gpr j := by
  rw [gpr_setGpr, if_neg h, ← gpr_eq_ite]

/-- An instruction whose effect is a write of a whole view completes, with the value written in the view. -/
theorem completes_setCpr (rd : CprAddr) {P : Word → Prop} (s : State) {v : Word} (hv : P v) :
    Completes rd P s (retire (s.setCpr rd v)) := by
  refine ⟨(s.setCpr rd v).advance, retire_eq _, ?view, ?others, ⟨?gprs, ?memory, ?_, ?_, ?_⟩, ?_, ?_⟩
  case view => simpa using hv
  case others => exact fun n k hk => storedByte_setCpr_other s rd v n k hk
  case gprs => exact gpr_congr (setCpr_x s rd v)
  case memory => exact byteAt_congr (setCpr_mem s rd v)
  all_goals simp

/-! ## The move instructions, in the executor and in the decoder -/

theorem exec_mvcop (gpr : GprNum) (cpr : CprAddr) (s : State) :
    exec (.mvcop gpr cpr) s = retire (s.setGpr gpr (s.cpr cpr)) := rfl

theorem exec_mvgpr (cpr : CprAddr) (gpr : GprNum) (s : State) :
    exec (.mvgpr cpr gpr) s = retire (s.setCpr cpr (s.gpr gpr)) := rfl

/-- A word that satisfies a row of format XR is decoded by its `op5` and width (30_encoding.md R85, R91, R92). -/
theorem decode_of_xrRow {r : Word × Word} {op5 : BitVec 5} {width : BitVec 2}
    (hr : ∀ f ∈ xrFields op5 width, fixes r f.lo f.value) {w : Word} (h : w &&& r.2 = r.1) :
    decode w = decodeXR w ∧ instField w 27 5 = op5 ∧ instField w 25 2 = width := by
  simp only [xrFields, List.forall_mem_cons] at hr
  obtain ⟨h0, h12, h27, h25, -⟩ := hr
  have field {lo n : Nat} {v : BitVec n} (hv : fixes r lo v) : instField w lo n = v := instField_of_fixes hv h
  exact ⟨decode_eq_decodeXR (field h0) (field h12), field h27, field h25⟩

theorem decodeXR_mvcop {w : Word} (h27 : instField w 27 5 = 0b10000#5) (h25 : instField w 25 2 = 0b00#2)
    (h20 : instField w 20 5 = 0b00000#5) :
    decodeXR w = .instr (.mvcop (instField w 7 5).toFin (instField w 15 5)) := by
  simp [decodeXR, widthZero, rs2Zero, h27, h25, h20]

theorem decodeXR_mvgpr {w : Word} (h27 : instField w 27 5 = 0b10001#5) (h25 : instField w 25 2 = 0b00#2)
    (h20 : instField w 20 5 = 0b00000#5) :
    decodeXR w = .instr (.mvgpr (instField w 7 5) (instField w 15 5).toFin) := by
  simp [decodeXR, widthZero, rs2Zero, h27, h25, h20]

theorem encodedAs_mvcop : EncodedAs 0xFFF0707F 0x8000002B (fun w => .mvcop (rdOf w).toFin (rs1Of w)) := by
  intro w h
  obtain ⟨hw, h27, h25⟩ := decode_of_xrRow (r := (0x8000002B, 0xFFF0707F)) (op5 := 0b10000#5) (width := 0b00#2)
    (by decide) h
  have h20 : instField w 20 5 = 0b00000#5 := instField_of_mask h 20 5 (by decide)
  exact hw.trans (decodeXR_mvcop h27 h25 h20)

theorem encodedAs_mvgpr : EncodedAs 0xFFF0707F 0x8800002B (fun w => .mvgpr (rdOf w) (rs1Of w).toFin) := by
  intro w h
  obtain ⟨hw, h27, h25⟩ := decode_of_xrRow (r := (0x8800002B, 0xFFF0707F)) (op5 := 0b10001#5) (width := 0b00#2)
    (by decide) h
  have h20 : instField w 20 5 = 0b00000#5 := instField_of_mask h 20 5 (by decide)
  exact hw.trans (decodeXR_mvgpr h27 h25 h20)

/-! ## The statements -/

/-- Settles O6: MVCOP retires with one GPR write, whose read-back and frame are those of `State.setGpr`. -/
theorem mvcopResult : Obligations.MvcopResult := by
  refine ⟨fun gpr cpr s => ?_, encodedAs_mvcop⟩
  refine ⟨(s.setGpr gpr (s.cpr cpr)).advance, exec_mvcop gpr cpr s, ?result, ?gprs, ?_, ?memory, ?_, ?_, ?_, ?_, ?_⟩
  case result => rw [gpr_advance, gpr_setGpr, if_pos rfl]
  case gprs => exact fun j hj => (gpr_advance _ j).trans (gpr_setGpr_other hj s _)
  case memory => exact byteAt_congr (setGpr_mem s gpr _)
  all_goals simp

/-- Settles O7: MVGPR retires with one write of a view, of the value `x[gpr]` reads as. -/
theorem mvgprResult : Obligations.MvgprResult := by
  refine ⟨fun cpr gpr s => ?_, encodedAs_mvgpr⟩
  rw [exec_mvgpr]
  exact completes_setCpr cpr s (gpr_eq_ite s gpr)

end Sys2Proof.Claims
end

section
/-! The packed arithmetic of 41_packed_arithmetic.md, R130 to R158. -/

namespace Sys2Proof.Claims

open Machine

/-! ## The forms of each operation, by packing -/

/-- ADD.pN (41_packed_arithmetic.md R133 to R136). -/
def addForm : Packing → CprAddr → CprAddr → CprAddr → Instr
  | .p1 => .addP1
  | .p2 => .addP2
  | .p4 => .addP4
  | .p8 => .addP8

/-- SUB.pN (41_packed_arithmetic.md R137 to R140). -/
def subForm : Packing → CprAddr → CprAddr → CprAddr → Instr
  | .p1 => .subP1
  | .p2 => .subP2
  | .p4 => .subP4
  | .p8 => .subP8

/-- MUL.pN (41_packed_arithmetic.md R141 to R144). -/
def mulForm : Packing → CprAddr → CprAddr → CprAddr → Instr
  | .p1 => .mulP1
  | .p2 => .mulP2
  | .p4 => .mulP4
  | .p8 => .mulP8

/-- SLL.pN (41_packed_arithmetic.md R146 to R149). -/
def sllForm : Packing → CprAddr → CprAddr → Fin 32 → Instr
  | .p1 => .sllP1
  | .p2 => .sllP2
  | .p4 => .sllP4
  | .p8 => .sllP8

/-- SRL.pN (41_packed_arithmetic.md R150 to R153). -/
def srlForm : Packing → CprAddr → CprAddr → Fin 32 → Instr
  | .p1 => .srlP1
  | .p2 => .srlP2
  | .p4 => .srlP4
  | .p8 => .srlP8

/-- ROT.pN (41_packed_arithmetic.md R155 to R158). -/
def rotForm : Packing → CprAddr → CprAddr → Fin 32 → Instr
  | .p1 => .rotP1
  | .p2 => .rotP2
  | .p4 => .rotP4
  | .p8 => .rotP8

theorem exec_addForm (p : Packing) (rd rs1 rs2 : CprAddr) (s : State) :
    exec (addForm p rd rs1 rs2) s = packedArith p laneAdd rd rs1 rs2 s := by
  cases p <;> rfl

theorem exec_subForm (p : Packing) (rd rs1 rs2 : CprAddr) (s : State) :
    exec (subForm p rd rs1 rs2) s = packedArith p laneSub rd rs1 rs2 s := by
  cases p <;> rfl

theorem exec_mulForm (p : Packing) (rd rs1 rs2 : CprAddr) (s : State) :
    exec (mulForm p rd rs1 rs2) s = packedArith p laneMul rd rs1 rs2 s := by
  cases p <;> rfl

theorem exec_sllForm (p : Packing) (rd rs1 : CprAddr) (shamt : Fin 32) (s : State) :
    exec (sllForm p rd rs1 shamt) s = packedShift p laneShl rd rs1 shamt s := by
  cases p <;> rfl

theorem exec_srlForm (p : Packing) (rd rs1 : CprAddr) (shamt : Fin 32) (s : State) :
    exec (srlForm p rd rs1 shamt) s = packedShift p laneShr rd rs1 shamt s := by
  cases p <;> rfl

theorem exec_rotForm (p : Packing) (rd rs1 : CprAddr) (shamt : Fin 32) (s : State) :
    exec (rotForm p rd rs1 shamt) s = packedShift p (laneRot s.platform.rotDir) rd rs1 shamt s := by
  cases p <;> rfl

/-! ## The operations on one field, as arithmetic on numbers -/

section
variable {W : Nat} (a b : BitVec W)

theorem toNat_laneAdd : (laneAdd a b).toNat = (a.toNat + b.toNat) % 2 ^ W := BitVec.toNat_add a b

theorem toNat_laneSub : (laneSub a b).toNat = (a.toNat + 2 ^ W - b.toNat) % 2 ^ W := by
  have hb : b.toNat < 2 ^ W := b.isLt
  have hsum : 2 ^ W - b.toNat + a.toNat = a.toNat + 2 ^ W - b.toNat := by omega
  rw [laneSub, BitVec.toNat_sub, hsum]

theorem toNat_laneMul : (laneMul a b).toNat = a.toNat * b.toNat % 2 ^ W := BitVec.toNat_mul a b

theorem toNat_laneShl (k : Nat) : (laneShl k a).toNat = a.toNat * 2 ^ k % 2 ^ W := by
  rw [laneShl, BitVec.toNat_shiftLeft, Nat.shiftLeft_eq]

theorem toNat_laneShr (k : Nat) : (laneShr k a).toNat = a.toNat / 2 ^ k := by
  rw [laneShr, BitVec.toNat_ushiftRight, Nat.shiftRight_eq_div_pow]

/-- A right shift stays below 2^W, so a reduction modulo 2^W of a rotation bears on its left shift only. -/
theorem toNat_shiftRight_mod (k : Nat) : (a.toNat >>> k) % 2 ^ W = a.toNat >>> k :=
  Nat.mod_eq_of_lt ((Nat.shiftRight_le _ _).trans_lt a.isLt)

/-- A rotation by 0 leaves the field: the other shift, by the whole width, leaves no bit. -/
theorem laneRot_zero (d : RotDir) : laneRot d 0 a = a := by
  cases d with
  | left => simp [laneRot, BitVec.ushiftRight_eq_zero]
  | right => simp [laneRot]

theorem rotNat_zero (d : RotDir) (f : Nat) : rotNat d W f 0 = f := if_pos rfl

theorem rotNat_left {k : Nat} (hk : k ≠ 0) (f : Nat) :
    rotNat .left W f k = ((f <<< k) ||| (f >>> (W - k))) % 2 ^ W := if_neg hk

theorem rotNat_right {k : Nat} (hk : k ≠ 0) (f : Nat) :
    rotNat .right W f k = ((f >>> k) ||| (f <<< (W - k))) % 2 ^ W := if_neg hk

theorem toNat_laneRot (d : RotDir) (k : Nat) : (laneRot d k a).toNat = rotNat d W a.toNat k := by
  by_cases hk : k = 0
  · rw [hk, laneRot_zero, rotNat_zero]
  · cases d with
    | left =>
      rw [rotNat_left hk, Nat.or_mod_two_pow, toNat_shiftRight_mod]
      simp [laneRot]
    | right =>
      rw [rotNat_right hk, Nat.or_mod_two_pow, toNat_shiftRight_mod]
      simp [laneRot]

end

/-! ## The packed results, field by field -/

/-- The field of the statements is the field of the model. -/
theorem fieldNat_eq (p : Packing) (v : Word) (i : Nat) : fieldNat (fieldWidth p) v i = (field p v i).toNat :=
  (field_toNat p v i).symm

theorem fields2_packed2 {p : Packing} {f : BitVec (fieldWidth p) → BitVec (fieldWidth p) → BitVec (fieldWidth p)}
    {g : Nat → Nat → Nat} (hfg : ∀ x y, (f x y).toNat = g x.toNat y.toNat) (a b : Word) :
    Fields2 (fieldWidth p) (fieldCount p) g a b (packed2 p f a b) := by
  intro i hi
  simp only [fieldNat_eq, field_packed2 p f a b i hi, hfg]

theorem fields1_packed1 {p : Packing} {f : BitVec (fieldWidth p) → BitVec (fieldWidth p)} {g : Nat → Nat}
    (hfg : ∀ x, (f x).toNat = g x.toNat) (a : Word) :
    Fields1 (fieldWidth p) (fieldCount p) g a (packed1 p f a) := by
  intro i hi
  simp only [fieldNat_eq, field_packed1 p f a i hi, hfg]

/-- A packed operation on two views completes with the operation's fields. -/
theorem completes_packedArith {p : Packing} {f : BitVec (fieldWidth p) → BitVec (fieldWidth p) → BitVec (fieldWidth p)}
    {g : Nat → Nat → Nat} (hfg : ∀ x y, (f x y).toNat = g x.toNat y.toNat) (rd rs1 rs2 : CprAddr) (s : State) :
    Completes rd (Fields2 (fieldWidth p) (fieldCount p) g (s.cpr rs1) (s.cpr rs2)) s (packedArith p f rd rs1 rs2 s) :=
  completes_setCpr rd s (fields2_packed2 hfg _ _)

/-- A free value drawn into a view completes; the draw is the only difference from a write of the view. -/
theorem completesDrawn_drawDest (rd : CprAddr) (s : State) : CompletesDrawn rd s (drawDest rd s) := by
  obtain ⟨t, hnext, hview, hothers, houtside, hdraws, hpc⟩ :=
    completes_setCpr rd (P := fun r => r = s.drawn) s.noteDraw rfl
  exact ⟨t, hnext, hview, hothers, houtside, hdraws, hpc⟩

section
variable {p : Packing} {f : Nat → BitVec (fieldWidth p) → BitVec (fieldWidth p)} {shamt : Fin 32} (rd rs1 : CprAddr)
  (s : State)

/-- A shift or rotate by less than the field width completes with the operation's fields. -/
theorem completes_packedShift {g : Nat → Nat} (hfg : ∀ x, (f shamt.val x).toNat = g x.toNat)
    (hlt : shamt.val < fieldWidth p) :
    Completes rd (Fields1 (fieldWidth p) (fieldCount p) g (s.cpr rs1)) s (packedShift p f rd rs1 shamt s) := by
  rw [packedShift, if_pos hlt]
  exact completes_setCpr rd s (fields1_packed1 hfg _)

/-- A shift or rotate by the field width or more draws its result (41_packed_arithmetic.md R145, R154). -/
theorem completesDrawn_packedShift (hge : fieldWidth p ≤ shamt.val) :
    CompletesDrawn rd s (packedShift p f rd rs1 shamt s) := by
  rw [packedShift, if_neg (Nat.not_lt.mpr hge)]
  exact completesDrawn_drawDest rd s

end

/-! ## The encodings -/

/-- The width field of a packing (30_encoding.md R92). -/
def widthOf : Packing → BitVec 2
  | .p1 => 0b00#2
  | .p2 => 0b01#2
  | .p4 => 0b10#2
  | .p8 => 0b11#2

theorem byWidth_widthOf (p : Packing) (form : Packing → Instr) :
    byWidth (widthOf p) (form .p1) (form .p2) (form .p4) (form .p8) = form p := by
  cases p <;> rfl

/-- The row of a packed form fixes the fields it is made of. -/
theorem xrRow_fixes_fields : ∀ op5 ∈ packedOps, ∀ width : BitVec 2, ∀ f ∈ xrFields op5 width,
    fixes (rowOfFields (xrFields op5 width)) f.lo f.value := by decide

/-- A packed form fixes `op5`, the width, `f3` and the opcode, so all have one mask (30_encoding.md R97). -/
theorem xrRow_mask (op5 : BitVec 5) (width : BitVec 2) : (rowOfFields (xrFields op5 width)).2 = 0xFE00707F := by
  simp only [xrFields, rowOfFields, List.foldr]
  decide

/-- If the decoder answers `op5` with a form chosen by the width, each form has the row of `op5` and its width. -/
theorem encodedAs_packed {op5 : BitVec 5} (hop : op5 ∈ packedOps) {form : Packing → Word → Instr}
    (hdecode : ∀ w, instField w 27 5 = op5 →
      decodeXR w = .instr (byWidth (instField w 25 2) (form .p1 w) (form .p2 w) (form .p4 w) (form .p8 w)))
    (p : Packing) : EncodedAs 0xFE00707F (rowOfFields (xrFields op5 (widthOf p))).1 (form p) := by
  intro w h
  rw [← xrRow_mask op5 (widthOf p)] at h
  obtain ⟨hw, h27, h25⟩ := decode_of_xrRow (xrRow_fixes_fields op5 hop (widthOf p)) h
  rw [hw, hdecode w h27, h25, byWidth_widthOf p (form · w)]

theorem encodedAs_addForm (p : Packing) :
    EncodedAs 0xFE00707F (rowOfFields (xrFields 0b00000#5 (widthOf p))).1
      (fun w => addForm p (rdOf w) (rs1Of w) (rs2Of w)) :=
  encodedAs_packed (by decide) (form := fun p w => addForm p (rdOf w) (rs1Of w) (rs2Of w))
    (fun w h27 => by simp only [decodeXR, h27]; rfl) p

theorem encodedAs_subForm (p : Packing) :
    EncodedAs 0xFE00707F (rowOfFields (xrFields 0b00001#5 (widthOf p))).1
      (fun w => subForm p (rdOf w) (rs1Of w) (rs2Of w)) :=
  encodedAs_packed (by decide) (form := fun p w => subForm p (rdOf w) (rs1Of w) (rs2Of w))
    (fun w h27 => by simp only [decodeXR, h27]; rfl) p

theorem encodedAs_mulForm (p : Packing) :
    EncodedAs 0xFE00707F (rowOfFields (xrFields 0b00010#5 (widthOf p))).1
      (fun w => mulForm p (rdOf w) (rs1Of w) (rs2Of w)) :=
  encodedAs_packed (by decide) (form := fun p w => mulForm p (rdOf w) (rs1Of w) (rs2Of w))
    (fun w h27 => by simp only [decodeXR, h27]; rfl) p

theorem encodedAs_sllForm (p : Packing) :
    EncodedAs 0xFE00707F (rowOfFields (xrFields 0b00011#5 (widthOf p))).1
      (fun w => sllForm p (rdOf w) (rs1Of w) (rs2Of w).toFin) :=
  encodedAs_packed (by decide) (form := fun p w => sllForm p (rdOf w) (rs1Of w) (rs2Of w).toFin)
    (fun w h27 => by simp only [decodeXR, h27]; rfl) p

theorem encodedAs_srlForm (p : Packing) :
    EncodedAs 0xFE00707F (rowOfFields (xrFields 0b00100#5 (widthOf p))).1
      (fun w => srlForm p (rdOf w) (rs1Of w) (rs2Of w).toFin) :=
  encodedAs_packed (by decide) (form := fun p w => srlForm p (rdOf w) (rs1Of w) (rs2Of w).toFin)
    (fun w h27 => by simp only [decodeXR, h27]; rfl) p

theorem encodedAs_rotForm (p : Packing) :
    EncodedAs 0xFE00707F (rowOfFields (xrFields 0b00101#5 (widthOf p))).1
      (fun w => rotForm p (rdOf w) (rs1Of w) (rs2Of w).toFin) :=
  encodedAs_packed (by decide) (form := fun p w => rotForm p (rdOf w) (rs1Of w) (rs2Of w).toFin)
    (fun w h27 => by simp only [decodeXR, h27]; rfl) p

/-! ## Each operation at every packing -/

section
variable (p : Packing) (rd rs1 rs2 : CprAddr) (shamt : Fin 32) (s : State)

theorem completes_addForm :
    Completes rd (Fields2 (fieldWidth p) (fieldCount p) (fun a b => (a + b) % 2 ^ fieldWidth p) (s.cpr rs1) (s.cpr rs2)) s
      (exec (addForm p rd rs1 rs2) s) := by
  rw [exec_addForm]
  exact completes_packedArith toNat_laneAdd rd rs1 rs2 s

theorem completes_subForm :
    Completes rd (Fields2 (fieldWidth p) (fieldCount p) (fun a b => (a + 2 ^ fieldWidth p - b) % 2 ^ fieldWidth p)
      (s.cpr rs1) (s.cpr rs2)) s (exec (subForm p rd rs1 rs2) s) := by
  rw [exec_subForm]
  exact completes_packedArith toNat_laneSub rd rs1 rs2 s

theorem completes_mulForm :
    Completes rd (Fields2 (fieldWidth p) (fieldCount p) (fun a b => a * b % 2 ^ fieldWidth p) (s.cpr rs1) (s.cpr rs2)) s
      (exec (mulForm p rd rs1 rs2) s) := by
  rw [exec_mulForm]
  exact completes_packedArith toNat_laneMul rd rs1 rs2 s

theorem completes_sllForm (hlt : shamt.val < fieldWidth p) :
    Completes rd (Fields1 (fieldWidth p) (fieldCount p) (fun a => a * 2 ^ shamt.val % 2 ^ fieldWidth p) (s.cpr rs1)) s
      (exec (sllForm p rd rs1 shamt) s) := by
  rw [exec_sllForm]
  exact completes_packedShift rd rs1 s (fun x => toNat_laneShl x shamt.val) hlt

theorem completesDrawn_sllForm (hge : fieldWidth p ≤ shamt.val) :
    CompletesDrawn rd s (exec (sllForm p rd rs1 shamt) s) := by
  rw [exec_sllForm]
  exact completesDrawn_packedShift rd rs1 s hge

theorem completes_srlForm (hlt : shamt.val < fieldWidth p) :
    Completes rd (Fields1 (fieldWidth p) (fieldCount p) (fun a => a / 2 ^ shamt.val) (s.cpr rs1)) s
      (exec (srlForm p rd rs1 shamt) s) := by
  rw [exec_srlForm]
  exact completes_packedShift rd rs1 s (fun x => toNat_laneShr x shamt.val) hlt

theorem completesDrawn_srlForm (hge : fieldWidth p ≤ shamt.val) :
    CompletesDrawn rd s (exec (srlForm p rd rs1 shamt) s) := by
  rw [exec_srlForm]
  exact completesDrawn_packedShift rd rs1 s hge

theorem completes_rotForm (hlt : shamt.val < fieldWidth p) :
    Completes rd (Fields1 (fieldWidth p) (fieldCount p)
      (fun a => rotNat s.platform.rotDir (fieldWidth p) a shamt.val) (s.cpr rs1)) s (exec (rotForm p rd rs1 shamt) s) := by
  rw [exec_rotForm]
  exact completes_packedShift rd rs1 s (fun x => toNat_laneRot x s.platform.rotDir shamt.val) hlt

theorem completesDrawn_rotForm (hge : fieldWidth p ≤ shamt.val) :
    CompletesDrawn rd s (exec (rotForm p rd rs1 shamt) s) := by
  rw [exec_rotForm]
  exact completesDrawn_packedShift rd rs1 s hge

end

/-! ## The statements -/

/-- Settles O8: the addition of bit vectors is addition modulo 2^W in each field, at every packing. -/
theorem packedAddResult : Obligations.PackedAddResult := by
  refine ⟨fun rd rs1 rs2 s => ?results, encodedAs_addForm .p1, encodedAs_addForm .p2, encodedAs_addForm .p4,
    encodedAs_addForm .p8⟩
  exact ⟨completes_addForm .p8 rd rs1 rs2 s, completes_addForm .p4 rd rs1 rs2 s, completes_addForm .p2 rd rs1 rs2 s,
    completes_addForm .p1 rd rs1 rs2 s⟩

/-- Settles O9: a field of rs2 is below 2^W, so adding 2^W before the subtraction is subtracting modulo 2^W. -/
theorem packedSubResult : Obligations.PackedSubResult := by
  refine ⟨fun rd rs1 rs2 s => ?results, encodedAs_subForm .p1, encodedAs_subForm .p2, encodedAs_subForm .p4,
    encodedAs_subForm .p8⟩
  exact ⟨completes_subForm .p8 rd rs1 rs2 s, completes_subForm .p4 rd rs1 rs2 s, completes_subForm .p2 rd rs1 rs2 s,
    completes_subForm .p1 rd rs1 rs2 s⟩

/-- Settles O10: the product of bit vectors keeps the low W bits in each field, at every packing. -/
theorem packedMulResult : Obligations.PackedMulResult := by
  refine ⟨fun rd rs1 rs2 s => ?results, encodedAs_mulForm .p1, encodedAs_mulForm .p2, encodedAs_mulForm .p4,
    encodedAs_mulForm .p8⟩
  exact ⟨completes_mulForm .p8 rd rs1 rs2 s, completes_mulForm .p4 rd rs1 rs2 s, completes_mulForm .p2 rd rs1 rs2 s,
    completes_mulForm .p1 rd rs1 rs2 s⟩

/-- Settles O11: a distance below W multiplies each field by a power of 2 modulo 2^W, any other draws the view; at
.p1 no distance reaches the width. -/
theorem packedShiftLeftResult : Obligations.PackedShiftLeftResult := by
  refine ⟨fun rd rs1 shamt s => ?results, encodedAs_sllForm .p1, encodedAs_sllForm .p2, encodedAs_sllForm .p4,
    encodedAs_sllForm .p8⟩
  exact ⟨completes_sllForm .p8 rd rs1 shamt s, completesDrawn_sllForm .p8 rd rs1 shamt s,
    completes_sllForm .p4 rd rs1 shamt s, completesDrawn_sllForm .p4 rd rs1 shamt s,
    completes_sllForm .p2 rd rs1 shamt s, completesDrawn_sllForm .p2 rd rs1 shamt s,
    completes_sllForm .p1 rd rs1 shamt s shamt.isLt⟩

/-- Settles O12: a distance below W divides each field by a power of 2, any other draws the view. -/
theorem packedShiftRightResult : Obligations.PackedShiftRightResult := by
  refine ⟨fun rd rs1 shamt s => ?results, encodedAs_srlForm .p1, encodedAs_srlForm .p2, encodedAs_srlForm .p4,
    encodedAs_srlForm .p8⟩
  exact ⟨completes_srlForm .p8 rd rs1 shamt s, completesDrawn_srlForm .p8 rd rs1 shamt s,
    completes_srlForm .p4 rd rs1 shamt s, completesDrawn_srlForm .p4 rd rs1 shamt s,
    completes_srlForm .p2 rd rs1 shamt s, completesDrawn_srlForm .p2 rd rs1 shamt s,
    completes_srlForm .p1 rd rs1 shamt s shamt.isLt⟩

/-- Settles O13: a distance below W rotates each field as `rotNat` does, the distance 0 included; any other draws the
view. -/
theorem packedRotateResult : Obligations.PackedRotateResult := by
  refine ⟨fun rd rs1 shamt s => ?results, encodedAs_rotForm .p1, encodedAs_rotForm .p2, encodedAs_rotForm .p4,
    encodedAs_rotForm .p8⟩
  exact ⟨completes_rotForm .p8 rd rs1 shamt s, completesDrawn_rotForm .p8 rd rs1 shamt s,
    completes_rotForm .p4 rd rs1 shamt s, completesDrawn_rotForm .p4 rd rs1 shamt s,
    completes_rotForm .p2 rd rs1 shamt s, completesDrawn_rotForm .p2 rd rs1 shamt s,
    completes_rotForm .p1 rd rs1 shamt s shamt.isLt⟩

end Sys2Proof.Claims
end

section
/-! The bitwise and twiddle instructions of 42_bitwise_twiddle.md, R169 to R173. -/

namespace Sys2Proof.Claims

open Machine

/-! ## The results, bit by bit and byte by byte -/

theorem exec_xort (rd rs1 rs2 : CprAddr) (s : State) :
    exec (.xort rd rs1 rs2) s = bitwise (fun a b => a ^^^ b) rd rs1 rs2 s := rfl

theorem exec_andt (rd rs1 rs2 : CprAddr) (s : State) :
    exec (.andt rd rs1 rs2) s = bitwise (fun a b => a &&& b) rd rs1 rs2 s := rfl

theorem exec_ort (rd rs1 rs2 : CprAddr) (s : State) :
    exec (.ort rd rs1 rs2) s = bitwise (fun a b => a ||| b) rd rs1 rs2 s := rfl

theorem exec_twid (rd rs1 : CprAddr) (b0 b1 b2 b3 : ByteIdx) (s : State) :
    exec (.twid rd rs1 b0 b1 b2 b3) s = retire (s.setCpr rd (twiddle (s.cpr rs1) b0 b1 b2 b3)) := rfl

/-- If `f` acts on each bit as `g` does, the instruction of `f` completes with `g` of the two views' bits. -/
theorem completes_bitwise {f : Word → Word → Word} {g : Bool → Bool → Bool}
    (hfg : ∀ a b i, (f a b).getLsbD i = g (a.getLsbD i) (b.getLsbD i)) (rd rs1 rs2 : CprAddr) (s : State) :
    Completes rd (fun r => ∀ i < 32, r.getLsbD i = g ((s.cpr rs1).getLsbD i) ((s.cpr rs2).getLsbD i)) s
      (bitwise f rd rs1 rs2 s) :=
  completes_setCpr rd s (fun i _ => hfg _ _ i)

theorem bytes_twiddle (v : Word) (b0 b1 b2 b3 : ByteIdx) :
    byte (twiddle v b0 b1 b2 b3) 0 = byte v b0 ∧ byte (twiddle v b0 b1 b2 b3) 1 = byte v b1 ∧
      byte (twiddle v b0 b1 b2 b3) 2 = byte v b2 ∧ byte (twiddle v b0 b1 b2 b3) 3 = byte v b3 :=
  ⟨byte_wordOfBytes_zero .., byte_wordOfBytes_one .., byte_wordOfBytes_two .., byte_wordOfBytes_three ..⟩

/-! ## The encodings -/

/-- A form of format XR that is legal at width 00 only is encoded by the row of its `op5` and that width. -/
theorem encodedAs_widthZero {op5 : BitVec 5} {mask m : Word}
    (hrow : ∀ f ∈ xrFields op5 0b00#2, fixes (m, mask) f.lo f.value) {form : Word → Instr}
    (hdecode : ∀ w, instField w 27 5 = op5 → decodeXR w = widthZero w (.instr (form w))) : EncodedAs mask m form := by
  intro w h
  obtain ⟨hw, h27, h25⟩ := decode_of_xrRow hrow h
  rw [hw, hdecode w h27, widthZero, if_pos h25]

theorem encodedAs_xort : EncodedAs 0xFE00707F 0x4000002B (fun w => .xort (rdOf w) (rs1Of w) (rs2Of w)) :=
  encodedAs_widthZero (op5 := 0b01000#5) (by decide) fun w h27 => by simp only [decodeXR, h27]; rfl

theorem encodedAs_andt : EncodedAs 0xFE00707F 0x4800002B (fun w => .andt (rdOf w) (rs1Of w) (rs2Of w)) :=
  encodedAs_widthZero (op5 := 0b01001#5) (by decide) fun w h27 => by simp only [decodeXR, h27]; rfl

theorem encodedAs_ort : EncodedAs 0xFE00707F 0x5000002B (fun w => .ort (rdOf w) (rs1Of w) (rs2Of w)) :=
  encodedAs_widthZero (op5 := 0b01010#5) (by decide) fun w h27 => by simp only [decodeXR, h27]; rfl

theorem decode_eq_decodeXT {w : Word} (h0 : instField w 0 7 = Config.opcode) (h12 : instField w 12 3 = 0b001#3) :
    decode w = decodeXT w := by
  rw [decode_eq_decodeIse h0]
  simp [decodeIse, h12]

/-- The row of TWID fixes the opcode, `f3` and the four top bits; the selectors are free, `b0` lowest
(30_encoding.md R86, R95). -/
theorem encodedAs_twid : EncodedAs 0xF000707F 0x0000102B (fun w => .twid (rdOf w) (rs1Of w)
    (w.extractLsb' 20 2).toFin (w.extractLsb' 22 2).toFin (w.extractLsb' 24 2).toFin (w.extractLsb' 26 2).toFin) := by
  intro w h
  have h0 : instField w 0 7 = Config.opcode := instField_of_mask h 0 7 (by decide)
  have h12 : instField w 12 3 = 0b001#3 := instField_of_mask h 12 3 (by decide)
  have h28 : instField w 28 4 = 0b0000#4 := instField_of_mask h 28 4 (by decide)
  exact (decode_eq_decodeXT h0 h12).trans (if_pos h28)

/-! ## The statements -/

/-- Settles O16: each operation on words acts on every bit alone, and its result is written to the whole view. -/
theorem bitwiseResult : Obligations.BitwiseResult := by
  refine ⟨fun rd rs1 rs2 s => ⟨?xort, ?andt, ?ort⟩, encodedAs_xort, encodedAs_andt, encodedAs_ort⟩
  case xort =>
    rw [exec_xort]
    exact completes_bitwise (fun _ _ _ => BitVec.getLsbD_xor) rd rs1 rs2 s
  case andt =>
    rw [exec_andt]
    exact completes_bitwise (fun _ _ _ => BitVec.getLsbD_and) rd rs1 rs2 s
  case ort =>
    rw [exec_ort]
    exact completes_bitwise (fun _ _ _ => BitVec.getLsbD_or) rd rs1 rs2 s

/-- Settles O17: TWID writes the word of the four selected bytes to the whole view. -/
theorem twiddleResult : Obligations.TwiddleResult := by
  refine ⟨fun rd rs1 b0 b1 b2 b3 s => ?_, encodedAs_twid⟩
  rw [exec_twid]
  exact completes_setCpr rd s (bytes_twiddle (s.cpr rs1) b0 b1 b2 b3)

end Sys2Proof.Claims
end

section
/-! The named-only instructions of 43_multiprecision.md, R189, and 44_memory_access.md, R205 and R206. -/

namespace Sys2Proof.Claims

open Machine

/-- The eleven instructions that the spec names and gives no operands, no effect and no encoding. -/
def namedOnlyInstrs : List Instr :=
  [.addM, .subM, .accM, .macM, .sllM, .srlM, .equM, .ltuM, .gtuM, .scatter, .gather]

theorem encode_namedOnly : ∀ i ∈ namedOnlyInstrs, encode i = none := by decide

/-- None of them has a row in the table of 30_encoding.md R97. -/
theorem rowOf_namedOnly : ∀ i ∈ namedOnlyInstrs, rowOf i = none := by decide

/-- The decoder answers no instruction without a row in the table of R97. -/
theorem decode_ne_of_rowOf_none {i : Instr} (hrow : rowOf i = none) (w : Word) : decode w ≠ .instr i := by
  intro hdec
  obtain ⟨r, hr, -⟩ := inRow_decode w i hdec
  exact nomatch hrow.symm.trans hr

/-- Settles O25: each of the eleven arms of `exec` is `refuseNamedOnly` of its mnemonic, whatever the state. For the
encoding, none of the eleven has a row of R97, and every instruction that a word decodes to has one. -/
theorem namedOnlyRefused : Obligations.NamedOnlyRefused := by
  refine ⟨fun s => ?refused, fun w i hi => ⟨?unencoded, ?undecoded⟩⟩
  case refused => exact ⟨rfl, rfl, rfl, rfl, rfl, rfl, rfl, rfl, rfl, rfl, rfl⟩
  case unencoded => exact encode_namedOnly i hi
  case undecoded => exact decode_ne_of_rowOf_none (rowOf_namedOnly i hi) w

end Sys2Proof.Claims
end

section
/-! The loads of 44_memory_access.md, R191 to R193. -/

namespace Sys2Proof.Claims

open Machine

/-! ## What a load answers, by its checks -/

theorem exec_lbuCr (rd : CprAddr) (b : ByteIdx) (imm : Int) (rs1 : GprNum) (s : State) :
    exec (.lbuCr rd b imm rs1) s =
      load 1 (effAddr rs1 imm s) s (s.setCprByte rd b (s.byteAt (effAddr rs1 imm s))) := rfl

theorem exec_lhuCr (rd : CprAddr) (h : Fin 2) (imm : Int) (rs1 : GprNum) (s : State) :
    exec (.lhuCr rd h imm rs1) s =
      load 2 (effAddr rs1 imm s) s (s.setCprHalf rd h (memRead16 s (effAddr rs1 imm s))) := rfl

theorem exec_lwCr (rd : CprAddr) (imm : Int) (rs1 : GprNum) (s : State) :
    exec (.lwCr rd imm rs1) s =
      load 4 (effAddr rs1 imm s) s (s.setCpr rd (memRead32 s (effAddr rs1 imm s))) := rfl

theorem halfStops_iff (s : State) (a : Word) :
    HalfStops s a ↔ aligned a 2 = false ∧ s.platform.misalignedSupported = false := by
  rw [aligned_two_false, HalfStops]

theorem wordStops_iff (s : State) (a : Word) :
    WordStops s a ↔ aligned a 4 = false ∧ s.platform.misalignedSupported = false := by
  rw [aligned_four_false, WordStops]

/-- The three clauses of a load, in the order of its checks: `Stops` says that alignment stops it, and `Done` is what
the state after it satisfies (44_memory_access.md R190, R202). -/
theorem load_clauses {n : Nat} {a : Word} {s after : State} {Stops : Prop} {Done : Outcome → Prop}
    (hstops : Stops ↔ aligned a n = false ∧ s.platform.misalignedSupported = false) (hdone : Done (retire after)) :
    (Stops → load n a s after = .fault (.trap .loadAddressMisaligned a s.pc s)) ∧
    (¬ Stops → admits s.platform .read a n = false → load n a s after = .fault (.trap .loadAccessFault a s.pc s)) ∧
    (¬ Stops → admits s.platform .read a n = true → Done (load n a s after)) := by
  rw [hstops]
  refine ⟨fun ⟨hmis, hsup⟩ => load_of_misaligned hmis hsup, load_of_refused, fun hpass hadm => ?_⟩
  rw [load_of_admitted hpass hadm, ← retire_eq]
  exact hdone

/-! ## What a completed load leaves in the registers -/

/-- A write `after` of the CPR file alone completes a load, if it puts the bytes of memory that `got` names into the
view and leaves every other stored byte. -/
theorem loadCompletes_retire {rd : CprAddr} {got : ByteIdx → Option Nat} {a : Word} {s after : State}
    (hframe : after = { s with c := after.c })
    (hgot : ∀ k n, got k = some n → byte (after.cpr rd) k = s.byteAt (a + BitVec.ofNat 32 n))
    (hother : ∀ n k, (∀ m, (got m).isSome = true → home rd m ≠ (n, k)) → after.storedByte n k = s.storedByte n k) :
    LoadCompletes rd got a s (retire after) := by
  refine ⟨after.advance, retire_eq _, ?bytes, hother, ⟨?gprs, ?memory, ?_, ?_, ?_⟩, ?_, ?_⟩
  case bytes => simpa using hgot
  case gprs => exact gpr_congr (by rw [hframe]; rfl)
  case memory => exact byteAt_congr (by rw [hframe]; rfl)
  all_goals rw [hframe]; rfl

section
variable (rd : CprAddr) (s : State) (a : Word)

theorem loadCompletes_setCprByte (b : ByteIdx) :
    LoadCompletes rd (fun k => if k = b then some 0 else none) a s (retire (s.setCprByte rd b (s.byteAt a))) := by
  refine loadCompletes_retire (setCprByte_frame s rd b _) (fun k n hk => ?bytes) fun n k hout => ?others
  case bytes =>
    obtain ⟨rfl, rfl⟩ : k = b ∧ 0 = n := by simpa using hk
    rw [cprByte_setCprByte, if_pos rfl, BitVec.add_zero]
  case others =>
    rw [storedByte_setCprByte, if_neg (hout b (by simp)).symm]

theorem setCprHalf_frame (h : Fin 2) (v : BitVec 16) :
    s.setCprHalf rd h v = { s with c := (s.setCprHalf rd h v).c } := rfl

theorem halfLo_ne_halfHi : ∀ h : Fin 2, halfLo h ≠ halfHi h := by decide

theorem loadCompletes_setCprHalf (h : Fin 2) :
    LoadCompletes rd (fun k => if k.val = 2 * h.val then some 0 else if k.val = 2 * h.val + 1 then some 1 else none) a s
      (retire (s.setCprHalf rd h (memRead16 s a))) := by
  refine loadCompletes_retire (setCprHalf_frame rd s h _) (fun k n hk => ?bytes) fun n k hout => ?others
  case bytes =>
    rw [cprByte_setCprHalf]
    split at hk
    case isTrue hlo =>
      obtain rfl : k = halfLo h := Fin.ext hlo
      obtain rfl : 0 = n := Option.some.inj hk
      rw [if_neg (halfLo_ne_halfHi h), if_pos rfl, BitVec.add_zero]
      exact extractLsb'_append_low _ _
    case isFalse =>
      obtain ⟨hhi, rfl⟩ : k.val = 2 * h.val + 1 ∧ 1 = n := by simpa using hk
      rw [if_pos (Fin.ext hhi : k = halfHi h)]
      exact extractLsb'_append_high _ _
  case others =>
    have hhi : home rd (halfHi h) ≠ (n, k) := hout _ (by simp [halfHi])
    have hlo : home rd (halfLo h) ≠ (n, k) := hout _ (by simp [halfLo])
    rw [storedByte_setCprHalf, if_neg hhi.symm, if_neg hlo.symm]

/-- Byte k of a word read is `M[(a + k) mod 2^32]` (20_memory.md R50). -/
theorem byte_memRead32 (k : ByteIdx) : byte (memRead32 s a) k = s.byteAt (a + BitVec.ofNat 32 k.val) := by
  rcases byteIdx_cases k with rfl | rfl | rfl | rfl
  · exact (byte_wordOfBytes_zero ..).trans (congrArg s.byteAt (BitVec.add_zero a).symm)
  · exact byte_wordOfBytes_one ..
  · exact byte_wordOfBytes_two ..
  · exact byte_wordOfBytes_three ..

theorem loadCompletes_setCpr :
    LoadCompletes rd (fun k => some k.val) a s (retire (s.setCpr rd (memRead32 s a))) := by
  refine loadCompletes_retire (setCpr_frame s rd _) (fun k n hk => ?bytes) fun n k hout => ?others
  case bytes =>
    obtain rfl : k.val = n := Option.some.inj hk
    rw [cpr_setCpr_same, byte_memRead32]
  case others => exact storedByte_setCpr_other s rd _ n k fun m => hout m rfl

end

/-! ## The encodings -/

/-- A row that fixes the opcode and `f3` encodes a form, if the decoder answers that form by the row's `f3`. -/
theorem encodedAs_of_f3 {f3 : BitVec 3} {mask m : Word} (h0 : fixes (m, mask) 0 Config.opcode)
    (h12 : fixes (m, mask) 12 f3) {form : Word → Instr}
    (hdecode : ∀ w, w &&& mask = m → instField w 12 3 = f3 → decodeIse w = .instr (form w)) :
    EncodedAs mask m form := fun w h =>
  (decode_eq_decodeIse (instField_of_fixes h0 h)).trans (hdecode w h (instField_of_fixes h12 h))

/-- The selector of a halfword form: its high bit 0, its low bit `h` (30_encoding.md R94). -/
theorem halfSel_of_top_zero {w : Word} {lo : Nat} (h : instField w (lo + 1) 1 = 0b0#1) (k : Fin 2 → Instr) :
    halfSel w (instField w lo 2) k = .instr (k (instField w lo 1).toFin) := by
  rw [halfSel, extractLsb'_instField (by decide), extractLsb'_instField (by decide), if_pos h, Nat.add_zero]

section
variable {w : Word}

theorem decodeIse_lbuCr (h12 : instField w 12 3 = 0b010#3) :
    decodeIse w = .instr (.lbuCr (rdOf w) (instField w 20 2).toFin (immL w) (rs1Of w).toFin) := by
  simp only [decodeIse, h12]; rfl

theorem decodeIse_lhuCr (h12 : instField w 12 3 = 0b011#3) :
    decodeIse w = halfSel w (instField w 20 2) fun h => .lhuCr (rdOf w) h (immL w) (rs1Of w).toFin := by
  simp only [decodeIse, h12]; rfl

theorem decodeIse_lwCr (h12 : instField w 12 3 = 0b100#3) :
    decodeIse w = wordSel w (instField w 20 2) (.lwCr (rdOf w) (immL w) (rs1Of w).toFin) := by
  simp only [decodeIse, h12]; rfl

end

theorem encodedAs_lbuCr : EncodedAs 0x0000707F 0x0000202B
    (fun w => .lbuCr (rdOf w) (w.extractLsb' 20 2).toFin (immL w) (rs1Of w).toFin) :=
  encodedAs_of_f3 (f3 := 0b010#3) (by decide) (by decide) fun _ _ h12 => decodeIse_lbuCr h12

theorem encodedAs_lhuCr : EncodedAs 0x0020707F 0x0000302B
    (fun w => .lhuCr (rdOf w) (w.extractLsb' 20 1).toFin (immL w) (rs1Of w).toFin) := by
  refine encodedAs_of_f3 (f3 := 0b011#3) (by decide) (by decide) fun w h h12 => ?_
  have h21 : instField w 21 1 = 0b0#1 := instField_of_mask h 21 1 (by decide)
  exact (decodeIse_lhuCr h12).trans (halfSel_of_top_zero h21 _)

theorem encodedAs_lwCr : EncodedAs 0x0030707F 0x0000402B
    (fun w => .lwCr (rdOf w) (immL w) (rs1Of w).toFin) := by
  refine encodedAs_of_f3 (f3 := 0b100#3) (by decide) (by decide) fun w h h12 => ?_
  have h20 : instField w 20 2 = 0b00#2 := instField_of_mask h 20 2 (by decide)
  exact (decodeIse_lwCr h12).trans (if_pos h20)

/-! ## The statements -/

/-- Settles O18: a byte access is always aligned, so of the three clauses of a load the first cannot hold. -/
theorem loadByteResult : Obligations.LoadByteResult := by
  refine ⟨fun rd b imm rs1 s => ?_, encodedAs_lbuCr⟩
  rw [exec_lbuCr]
  have hstops : False ↔ aligned (effAddr rs1 imm s) 1 = false ∧ s.platform.misalignedSupported = false := by simp
  obtain ⟨-, refused, completes⟩ := load_clauses hstops (loadCompletes_setCprByte rd s (effAddr rs1 imm s) b)
  exact ⟨refused not_false, completes not_false⟩

/-- Settles O19: the two bytes written are the homes of bytes 2h and 2h + 1 of the view. -/
theorem loadHalfResult : Obligations.LoadHalfResult := by
  refine ⟨fun rd h imm rs1 s => ?_, encodedAs_lhuCr⟩
  rw [exec_lhuCr]
  exact load_clauses (halfStops_iff s _) (loadCompletes_setCprHalf rd s _ h)

/-- Settles O20: the whole view is written, byte k of the word read being `M[addr + k]`. -/
theorem loadWordResult : Obligations.LoadWordResult := by
  refine ⟨fun rd imm rs1 s => ?_, encodedAs_lwCr⟩
  rw [exec_lwCr]
  exact load_clauses (wordStops_iff s _) (loadCompletes_setCpr rd s _)

end Sys2Proof.Claims
end

section
/-! The provisional encoding of 30_encoding.md, sections 1 to 6: decoding inverts encoding at every `XC_OPCODE`. -/

namespace Sys2Proof.Claims

open Machine

/-! ## A word of each format goes to the decoder of that format -/

theorem decodeWith_encXR (opcode : BitVec 7) (op5 : BitVec 5) (w : BitVec 2) (f rs1 rd : BitVec 5) :
    decodeWith opcode (encXR opcode op5 w f rs1 rd) = decodeXR (encXR opcode op5 w f rs1 rd) := by
  simp [decodeWith, decodeIse]

theorem decodeWith_encXT (opcode : BitVec 7) (b3 b2 b1 b0 : BitVec 2) (rs1 rd : BitVec 5) :
    decodeWith opcode (encXT opcode b3 b2 b1 b0 rs1 rd) = decodeXT (encXT opcode b3 b2 b1 b0 rs1 rd) := by
  simp [decodeWith, decodeIse]

theorem decodeWith_encXL (opcode : BitVec 7) (f3 : BitVec 3) (imm : BitVec 10) (sel : BitVec 2) (rs1 rd : BitVec 5) :
    decodeWith opcode (encXL opcode f3 imm sel rs1 rd) = decodeIse (encXL opcode f3 imm sel rs1 rd) :=
  if_pos (instField_encXL_0 ..)

theorem decodeWith_encXS (opcode : BitVec 7) (f3 : BitVec 3) (imm : BitVec 10) (sel : BitVec 2) (rs1 rs2 : BitVec 5) :
    decodeWith opcode (encXS opcode f3 imm sel rs1 rs2) = decodeIse (encXS opcode f3 imm sel rs1 rs2) :=
  if_pos (instField_encXS_0 ..)

theorem loadImm_encXL (opcode : BitVec 7) (f3 : BitVec 3) (imm : BitVec 10) (sel : BitVec 2) (rs1 rd : BitVec 5) :
    loadImm (encXL opcode f3 imm sel rs1 rd) = imm.toInt := by
  simp [loadImm]

theorem storeImm_encXS (opcode : BitVec 7) (f3 : BitVec 3) (imm : BitVec 10) (sel : BitVec 2) (rs1 rs2 : BitVec 5) :
    storeImm (encXS opcode f3 imm sel rs1 rs2) = imm.toInt := by
  simp [storeImm, storeImm_parts]

/-- The selector that a halfword form is given has its top bit 0, and `h` below it (30_encoding.md R94). -/
theorem halfSel_of_half (inst : Word) (h : Fin 2) (k : Fin 2 → Instr) :
    halfSel inst (0b0#1 ++ BitVec.ofFin (w := 1) h) k = .instr (k h) := by
  fin_cases h <;> rfl

/-! ## Decoding an encoding gives the term back -/

theorem decodeWith_of_encodeWith {opcode : BitVec 7} {i : Instr} {w : Word} (h : encodeWith opcode i = some w) :
    decodeWith opcode w = .instr i := by
  cases i
  case addP1 | addP2 | addP4 | addP8 | subP1 | subP2 | subP4 | subP8 | mulP1 | mulP2 | mulP4 | mulP8
      | sllP1 | sllP2 | sllP4 | sllP8 | srlP1 | srlP2 | srlP4 | srlP8 | rotP1 | rotP2 | rotP4 | rotP8 =>
    obtain rfl := Option.some.inj h
    rw [decodeWith_encXR]
    simp [decodeXR, byWidth]
  case xort | andt | ort | mvcop | mvgpr =>
    obtain rfl := Option.some.inj h
    rw [decodeWith_encXR]
    simp [decodeXR, widthZero, rs2Zero]
  case twid =>
    obtain rfl := Option.some.inj h
    rw [decodeWith_encXT]
    simp [decodeXT]
  case lbuCr | lhuCr | lwCr =>
    obtain ⟨hfits, rfl⟩ := ifFits_eq_some.mp h
    rw [decodeWith_encXL]
    simp [decodeIse, wordSel, halfSel_of_half, loadImm_encXL, toInt_ofInt_of_fits _ hfits]
  case sbCr | shCr | swCr =>
    obtain ⟨hfits, rfl⟩ := ifFits_eq_some.mp h
    rw [decodeWith_encXS]
    simp [decodeIse, wordSel, halfSel_of_half, storeImm_encXS, toInt_ofInt_of_fits _ hfits]
  all_goals cases h

/-! ## A word is the encoding of what it decodes to -/

/-- If `d` is an instruction, `w` is its encoding. -/
def EncodesTo (opcode : BitVec 7) (w : Word) (d : Decoded) : Prop := ∀ i, d = .instr i → encodeWith opcode i = some w

theorem encodesTo_instr {opcode : BitVec 7} {w : Word} {i : Instr} (h : encodeWith opcode i = some w) :
    EncodesTo opcode w (.instr i) := by
  rintro _ ⟨⟩
  exact h

theorem encodesTo_reserved {opcode : BitVec 7} {w v : Word} {why : Reserved} : EncodesTo opcode w (.reserved v why) :=
  fun _ h => nomatch h

theorem encodesTo_host {opcode : BitVec 7} {w v : Word} : EncodesTo opcode w (.host v) := fun _ h => nomatch h

theorem encodesTo_ite {opcode : BitVec 7} {w : Word} {p : Prop} [Decidable p] {d e : Decoded}
    (hd : p → EncodesTo opcode w d) (he : ¬ p → EncodesTo opcode w e) : EncodesTo opcode w (if p then d else e) :=
  iteInduction hd he

/-- A packed form is encoded with the width that selects it (30_encoding.md R92). -/
theorem encodeWith_byWidth {opcode : BitVec 7} {op5 : BitVec 5} {f rs1 rd : BitVec 5} {p1 p2 p4 p8 : Instr}
    (h1 : encodeWith opcode p1 = some (encXR opcode op5 0b00#2 f rs1 rd))
    (h2 : encodeWith opcode p2 = some (encXR opcode op5 0b01#2 f rs1 rd))
    (h4 : encodeWith opcode p4 = some (encXR opcode op5 0b10#2 f rs1 rd))
    (h8 : encodeWith opcode p8 = some (encXR opcode op5 0b11#2 f rs1 rd)) (width : BitVec 2) :
    encodeWith opcode (byWidth width p1 p2 p4 p8) = some (encXR opcode op5 width f rs1 rd) := by
  have hwidth : width = 0b00#2 ∨ width = 0b01#2 ∨ width = 0b10#2 ∨ width = 0b11#2 := by
    revert width; decide
  rcases hwidth with rfl | rfl | rfl | rfl
  · exact h1
  · exact h2
  · exact h4
  · exact h8

/-- A halfword selector with its top bit 0 is that bit before its low bit. -/
theorem halfSelector_eq : ∀ sel : BitVec 2, sel.extractLsb' 1 1 = 0b0#1 →
    0b0#1 ++ BitVec.ofFin (w := 1) (sel.extractLsb' 0 1).toFin = sel := by decide

/-- A load or store whose immediate was decoded has its word. -/
theorem encodesTo_immForm {opcode : BitVec 7} {w u : Word} {i : Instr} {v : BitVec 10}
    (hi : encodeWith opcode i = ifFits v.toInt u) (hu : u = w) : EncodesTo opcode w (.instr i) :=
  encodesTo_instr (by rw [hi, ifFits_of_fits (immFits_toInt v), hu])

section
variable {opcode : BitVec 7} {w : Word} (h0 : instField w 0 7 = opcode)
include h0

theorem encXR_fields {op5 : BitVec 5} {width : BitVec 2} {f : BitVec 5} (h12 : instField w 12 3 = 0b000#3)
    (h27 : instField w 27 5 = op5) (h25 : instField w 25 2 = width) (h20 : instField w 20 5 = f) :
    encXR opcode op5 width f (instField w 15 5) (instField w 7 5) = w := by
  rw [encXR, ← h0, ← h12, ← h27, ← h25, ← h20]
  exact parts_XR w

theorem encXT_fields (h12 : instField w 12 3 = 0b001#3) (h28 : instField w 28 4 = 0b0000#4) :
    encXT opcode (instField w 26 2) (instField w 24 2) (instField w 22 2) (instField w 20 2) (instField w 15 5)
      (instField w 7 5) = w := by
  rw [encXT, ← h0, ← h12, ← h28]
  exact parts_XT w

theorem encXL_fields {f3 : BitVec 3} {sel : BitVec 2} (h12 : instField w 12 3 = f3) (h20 : sel = instField w 20 2) :
    encXL opcode f3 (.ofInt 10 (loadImm w)) sel (instField w 15 5) (instField w 7 5) = w := by
  rw [encXL, loadImm, BitVec.ofInt_toInt, ← h0, ← h12, h20]
  exact parts_XL w

theorem encXS_fields {f3 : BitVec 3} {sel : BitVec 2} (h12 : instField w 12 3 = f3) (h7 : sel = instField w 7 2) :
    encXS opcode f3 (.ofInt 10 (storeImm w)) sel (instField w 15 5) (instField w 20 5) = w := by
  rw [encXS, storeImm, BitVec.ofInt_toInt, storeImm_high, storeImm_low, ← h0, ← h12, h7]
  exact parts_XS w

theorem encodesTo_packed {op5 : BitVec 5} {p1 p2 p4 p8 : Instr} (h12 : instField w 12 3 = 0b000#3)
    (h27 : instField w 27 5 = op5)
    (h1 : encodeWith opcode p1 = some (encXR opcode op5 0b00#2 (instField w 20 5) (instField w 15 5) (instField w 7 5)))
    (h2 : encodeWith opcode p2 = some (encXR opcode op5 0b01#2 (instField w 20 5) (instField w 15 5) (instField w 7 5)))
    (h4 : encodeWith opcode p4 = some (encXR opcode op5 0b10#2 (instField w 20 5) (instField w 15 5) (instField w 7 5)))
    (h8 : encodeWith opcode p8 = some (encXR opcode op5 0b11#2 (instField w 20 5) (instField w 15 5) (instField w 7 5))) :
    EncodesTo opcode w (.instr (byWidth (instField w 25 2) p1 p2 p4 p8)) :=
  encodesTo_instr ((encodeWith_byWidth h1 h2 h4 h8 _).trans (congrArg some (encXR_fields h0 h12 h27 rfl rfl)))

theorem encodesTo_decodeXR (h12 : instField w 12 3 = 0b000#3) : EncodesTo opcode w (decodeXR w) := by
  unfold decodeXR
  refine encodesTo_ite (fun h27 => ?add) fun _ => encodesTo_ite (fun h27 => ?sub) fun _ =>
    encodesTo_ite (fun h27 => ?mul) fun _ => encodesTo_ite (fun h27 => ?sll) fun _ =>
    encodesTo_ite (fun h27 => ?srl) fun _ => encodesTo_ite (fun h27 => ?rot) fun _ =>
    encodesTo_ite (fun h27 => encodesTo_ite (fun h25 => ?xort) fun _ => encodesTo_reserved) fun _ =>
    encodesTo_ite (fun h27 => encodesTo_ite (fun h25 => ?andt) fun _ => encodesTo_reserved) fun _ =>
    encodesTo_ite (fun h27 => encodesTo_ite (fun h25 => ?ort) fun _ => encodesTo_reserved) fun _ =>
    encodesTo_ite (fun h27 => encodesTo_ite (fun h25 => encodesTo_ite (fun h20 => ?mvcop) fun _ => encodesTo_reserved)
      fun _ => encodesTo_reserved) fun _ =>
    encodesTo_ite (fun h27 => encodesTo_ite (fun h25 => encodesTo_ite (fun h20 => ?mvgpr) fun _ => encodesTo_reserved)
      fun _ => encodesTo_reserved) fun _ => encodesTo_reserved
  case add | sub | mul | sll | srl | rot => exact encodesTo_packed h0 h12 h27 rfl rfl rfl rfl
  case xort | andt | ort => exact encodesTo_instr (congrArg some (encXR_fields h0 h12 h27 h25 rfl))
  case mvcop | mvgpr => exact encodesTo_instr (congrArg some (encXR_fields h0 h12 h27 h25 h20))

theorem encodesTo_decodeXT (h12 : instField w 12 3 = 0b001#3) : EncodesTo opcode w (decodeXT w) :=
  encodesTo_ite (fun h28 => encodesTo_instr (congrArg some (encXT_fields h0 h12 h28))) fun _ => encodesTo_reserved

theorem encodesTo_decodeIse : EncodesTo opcode w (decodeIse w) := by
  unfold decodeIse
  refine encodesTo_ite (encodesTo_decodeXR h0) fun hne0 => encodesTo_ite (encodesTo_decodeXT h0) fun hne1 =>
    encodesTo_ite (fun h12 => ?lbu) fun hne2 =>
    encodesTo_ite (fun h12 => encodesTo_ite (fun hsel => ?lhu) fun _ => encodesTo_reserved) fun hne3 =>
    encodesTo_ite (fun h12 => encodesTo_ite (fun hsel => ?lw) fun _ => encodesTo_reserved) fun hne4 =>
    encodesTo_ite (fun h12 => ?sb) fun hne5 =>
    encodesTo_ite (fun h12 => encodesTo_ite (fun hsel => ?sh) fun _ => encodesTo_reserved) fun hne6 =>
    encodesTo_ite (fun hsel => ?sw) fun _ => encodesTo_reserved
  case lbu => exact encodesTo_immForm rfl (encXL_fields h0 h12 rfl)
  case lhu => exact encodesTo_immForm rfl (encXL_fields h0 h12 (halfSelector_eq _ hsel))
  case lw => exact encodesTo_immForm rfl (encXL_fields h0 h12 hsel.symm)
  case sb => exact encodesTo_immForm rfl (encXS_fields h0 h12 rfl)
  case sh => exact encodesTo_immForm rfl (encXS_fields h0 h12 (halfSelector_eq _ hsel))
  case sw =>
    have h12 : instField w 12 3 = 0b111#3 := by bv_omega
    exact encodesTo_immForm rfl (encXS_fields h0 h12 hsel.symm)

end

theorem encodeWith_of_decodeWith {opcode : BitVec 7} {i : Instr} {w : Word} (h : decodeWith opcode w = .instr i) :
    encodeWith opcode i = some w :=
  encodesTo_ite encodesTo_decodeIse (fun _ => encodesTo_host) i h

/-! ## Exactly the well-formed terms have a word -/

theorem isSome_ifFits (imm : Int) (w : Word) : (ifFits imm w).isSome = immFits Config.immW imm := by
  unfold ifFits
  split <;> simp [*]

/-- Exactly the well-formed terms have a word (30_encoding.md R98, R102). -/
theorem isSome_encodeWith (opcode : BitVec 7) (i : Instr) : (encodeWith opcode i).isSome = i.wellFormed := by
  cases i
  case lbuCr | lhuCr | lwCr | sbCr | shCr | swCr => exact isSome_ifFits _ _
  all_goals rfl

/-- What the decoder answers: a term or the word itself as reserved in the opcode space, the host elsewhere. -/
theorem decodeWith_cases (opcode : BitVec 7) (w : Word) :
    instField w 0 7 = opcode ∧ (∃ i, decodeWith opcode w = .instr i) ∨
    instField w 0 7 = opcode ∧ (∃ why, decodeWith opcode w = .reserved w why) ∨
    instField w 0 7 ≠ opcode ∧ decodeWith opcode w = .host w := by
  by_cases h0 : instField w 0 7 = opcode
  · exact (decodeWith_of_ise h0).elim (fun h => .inl ⟨h0, h⟩) fun h => .inr (.inl ⟨h0, h⟩)
  · exact .inr (.inr ⟨h0, decodeWith_of_host h0⟩)

theorem decodeWith_eq_host_iff (opcode : BitVec 7) (w : Word) :
    decodeWith opcode w = .host w ↔ instField w 0 7 ≠ opcode := by
  obtain ⟨h0, i, hd⟩ | ⟨h0, why, hd⟩ | ⟨h0, hd⟩ := decodeWith_cases opcode w <;> simp [hd, h0]

theorem wellFormed_of_decodeWith {opcode : BitVec 7} {w : Word} {i : Instr} (h : decodeWith opcode w = .instr i) :
    i.wellFormed = true := by
  rw [← isSome_encodeWith opcode i, encodeWith_of_decodeWith h, Option.isSome_some]

/-- What the spec says of any encoding holds of the provisional one (30_encoding.md R80, R102). -/
theorem provisionalEncoding_lawful (opcode : BitVec 7) : (provisionalEncoding opcode).Lawful where
  host_iff := decodeWith_eq_host_iff opcode
  host_self w v h := by
    obtain ⟨-, i, hd⟩ | ⟨-, why, hd⟩ | ⟨-, hd⟩ := decodeWith_cases opcode w <;> cases hd.symm.trans h
    rfl
  reserved_self w v why h := by
    obtain ⟨-, i, hd⟩ | ⟨-, why', hd⟩ | ⟨-, hd⟩ := decodeWith_cases opcode w <;> cases hd.symm.trans h
    rfl
  wellFormed_of_decode _ _ := wellFormed_of_decodeWith

/-! ## The statements -/

/-- Settles O57: a word is the concatenation of its fields, so the two directions of the decoder and the encoder meet
in every format, at every opcode. -/
theorem provisionalEncodingIsLawful : Obligations.ProvisionalEncodingIsLawful := by
  intro opcode
  refine ⟨provisionalEncoding_lawful opcode, fun i hi => ?hasWord, fun w i => ?inverse⟩
  case hasWord => exact Option.isSome_iff_exists.mp ((isSome_encodeWith opcode i).trans hi)
  case inverse => exact ⟨encodeWith_of_decodeWith, decodeWith_of_encodeWith⟩

/-- Settles O40: a well-formed term has a word, and that word decodes to it. -/
theorem decodeEncodeRoundTrip : Obligations.DecodeEncodeRoundTrip := by
  intro i hi
  obtain ⟨w, hw⟩ := Option.isSome_iff_exists.mp ((isSome_encodeWith Config.opcode i).trans hi)
  exact ⟨w, hw, decodeWith_of_encodeWith hw⟩

/-- Settles O41: a word that decodes to a term is its encoding, and only well-formed terms have one. -/
theorem encodeDecodeRoundTrip : Obligations.EncodeDecodeRoundTrip := by
  intro w i h
  exact ⟨wellFormed_of_decodeWith h, encodeWith_of_decodeWith h⟩

theorem immFits_eq_false {immW : Nat} {imm : Int} (h : 2 * imm < -2 ^ immW ∨ 2 ^ immW ≤ 2 * imm) :
    immFits immW imm = false := by
  simp only [immFits, Bool.and_eq_false_iff, decide_eq_false_iff_not, Int.not_le, Int.not_lt]
  exact h

/-- Settles O58: the text and the word both ask for a well-formed term, and the six forms for an immediate that fits. -/
theorem outOfRangeHasNoTextAndNoWord : Obligations.OutOfRangeHasNoTextAndNoWord := by
  refine ⟨fun immW i hi => ?text, fun opcode i hi => ?word, fun immW imm rd rs1 b h hout i hi => ?forms⟩
  case text => simp [assemblyAt, hi]
  case word =>
    rw [← isSome_encodeWith opcode i] at hi
    exact Option.isNone_iff_eq_none.mp (Option.isSome_eq_false_iff.mp hi)
  case forms =>
    have hfits := immFits_eq_false hout
    simp only [List.mem_cons, List.not_mem_nil, or_false] at hi
    rcases hi with rfl | rfl | rfl | rfl | rfl | rfl <;> exact hfits

end Sys2Proof.Claims
end

section
/-! The reserved words of the ISE opcode space and the words the spec prints, 30_encoding.md R96, R99, R100. -/

namespace Sys2Proof.Claims

open Machine

/-- A field of one bit is 0 exactly where the bit is not set. -/
theorem instField_one_eq_zero_iff (w : Word) (lo : Nat) : instField w lo 1 = 0b0#1 ↔ w.getLsbD lo ≠ true := by
  rw [← BitVec.toNat_inj]
  simp [instField, BitVec.extractLsb'_toNat, BitVec.getLsbD, Nat.testBit, Nat.and_comm 1]

section
variable {w : Word} (h0 : instField w 0 7 = Config.opcode)
include h0

theorem decode_reserved_of_xr (h12 : instField w 12 3 = 0b000#3)
    (h : (instField w 27 5 ∉ packedOps ++ (bitwiseOps ++ moveOps)) ∨
      (instField w 27 5 ∈ bitwiseOps ++ moveOps ∧ instField w 25 2 ≠ 0b00#2) ∨
      (instField w 27 5 ∈ moveOps ∧ instField w 20 5 ≠ 0b00000#5)) : ∃ why, decode w = .reserved w why := by
  rw [decode_eq_decodeXR h0 h12]
  simp only [packedOps, bitwiseOps, moveOps, List.cons_append, List.nil_append, List.mem_cons, List.not_mem_nil, or_false,
    not_or] at h
  rcases h with hop | ⟨hop, h25⟩ | ⟨hop, h20⟩
  · simp [decodeXR, hop]
  · rcases hop with h27 | h27 | h27 | h27 | h27 <;> simp [decodeXR, widthZero, h27, h25]
  · by_cases h25 : instField w 25 2 = 0b00#2 <;> rcases hop with h27 | h27 <;>
      simp [decodeXR, widthZero, rs2Zero, h27, h25, h20]

theorem decode_reserved_of_half (h : instField w 12 3 = 0b011#3 ∧ w.getLsbD 21 = true ∨
    instField w 12 3 = 0b110#3 ∧ w.getLsbD 8 = true) : ∃ why, decode w = .reserved w why := by
  rw [decode_eq_decodeIse h0]
  rcases h with ⟨h12, hsel⟩ | ⟨h12, hsel⟩ <;>
    simp [decodeIse, halfSel, extractLsb'_instField, instField_one_eq_zero_iff, h12, hsel]

theorem decode_reserved_of_word (h : instField w 12 3 = 0b100#3 ∧ instField w 20 2 ≠ 0b00#2 ∨
    instField w 12 3 = 0b111#3 ∧ instField w 7 2 ≠ 0b00#2) : ∃ why, decode w = .reserved w why := by
  rw [decode_eq_decodeIse h0]
  rcases h with ⟨h12, hsel⟩ | ⟨h12, hsel⟩ <;> simp [decodeIse, wordSel, h12, hsel]

/-- A word with a reserved pattern is reserved. -/
theorem decode_reserved_of_pattern (h : ReservedPattern w) : ∃ why, decode w = .reserved w why := by
  rcases h with ⟨h12, hop⟩ | ⟨h12, h28⟩ | hlhu | hlw | hsh | hsw
  · exact decode_reserved_of_xr h0 h12 hop
  · exact ⟨_, (decode_eq_decodeXT h0 h12).trans (if_neg h28)⟩
  · exact decode_reserved_of_half h0 (.inl hlhu)
  · exact decode_reserved_of_word h0 (.inl hlw)
  · exact decode_reserved_of_half h0 (.inr hsh)
  · exact decode_reserved_of_word h0 (.inr hsw)

theorem decode_instr_of_xr (h12 : instField w 12 3 = 0b000#3)
    (hop : instField w 27 5 ∈ packedOps ++ (bitwiseOps ++ moveOps))
    (h25 : instField w 27 5 ∈ bitwiseOps ++ moveOps → instField w 25 2 = 0b00#2)
    (h20 : instField w 27 5 ∈ moveOps → instField w 20 5 = 0b00000#5) : ∃ i, decode w = .instr i := by
  rcases List.mem_append.mp hop with hpacked | hop
  · exact decode_packed h0 h12 hpacked
  · rcases List.mem_append.mp hop with hbitwise | hmove
    · exact decode_bitwise h0 h12 hbitwise (h25 hop)
    · exact decode_move h0 h12 hmove (h25 hop) (h20 hmove)

/-- A word of the ISE opcode space with no reserved pattern is an instruction. -/
theorem decode_instr_of_not_pattern (h : ¬ ReservedPattern w) : ∃ i, decode w = .instr i := by
  simp only [ReservedPattern, not_or, not_and, not_not] at h
  obtain ⟨hxr, hxt, hlhu, hlw, hsh, hsw⟩ := h
  have hf3 : ∀ f3 : BitVec 3, f3 = 0b000#3 ∨ f3 = 0b001#3 ∨ (f3 = 0b010#3 ∨ f3 = 0b101#3) ∨ f3 = 0b011#3 ∨
    f3 = 0b100#3 ∨ f3 = 0b110#3 ∨ f3 = 0b111#3 := by decide
  rcases hf3 (instField w 12 3) with h12 | h12 | h12 | h12 | h12 | h12 | h12
  · obtain ⟨hop, h25, h20⟩ := hxr h12
    exact decode_instr_of_xr h0 h12 hop h25 h20
  · exact decode_twid h0 h12 (hxt h12)
  · exact decode_byteForm h0 h12
  · exact decode_halfForm h0 (.inl ⟨h12, (instField_one_eq_zero_iff w 21).mpr (hlhu h12)⟩)
  · exact decode_wordForm h0 (.inl ⟨h12, hlw h12⟩)
  · exact decode_halfForm h0 (.inr ⟨h12, (instField_one_eq_zero_iff w 8).mpr (hsh h12)⟩)
  · exact decode_wordForm h0 (.inr ⟨h12, hsw h12⟩)

end

/-! ## The statements -/

/-- Settles O43: in the opcode space a reserved pattern decides between the decoder's two answers, format by format. -/
theorem reservedPatternsDecide : Obligations.ReservedPatternsDecide := by
  intro w
  refine ⟨decodeWith_eq_host_iff Config.opcode w, fun h0 => ?_⟩
  by_cases hpat : ReservedPattern w
  · obtain ⟨why, hd⟩ := decode_reserved_of_pattern h0 hpat
    simp [hd, hpat]
  · obtain ⟨i, hd⟩ := decode_instr_of_not_pattern h0 hpat
    simp [hd, hpat]

/-- Settles O39, by running the decoder on each printed word. -/
theorem printedWordsDecode : Obligations.PrintedWordsDecode := by
  unfold Obligations.PrintedWordsDecode
  decide

end Sys2Proof.Claims
end

section
/-! What every step keeps: the invariant, the OPEN parameters and the code the run has fetched (20_memory.md R66). -/

namespace Sys2Proof.Claims

open Machine

/-! ## What a step keeps, under any encoding -/

/-- The addresses a fetch notes are the four at `pc` (20_memory.md R55, R66). -/
theorem mem_noteFetch (s : State) (b : Nat) :
    b ∈ s.noteFetch.fetched ↔ b ∈ s.fetched ∨ ∃ k < 4, b = (s.pc + BitVec.ofNat 32 k).toNat := by
  rw [noteFetch_fetched, AddrSet.mem_insertAll]
  refine or_congr_right ⟨?_, ?_⟩
  · rintro ⟨a, ha, rfl⟩
    obtain ⟨k, hk, rfl⟩ := (mem_span_iff s.pc a 4 (by decide)).mp ha
    exact ⟨k, hk, rfl⟩
  · rintro ⟨k, hk, rfl⟩
    exact ⟨_, (mem_span_iff s.pc _ 4 (by decide)).mpr ⟨k, hk, rfl⟩, rfl⟩

/-- A byte that none of a host step's stores goes to keeps its value. -/
theorem byteAt_afterHost_other {s : State} {pc : Word} {x : Vector Word 32} {c : Vector Word 16}
    {ws : List (Word × Byte)} {a : Word} (h : a ∉ storeAddrs ws) : (s.afterHost pc x c ws).byteAt a = s.byteAt a := by
  simp [State.byteAt, byte?_writeAll_other _ _ _ h]

/-- A set that meets no address of a list has none of them. -/
theorem not_mem_of_meets_false {t : AddrSet} {as : List Word} (h : t.meets as = false) {a : Word} (ha : a.toNat ∈ t) :
    a ∉ as := fun hmem => Bool.eq_false_iff.mp h ((AddrSet.meets_iff t as).mpr ⟨a, hmem, ha⟩)

/-- The effect of an instruction leaves every fetched byte alone (20_memory.md R66). -/
theorem byteAt_of_effect {s u : State} {i : Instr} (h : Effect s i u) {a : Word} (ha : a.toNat ∈ s.fetched) :
    u.byteAt a = s.byteAt a := by
  cases h with
  | store _ hf => exact byteAt_memWrite_other _ _ _ _ (not_mem_of_meets_false hf ha)
  | gpr => exact byteAt_congr (by simp) a
  | view => exact byteAt_congr (by simp) a
  | drawn => exact byteAt_congr (by simp) a
  | byte => exact byteAt_congr rfl a
  | half => exact byteAt_congr rfl a

/-- What happens after the fetch of a step that completes: the effect of an instruction, or a host step. -/
theorem stepWith_next_cases {xc : Encoding} {s t : State} (h : stepWith xc s = .next t) :
    s.stored.meets (span s.pc 4) = false ∧
      ((∃ i u, Effect s.noteFetch i u ∧ t = u.advance) ∨
       ∃ pc x c ws, s.noteFetch.fetched.meets (storeAddrs ws) = false ∧ t = s.noteFetch.afterHost pc x c ws) := by
  obtain ⟨-, hm, ⟨i, -, -, hexec⟩ | ⟨w, -, hhost⟩⟩ := stepWith_next h
  · exact ⟨hm, .inl ⟨i, exec_next hexec⟩⟩
  · exact ⟨hm, .inr (runHost_next hhost)⟩

section
variable {xc : Encoding} {s t : State} (h : stepWith xc s = .next t)
include h

theorem stepWith_inv (hs : s.inv = true) : t.inv = true := by
  obtain ⟨hm, ⟨i, u, hu, rfl⟩ | ⟨pc, x, c, ws, hws, rfl⟩⟩ := stepWith_next_cases h
  · exact inv_of_same rfl rfl rfl rfl (hu.inv (inv_noteFetch hm hs))
  · exact inv_afterHost hws (inv_noteFetch hm hs)

theorem stepWith_platform : t.platform = s.platform := by
  obtain ⟨-, ⟨i, u, hu, rfl⟩ | ⟨pc, x, c, ws, -, rfl⟩⟩ := stepWith_next_cases h
  · exact hu.platform
  · rfl

theorem stepWith_draws : s.draws ≤ t.draws := by
  obtain ⟨-, ⟨i, u, hu, rfl⟩ | ⟨pc, x, c, ws, -, rfl⟩⟩ := stepWith_next_cases h
  · exact hu.draws_le
  · exact Nat.le_succ _

/-- A step adds the four bytes at its own `pc` to the bytes fetched, and no others. -/
theorem stepWith_fetched : t.fetched = s.noteFetch.fetched := by
  obtain ⟨-, ⟨i, u, hu, rfl⟩ | ⟨pc, x, c, ws, -, rfl⟩⟩ := stepWith_next_cases h
  · exact hu.fetched
  · rfl

/-- A byte the run has fetched, by this step or before, keeps its value. -/
theorem stepWith_byteAt_of_fetched {a : Word} (ha : a.toNat ∈ t.fetched) : t.byteAt a = s.byteAt a := by
  rw [stepWith_fetched h] at ha
  obtain ⟨-, ⟨i, u, hu, rfl⟩ | ⟨pc, x, c, ws, hws, rfl⟩⟩ := stepWith_next_cases h
  · exact (byteAt_of_effect hu ha : u.byteAt a = s.byteAt a)
  · exact byteAt_afterHost_other (not_mem_of_meets_false hws ha)

theorem mem_fetched_of_stepWith {b : Nat} :
    b ∈ t.fetched ↔ b ∈ s.fetched ∨ ∃ k < 4, b = (s.pc + BitVec.ofNat 32 k).toNat := by
  rw [stepWith_fetched h, mem_noteFetch]

end

/-! ## Runs -/

/-- A relation that holds of a state and itself, and that a step before a run extends, holds of the ends of a run. -/
theorem runToWith_induction {xc : Encoding} {endPc : Word} {R : State → State → Prop} (refl : ∀ s, R s s)
    (step : ∀ {s u t}, stepWith xc s = .next u → R u t → R s t) {k : Nat} {s t : State}
    (h : runToWith xc endPc k s = .final t) : R s t := by
  induction k generalizing s with
  | zero =>
    unfold runToWith at h
    split at h <;> cases h
    exact refl _
  | succ k ih =>
    unfold runToWith at h
    split at h
    · cases h
      exact refl _
    · split at h
      · exact step ‹_› (ih h)
      · cases h
      · cases h

/-- A run keeps the invariant. -/
theorem runToWith_inv {xc : Encoding} {endPc : Word} {k : Nat} {s t : State} (h : runToWith xc endPc k s = .final t)
    (hs : s.inv = true) : t.inv = true :=
  runToWith_induction (R := fun s t => s.inv = true → t.inv = true) (fun _ => id)
    (fun hstep ih hs => ih (stepWith_inv hstep hs)) h hs

/-- What a run has stored to stays noted, and it changes no other byte of memory. -/
theorem runToWith_byteAt {xc : Encoding} {endPc : Word} {k : Nat} {s t : State}
    (h : runToWith xc endPc k s = .final t) :
    (∀ b ∈ s.stored, b ∈ t.stored) ∧ ∀ a, a.toNat ∉ t.stored → t.byteAt a = s.byteAt a := by
  refine runToWith_induction (R := fun s t => (∀ b ∈ s.stored, b ∈ t.stored) ∧
    ∀ a, a.toNat ∉ t.stored → t.byteAt a = s.byteAt a) (fun s => ⟨fun _ => id, fun _ _ => rfl⟩) ?_ h
  intro s u t hstep ⟨hstored, hbytes⟩
  obtain ⟨hstored', hbytes'⟩ := stepWith_byteAt hstep
  refine ⟨fun b hb => hstored b (hstored' b hb), fun a ha => ?_⟩
  exact (hbytes a ha).trans (hbytes' a fun hu => ha (hstored _ hu))

/-! ## The statements -/

/-- Settles O50: the fetch keeps the invariant where it meets no stored byte, the effect of an instruction and the host
step where they store to no fetched byte. -/
theorem stepKeepsInvariant : Obligations.StepKeepsInvariant := by
  intro s t hs h
  exact stepWith_inv h hs

/-- Settles O51: the step notes its own fetch before it stores, and a store that meets a noted byte is refused. -/
theorem stepLeavesFetchedCodeAlone : Obligations.StepLeavesFetchedCodeAlone := by
  intro s t h
  refine ⟨fun b hb => ?before, fun k hk => ?own, fun a ha => ?bytes⟩
  case before => exact (mem_fetched_of_stepWith h).mpr (.inl hb)
  case own => exact (mem_fetched_of_stepWith h).mpr (.inr ⟨k, hk, rfl⟩)
  case bytes => exact stepWith_byteAt_of_fetched h ha

/-- Settles O52: by the invariant at the end no fetched byte is among the stored ones, and the run changed only those. -/
theorem runFetchesLaunchMemory : Obligations.RunFetchesLaunchMemory := by
  intro endPc k s t hs h
  have ht : t.inv = true := runToWith_inv h hs
  obtain ⟨-, -, -, -, -, hdisjoint⟩ := (State.inv_iff t).mp ht
  exact ⟨ht, fun a ha => (runToWith_byteAt h).2 a (hdisjoint _ ha)⟩

/-- Settles O56: nothing that a step keeps depends on which term its word stands for. -/
theorem anyEncodingStepKeepsInvariant : Obligations.AnyEncodingStepKeepsInvariant := by
  intro xc s t hs h
  refine ⟨stepWith_inv h hs, stepWith_platform h, fun b hb => ?before, fun a ha => stepWith_byteAt_of_fetched h ha⟩
  case before => exact (mem_fetched_of_stepWith h).mpr (.inl hb)

/-- Settles O53: no effect and no host step writes the platform, and each leaves the counter or adds to it. -/
theorem stepKeepsPlatform : Obligations.StepKeepsPlatform := by
  intro s t h
  exact ⟨stepWith_platform h, stepWith_draws h⟩

end Sys2Proof.Claims
end

section
/-! What a step does: the fetch, the term the word at `pc` stands for, the host step, and what is raised
(20_memory.md R55, 60_exceptions.md R210 to R214, 70_reset_and_hazards.md R243). -/

namespace Sys2Proof.Claims

open Machine

/-! ## What an instruction raises -/

/-- Alignment stops no byte access (20_memory.md R56). -/
theorem not_misaligned_byte (s : State) (a : Word) :
    ¬ (aligned a 1 = false ∧ s.platform.misalignedSupported = false) := by simp

theorem load_byte_fault {a : Word} {s after : State} {f : Fault} (h : load 1 a s after = .fault f) :
    f = .trap .loadAccessFault a s.pc s := by
  cases hadm : admits s.platform .read a 1 with
  | false =>
    rw [load_of_refused (not_misaligned_byte s a) hadm] at h
    cases h
    rfl
  | true =>
    rw [load_of_admitted (not_misaligned_byte s a) hadm] at h
    cases h

theorem store_byte_fault {a : Word} {b : Byte} {s : State} {f : Fault} (h : store a [b] s = .fault f) :
    f = .trap .storeAccessFault a s.pc s := by
  cases hadm : admits s.platform .write a [b].length with
  | false =>
    rw [store_of_refused (not_misaligned_byte s a) hadm] at h
    cases h
    rfl
  | true =>
    rw [store_of_admitted (not_misaligned_byte s a) hadm] at h
    split at h <;> cases h

/-- Everything an instruction can raise: one of its own causes, with the state before it. -/
theorem exec_fault {i : Instr} {s : State} {f : Fault} (h : exec i s = .fault f) :
    ∃ cause ∈ mayRaise i, f = .trap cause (addrOf i s) s.pc s := by
  cases i
  case lbuCr => exact ⟨_, by simp [mayRaise], load_byte_fault h⟩
  case sbCr => exact ⟨_, by simp [mayRaise], store_byte_fault h⟩
  case lhuCr | lwCr => exact (load_fault h).elim (⟨_, by simp [mayRaise], ·⟩) (⟨_, by simp [mayRaise], ·⟩)
  case shCr | swCr => exact (store_fault h).elim (⟨_, by simp [mayRaise], ·⟩) (⟨_, by simp [mayRaise], ·⟩)
  case sllP1 | sllP2 | sllP4 | sllP8 | srlP1 | srlP2 | srlP4 | srlP8 | rotP1 | rotP2 | rotP4 | rotP8 =>
    exact absurd h packedShift_fault
  all_goals cases h

/-! ## The fetch of a step -/

/-- A fetch that is ready gives the word at `pc` (20_memory.md R55). -/
theorem fetch_of_fetchReady {s : State} (h : FetchReady s) : fetch s = .word (wordAtPc s) s.noteFetch := by
  obtain ⟨hadm, hstored⟩ := h
  refine fetch_of_ready hadm (Bool.eq_false_iff.mpr fun hmeets => ?_)
  obtain ⟨a, ha, hmem⟩ := (AddrSet.meets_iff _ _).mp hmeets
  obtain ⟨k, hk, rfl⟩ := (mem_span_iff s.pc a 4 (by decide)).mp ha
  exact hstored k hk hmem

theorem notesFetch_noteFetch (s : State) : NotesFetch s s.noteFetch := ⟨rfl, mem_noteFetch s⟩

theorem atWordBoundary_eq (s : State) (run : Outcome) :
    atWordBoundary s run = if s.pc.toNat % 4 = 0 then run else .refused (.fetchMisaligned s.pc) := by
  simp [atWordBoundary, aligned]

section
variable (xc : Encoding) {s : State} (h : FetchReady s)
include h

theorem stepWith_of_instr {i : Instr} (hd : xc.decode (wordAtPc s) = .instr i) :
    stepWith xc s = if s.pc.toNat % 4 = 0 then exec i s.noteFetch else .refused (.fetchMisaligned s.pc) := by
  rw [stepWith_of_fetch xc (fetch_of_fetchReady h), hd]
  exact atWordBoundary_eq _ _

theorem stepWith_of_reserved {v : Word} {why : Reserved} (hd : xc.decode (wordAtPc s) = .reserved v why) :
    stepWith xc s = if s.pc.toNat % 4 = 0 then .fault (.trap .illegalInstruction v s.pc s.noteFetch)
      else .refused (.fetchMisaligned s.pc) := by
  rw [stepWith_of_fetch xc (fetch_of_fetchReady h), hd]
  exact atWordBoundary_eq _ _

theorem stepWith_of_host {v : Word} (hd : xc.decode (wordAtPc s) = .host v) :
    stepWith xc s = applyHost (Config.hostStep v s.noteFetch) v s.noteFetch := by
  rw [stepWith_of_fetch xc (fetch_of_fetchReady h), hd]
  rfl

end

/-- A trap record of a step holds the state with the fetch noted: only an instruction and a reserved word raise one. -/
theorem stepWith_trap {xc : Encoding} {s : State} {cause : Cause} {tval epc : Word} {before : State}
    (h : stepWith xc s = .fault (.trap cause tval epc before)) : epc = s.pc ∧ before = s.noteFetch := by
  cases hf : fetch s with
  | refused r =>
    simp only [stepWith, hf] at h
    cases h
  | word w s1 =>
    obtain ⟨-, -, -, rfl⟩ := fetch_word hf
    rw [stepWith_of_fetch xc hf] at h
    cases hd : xc.decode w <;> simp only [hd] at h
    case instr i =>
      rw [atWordBoundary_eq] at h
      split at h
      · obtain ⟨c, -, htrap⟩ := exec_fault h
        cases htrap
        exact ⟨rfl, rfl⟩
      · cases h
    case reserved =>
      rw [atWordBoundary_eq] at h
      split at h <;> cases h
      exact ⟨rfl, rfl⟩
    case host v =>
      unfold runHost applyHost at h
      split at h
      · split at h <;> cases h
      · cases h
      · cases h

/-! ## The host step -/

theorem meets_storeAddrs_iff (t : AddrSet) (ws : List (Word × Byte)) :
    t.meets (storeAddrs ws) = true ↔ ∃ p ∈ ws, p.1.toNat ∈ t := by
  simp [AddrSet.meets_iff, storeAddrs]

theorem writeAll_append (m : Memory) (ws ws' : List (Word × Byte)) :
    Memory.writeAll m (ws ++ ws') = Memory.writeAll (Memory.writeAll m ws) ws' := by
  induction ws generalizing m with
  | nil => rfl
  | cons e ws ih => exact ih _

theorem not_mem_storeAddrs {ws : List (Word × Byte)} {a : Word} (h : ∀ p ∈ ws, p.1 ≠ a) : a ∉ storeAddrs ws := by
  simpa [storeAddrs] using fun b hb => h (a, b) hb rfl

/-- The last store of a host step to an address decides its byte. -/
theorem byteAt_afterHost_last {s : State} {pc : Word} {x : Vector Word 32} {c : Vector Word 16}
    {ws ws' : List (Word × Byte)} {a : Word} {v : Byte} (hlast : ∀ p ∈ ws', p.1 ≠ a) :
    (s.afterHost pc x c (ws ++ (a, v) :: ws')).byteAt a = v := by
  have hother := not_mem_storeAddrs hlast
  simp [State.byteAt, writeAll_append, Memory.writeAll, byte?_writeAll_other _ _ _ hother, Memory.byte?_write]

theorem applyHost_next {s : State} {inst pc : Word} {x : Vector Word 32} {c : Vector Word 16} {ws : List (Word × Byte)}
    (h : ∀ p ∈ ws, p.1.toNat ∉ s.fetched) : applyHost (.next pc x c ws) inst s = .next (s.afterHost pc x c ws) := by
  refine if_neg fun hmeets => ?_
  obtain ⟨p, hp, hmem⟩ := (meets_storeAddrs_iff _ _).mp hmeets
  exact h p hp hmem

theorem applyHost_refused {s : State} {inst pc : Word} {x : Vector Word 32} {c : Vector Word 16}
    {ws : List (Word × Byte)} {p : Word × Byte} (hp : p ∈ ws) (h : p.1.toNat ∈ s.fetched) :
    applyHost (.next pc x c ws) inst s = .refused (.storeToFetchedCode s.pc) :=
  if_pos ((meets_storeAddrs_iff _ _).mpr ⟨p, hp, h⟩)

theorem gpr_afterHost {s : State} {pc : Word} {x : Vector Word 32} {c : Vector Word 16} {ws : List (Word × Byte)}
    {i : GprNum} (hi : i ≠ 0) : (s.afterHost pc x c ws).gpr i = x[i] := by
  have hne : 0 ≠ i.val := fun h => hi (Fin.ext h.symm)
  simp [State.gpr, hi, hne]

/-! ## The statements -/

/-- Settles O30: the forms that check an access raise with the effective address; no other form raises. -/
theorem raiseIsPrecise : Obligations.RaiseIsPrecise := by
  intro i s f h
  exact exec_fault h

/-- Settles O55: the word fetched is the word at `pc`, and the encoding only chooses the term. -/
theorem anyEncodingStepRunsItsTerm : Obligations.AnyEncodingStepRunsItsTerm := by
  intro xc s h
  exact ⟨s.noteFetch, notesFetch_noteFetch s, fun _ hd => stepWith_of_instr xc h hd,
    fun _ _ hd => stepWith_of_reserved xc h hd, fun _ hd => stepWith_of_host xc h hd⟩

/-- Settles O35: the default encoding's decoder is `decode`. -/
theorem stepRunsDecodedInstruction : Obligations.StepRunsDecodedInstruction := by
  intro s i h hpc hd
  exact ⟨s.noteFetch, notesFetch_noteFetch s, (stepWith_of_instr defaultEncoding h hd).trans (if_pos hpc)⟩

/-- Settles O32: a word with a reserved pattern decodes to itself as reserved. -/
theorem reservedWordRaises : Obligations.ReservedWordRaises := by
  intro s h hpc h0 hpat
  obtain ⟨why, hd⟩ := decode_reserved_of_pattern h0 hpat
  exact ⟨s.noteFetch, notesFetch_noteFetch s, (stepWith_of_reserved defaultEncoding h hd).trans (if_pos hpc)⟩

/-- Settles O36: a word with other bits 6:0 decodes to itself as the host's. -/
theorem hostWordGoesToHostStep : Obligations.HostWordGoesToHostStep := by
  intro s h h0
  exact ⟨s.noteFetch, notesFetch_noteFetch s, stepWith_of_host defaultEncoding h (decodeWith_of_host h0)⟩

/-- Settles O33: the state of the record is the one after the fetch, which notes addresses and writes nothing else. -/
theorem stepTrapRecordHoldsStateBefore : Obligations.StepTrapRecordHoldsStateBefore := by
  intro s cause tval epc before h
  obtain ⟨rfl, rfl⟩ := stepWith_trap h
  exact ⟨rfl, rfl, rfl, rfl, rfl, rfl, rfl⟩

/-- Settles O34: byte k of the word fetched is the byte of memory at `pc + k`. -/
theorem fetchIsLittleEndian : Obligations.FetchIsLittleEndian := by
  intro s h
  refine ⟨s.noteFetch, fetch_of_fetchReady h, notesFetch_noteFetch s, fun k i hi => ?_⟩
  rw [← byte_memRead32 s s.pc k, byte, BitVec.getLsbD_extractLsb', decide_eq_true hi, Bool.true_and]
  rfl

/-- Settles O38: the three refusals in the order of a step; at the last the word has a term or is reserved. -/
theorem fetchRefusals : Obligations.FetchRefusals := by
  refine ⟨fun s hadm => ?notAdmitted, fun s hadm ⟨k, hk, hstored⟩ => ?stored, fun s h hpc h0 => ?misaligned⟩
  case notAdmitted =>
    apply step_of_refused
    simp [fetch, hadm]
  case stored =>
    have hmeets : s.stored.meets (span s.pc 4) = true :=
      (AddrSet.meets_iff _ _).mpr ⟨_, (mem_span_iff s.pc _ 4 (by decide)).mpr ⟨k, hk, rfl⟩, hstored⟩
    apply step_of_refused
    simp [fetch, hadm, hmeets]
  case misaligned =>
    obtain ⟨i, hd⟩ | ⟨why, hd⟩ := decodeWith_of_ise (opcode := Config.opcode) h0
    · exact (stepWith_of_instr defaultEncoding h hd).trans (if_neg hpc)
    · exact (stepWith_of_reserved defaultEncoding h hd).trans (if_neg hpc)

/-- Settles O37: the state after a completed host step, field by field; its byte stores are applied in order. -/
theorem hostEffectIsApplied : Obligations.HostEffectIsApplied := by
  refine ⟨fun s inst pc x c ws h => ?completes, fun s inst pc x c ws p hp h => applyHost_refused hp h,
    fun _ _ _ _ => rfl, fun _ _ => rfl⟩
  refine ⟨s.afterHost pc x c ws, applyHost_next h, rfl, gpr_zero _, fun i hi => gpr_afterHost hi, rfl, ?last, ?others,
    rfl, rfl, rfl, ?stored⟩
  case last =>
    rintro ws' a v ws'' rfl hlast
    exact byteAt_afterHost_last hlast
  case others => exact fun a ha => byteAt_afterHost_other (not_mem_storeAddrs ha)
  case stored =>
    intro b
    simp [AddrSet.mem_insertAll, storeAddrs]

end Sys2Proof.Claims
end

section
/-! The state after reset, 10_state.md section 6, and the exception codes, 60_exceptions.md R210. -/

namespace Sys2Proof.Claims

open Machine

theorem reset_gpr {i : GprNum} (hi : i ≠ 0) : State.reset.gpr i = Config.launchGpr i := by
  fin_cases i
  · exact absurd rfl hi
  all_goals rfl

theorem reset_c (n : CprNum) : State.reset.c[n] = launchCpr n := by
  fin_cases n <;> rfl

/-- Settles O48: the launch value of each register, and of each byte, at its own index. -/
theorem resetState : Obligations.ResetState := by
  refine ⟨rfl, fun i hi => reset_gpr hi, fun n k => ?cprBytes, rfl, fun a => rfl, rfl, rfl⟩
  case cprBytes => rw [reset_c, launchCpr, byte_ofBytes]

/-- Settles O49: at reset nothing is listed, fetched or stored. -/
theorem resetMeetsInvariant : Obligations.ResetMeetsInvariant :=
  (State.inv_iff State.reset).mpr ⟨rfl, rfl, rfl, rfl, List.forall_mem_nil _, List.forall_mem_nil _⟩

/-- Settles O31: each code is the table's. -/
theorem exceptionCodes : Obligations.ExceptionCodes := ⟨rfl, rfl, rfl, rfl, rfl⟩

end Sys2Proof.Claims
end

section
/-! The stores of 44_memory_access.md, R194 to R196, and the store into fetched code, 20_memory.md R66. -/

namespace Sys2Proof.Claims

open Machine

/-! ## What a store answers, by its checks -/

theorem exec_sbCr (rs2 : CprAddr) (b : ByteIdx) (imm : Int) (rs1 : GprNum) (s : State) :
    exec (.sbCr rs2 b imm rs1) s = store (effAddr rs1 imm s) [byte (s.cpr rs2) b] s := rfl

theorem exec_shCr (rs2 : CprAddr) (h : Fin 2) (imm : Int) (rs1 : GprNum) (s : State) :
    exec (.shCr rs2 h imm rs1) s =
      store (effAddr rs1 imm s) [byte (s.cpr rs2) (halfLo h), byte (s.cpr rs2) (halfHi h)] s := rfl

theorem exec_swCr (rs2 : CprAddr) (imm : Int) (rs1 : GprNum) (s : State) :
    exec (.swCr rs2 imm rs1) s = store (effAddr rs1 imm s)
      [byte (s.cpr rs2) 0, byte (s.cpr rs2) 1, byte (s.cpr rs2) 2, byte (s.cpr rs2) 3] s := rfl

section
variable {a : Word} {n : Nat} (hn : n ≤ 2 ^ 32)
include hn

/-- The access hits fetched code exactly where the model's set of fetched bytes meets its span. -/
theorem hitsFetched_iff (s : State) : HitsFetched s a n ↔ s.fetched.meets (span a n) = true := by
  rw [AddrSet.meets_iff]
  constructor
  · rintro ⟨k, hk, hmem⟩
    exact ⟨_, (mem_span_iff a _ n hn).mpr ⟨k, hk, rfl⟩, hmem⟩
  · rintro ⟨b, hb, hmem⟩
    obtain ⟨k, hk, rfl⟩ := (mem_span_iff a b n hn).mp hb
    exact ⟨k, hk, hmem⟩

/-- An access with a refused byte is not admitted (60_exceptions.md R221). -/
theorem not_admits_of_hasRefusedByte {p : Platform} {k : AccessKind} (h : HasRefusedByte p k a n) :
    admits p k a n = false := by
  obtain ⟨i, hi, hwindow⟩ := h
  exact not_admits_of_byteRefused ((mem_span_iff a _ n hn).mpr ⟨i, hi, rfl⟩) ((byteRefused_iff ..).mpr hwindow)

end

section
variable {a : Word} {bs : List Byte} {s : State} (hlen : bs.length ≤ 2 ^ 32)
include hlen

theorem storeCompletes_retire : StoreCompletes a bs s (retire (memWrite a bs s)) := by
  refine ⟨(memWrite a bs s).advance, retire_eq _, fun k hk => ?bytes, fun b hb => ?others, fun _ => rfl, rfl, rfl, rfl, rfl,
    fun b => ?noted, rfl⟩
  case bytes => exact byteAt_memWrite_at s a bs k hk hlen
  case others =>
    refine byteAt_memWrite_other s a bs b fun hspan => ?_
    obtain ⟨k, hk, heq⟩ := (mem_span_iff a b _ hlen).mp hspan
    exact hb k hk heq
  case noted =>
    rw [advance_stored, memWrite_stored, AddrSet.mem_insertAll]
    refine or_congr_right ⟨?_, ?_⟩
    · rintro ⟨c, hc, rfl⟩
      obtain ⟨k, hk, rfl⟩ := (mem_span_iff a c _ hlen).mp hc
      exact ⟨k, hk, rfl⟩
    · rintro ⟨k, hk, rfl⟩
      exact ⟨_, (mem_span_iff a _ _ hlen).mpr ⟨k, hk, rfl⟩, rfl⟩

/-- The four clauses of a store, in the order of its checks: `Stops` says that alignment stops it
(44_memory_access.md R190, R202; 20_memory.md R66). -/
theorem store_clauses {Stops : Prop}
    (hstops : Stops ↔ aligned a bs.length = false ∧ s.platform.misalignedSupported = false) :
    (Stops → store a bs s = .fault (.trap .storeAddressMisaligned a s.pc s)) ∧
    (¬ Stops → admits s.platform .write a bs.length = false →
      store a bs s = .fault (.trap .storeAccessFault a s.pc s)) ∧
    (¬ Stops → admits s.platform .write a bs.length = true → ¬ HitsFetched s a bs.length →
      StoreCompletes a bs s (store a bs s)) ∧
    (¬ Stops → admits s.platform .write a bs.length = true → HitsFetched s a bs.length →
      store a bs s = .refused (.storeToFetchedCode a)) := by
  rw [hstops, hitsFetched_iff hlen]
  refine ⟨fun ⟨hmis, hsup⟩ => store_of_misaligned hmis hsup, store_of_refused, fun hpass hadm hmeets => ?completes,
    fun hpass hadm hmeets => ?refused⟩
  case completes =>
    rw [store_of_admitted hpass hadm, if_neg hmeets]
    exact storeCompletes_retire hlen
  case refused => rw [store_of_admitted hpass hadm, if_pos hmeets]

end

/-! ## The encodings -/

section
variable {w : Word}

theorem decodeIse_sbCr (h12 : instField w 12 3 = 0b101#3) :
    decodeIse w = .instr (.sbCr (rs2Of w) (instField w 7 2).toFin (immS w) (rs1Of w).toFin) := by
  simp only [decodeIse, h12]; rfl

theorem decodeIse_shCr (h12 : instField w 12 3 = 0b110#3) :
    decodeIse w = halfSel w (instField w 7 2) fun h => .shCr (rs2Of w) h (immS w) (rs1Of w).toFin := by
  simp only [decodeIse, h12]; rfl

theorem decodeIse_swCr (h12 : instField w 12 3 = 0b111#3) :
    decodeIse w = wordSel w (instField w 7 2) (.swCr (rs2Of w) (immS w) (rs1Of w).toFin) := by
  simp only [decodeIse, h12]; rfl

end

theorem encodedAs_sbCr : EncodedAs 0x0000707F 0x0000502B
    (fun w => .sbCr (rs2Of w) (w.extractLsb' 7 2).toFin (immS w) (rs1Of w).toFin) :=
  encodedAs_of_f3 (f3 := 0b101#3) (by decide) (by decide) fun _ _ h12 => decodeIse_sbCr h12

theorem encodedAs_shCr : EncodedAs 0x0000717F 0x0000602B
    (fun w => .shCr (rs2Of w) (w.extractLsb' 7 1).toFin (immS w) (rs1Of w).toFin) := by
  refine encodedAs_of_f3 (f3 := 0b110#3) (by decide) (by decide) fun w h h12 => ?_
  have h8 : instField w 8 1 = 0b0#1 := instField_of_mask h 8 1 (by decide)
  exact (decodeIse_shCr h12).trans (halfSel_of_top_zero h8 _)

theorem encodedAs_swCr : EncodedAs 0x000071FF 0x0000702B
    (fun w => .swCr (rs2Of w) (immS w) (rs1Of w).toFin) := by
  refine encodedAs_of_f3 (f3 := 0b111#3) (by decide) (by decide) fun w h h12 => ?_
  have h7 : instField w 7 2 = 0b00#2 := instField_of_mask h 7 2 (by decide)
  exact (decodeIse_swCr h12).trans (if_pos h7)

/-! ## The statements -/

/-- Settles O21: a byte access is always aligned, so of the clauses of a store the first cannot hold. -/
theorem storeByteResult : Obligations.StoreByteResult := by
  refine ⟨fun rs2 b imm rs1 s => ?_, encodedAs_sbCr⟩
  rw [exec_sbCr]
  obtain ⟨-, refused, completes, -⟩ := store_clauses (bs := [byte (s.cpr rs2) b]) (by simp)
    (iff_of_false not_false (not_misaligned_byte s _))
  exact ⟨refused not_false, completes not_false⟩

/-- Settles O22: the two bytes stored are bytes 2h and 2h + 1 of the view. -/
theorem storeHalfResult : Obligations.StoreHalfResult := by
  refine ⟨fun rs2 h imm rs1 s k0 k1 hk0 hk1 => ?_, encodedAs_shCr⟩
  obtain rfl : k0 = halfLo h := Fin.ext hk0
  obtain rfl : k1 = halfHi h := Fin.ext hk1
  rw [exec_shCr]
  obtain ⟨misaligned, refused, completes, -⟩ := store_clauses
    (bs := [byte (s.cpr rs2) (halfLo h), byte (s.cpr rs2) (halfHi h)]) (by simp) (halfStops_iff s _)
  exact ⟨misaligned, refused, completes⟩

/-- Settles O23: the four bytes of the view are stored in order. -/
theorem storeWordResult : Obligations.StoreWordResult := by
  refine ⟨fun rs2 imm rs1 s => ?_, encodedAs_swCr⟩
  rw [exec_swCr]
  obtain ⟨misaligned, refused, completes, -⟩ := store_clauses
    (bs := [byte (s.cpr rs2) 0, byte (s.cpr rs2) 1, byte (s.cpr rs2) 2, byte (s.cpr rs2) 3]) (by simp) (wordStops_iff s _)
  exact ⟨misaligned, refused, completes⟩

/-- Settles O24: the last clause of a store, at the three widths. -/
theorem storeToFetchedCodeRefused : Obligations.StoreToFetchedCodeRefused := by
  refine ⟨fun rs2 b imm rs1 s => ?byte, fun rs2 h imm rs1 s => ?half, fun rs2 imm rs1 s => ?word⟩
  case byte =>
    obtain ⟨-, -, -, hits⟩ := store_clauses (bs := [byte (s.cpr rs2) b]) (by simp)
      (iff_of_false not_false (not_misaligned_byte s _))
    exact hits not_false
  case half =>
    obtain ⟨-, -, -, hits⟩ := store_clauses (bs := [byte (s.cpr rs2) (halfLo h), byte (s.cpr rs2) (halfHi h)])
      (by simp) (halfStops_iff s _)
    exact hits
  case word =>
    obtain ⟨-, -, -, hits⟩ := store_clauses
      (bs := [byte (s.cpr rs2) 0, byte (s.cpr rs2) 1, byte (s.cpr rs2) 2, byte (s.cpr rs2) 3]) (by simp)
      (wordStops_iff s _)
    exact hits

/-- Settles O59: an access with a refused byte is not admitted, and the second clause of a load or store follows. -/
theorem straddlingAccessTransfersNothing : Obligations.StraddlingAccessTransfersNothing := by
  refine ⟨fun rd b imm rs1 s href => ?lbu, fun rd h imm rs1 s href hgo => ?lhu, fun rd imm rs1 s href hgo => ?lw,
    fun rs2 b imm rs1 s href => ?sb, fun rs2 h imm rs1 s href hgo => ?sh, fun rs2 imm rs1 s href hgo => ?sw⟩
  all_goals have hadm := not_admits_of_hasRefusedByte (by decide) href
  case lbu => exact load_of_refused (not_misaligned_byte s _) hadm
  case lhu => exact load_of_refused ((halfStops_iff s _).not.mp hgo) hadm
  case lw => exact load_of_refused ((wordStops_iff s _).not.mp hgo) hadm
  case sb => exact store_of_refused (not_misaligned_byte s _) hadm
  case sh => exact store_of_refused ((halfStops_iff s _).not.mp hgo) hadm
  case sw => exact store_of_refused ((wordStops_iff s _).not.mp hgo) hadm

end Sys2Proof.Claims
end

section
/-! Every predicate on (kind, address, size) as the admission of a platform, 20_memory.md R53 and log 7, 22. -/

namespace Sys2Proof.Claims

open Machine

theorem finite_accessKind : Finite AccessKind :=
  Finite.of_surjective (fun b : Bool => if b then .read else .write) fun k => by
    cases k
    · exact ⟨true, rfl⟩
    · exact ⟨false, rfl⟩

theorem size_lt_five {n : Nat} (hn : n ∈ [1, 2, 4]) : n < 5 := by
  revert n; decide

theorem size_le {n : Nat} (hn : n ∈ [1, 2, 4]) : n ≤ 2 ^ 32 := by
  have := size_lt_five hn
  omega

/-- There are finitely many accesses of 1, 2 or 4 bytes, so those that a predicate refuses can be listed. -/
theorem exists_refusedAccesses (p : AccessKind → Word → Nat → Bool) :
    ∃ l : List RefusedAccess, ∀ k a n, n ∈ [1, 2, 4] → (⟨k, n, a⟩ ∈ l ↔ p k a n = false) := by
  have := finite_accessKind
  have hfinite : {r : AccessKind × Fin 5 × Word | p r.1 r.2.2 r.2.1 = false}.Finite := Set.toFinite _
  refine ⟨hfinite.toFinset.toList.map fun r => ⟨r.1, r.2.1, r.2.2⟩, fun k a n hn => ?_⟩
  have hlt := size_lt_five hn
  simp only [List.mem_map, Finset.mem_toList, Set.Finite.mem_toFinset, Set.mem_ofPred_eq, RefusedAccess.mk.injEq]
  constructor
  · rintro ⟨⟨k, m, a⟩, hr, rfl, rfl, rfl⟩
    exact hr
  · intro hr
    exact ⟨⟨k, ⟨n, hlt⟩, a⟩, hr, rfl, rfl, rfl⟩

/-- A region for each access of a list, of its one start address. -/
def oneByteWindows (l : List RefusedAccess) : List RefusedWindow := l.map fun r => ⟨r.kind, r.size, r.addr, r.addr⟩

/-- A region of one address refuses that byte and no other. -/
theorem byteRefused_oneByteWindows (l as : List RefusedAccess) (k : AccessKind) (n : Nat) (b : Word) :
    byteRefused ⟨oneByteWindows l, as⟩ k n b = true ↔ ⟨k, n, b⟩ ∈ l := by
  rw [byteRefused_iff]
  constructor
  · rintro ⟨r, hr, rfl, rfl, hlo, hhi⟩
    obtain ⟨x, hx, rfl⟩ := List.mem_map.mp hr
    obtain rfl : x.addr = b := BitVec.le_antisymm hlo hhi
    exact hx
  · intro h
    exact ⟨_, List.mem_map_of_mem h, rfl, rfl, BitVec.le_refl b, BitVec.le_refl b⟩

/-- Settles O54: the refused accesses, of which there are finitely many, are listed as such for a predicate on whole
accesses, and as regions of one byte for one on bytes. -/
theorem everyMemMapIsAPlatform : Obligations.EveryMemMapIsAPlatform := by
  refine ⟨fun p q => ?accesses, fun p q => ?regions, fun q k a n hn hadm href => ?refused⟩
  case accesses =>
    obtain ⟨l, hl⟩ := exists_refusedAccesses p
    refine ⟨⟨[], l⟩, fun k a n hn => ?_⟩
    rw [Bool.eq_iff_iff, admits_iff, hl k a n hn]
    simp [byteRefused]
  case regions =>
    obtain ⟨l, hl⟩ := exists_refusedAccesses p
    refine ⟨⟨oneByteWindows l, []⟩, rfl, fun k a n hn => ?_⟩
    have hbyte (b : Word) : byteRefused ⟨oneByteWindows l, []⟩ k n b = false ↔ p k b n = true := by
      rw [← Bool.not_eq_true, byteRefused_oneByteWindows, hl k b n hn, Bool.not_eq_false]
    simp only [admits_iff, hbyte, mem_span_iff _ _ _ (size_le hn), List.not_mem_nil, not_false_eq_true, and_true]
    exact ⟨fun h i hi => h _ ⟨i, hi, rfl⟩, fun h b ⟨i, hi, heq⟩ => heq ▸ h i hi⟩
  case refused =>
    exact Bool.eq_false_iff.mp (not_admits_of_hasRefusedByte (size_le hn) href) hadm

end Sys2Proof.Claims
end

section
/-! What a completed instruction leaves unchanged: the frames of 10_state.md sections 1 to 3 and 20_memory.md section 4. -/

namespace Sys2Proof.Claims

open Machine

/-- An instruction that writes a whole view is listed with the view's four bytes (the table of 10_state.md R32). -/
theorem mem_cprWritten_of_viewWritten {i : Instr} {rd : CprAddr} (h : viewWritten i = some rd) (k : ByteIdx) :
    (rd, k) ∈ cprWritten i := by
  have hall : cprWritten i = [(rd, 0), (rd, 1), (rd, 2), (rd, 3)] := by
    cases i <;> cases h <;> rfl
  rcases byteIdx_cases k with rfl | rfl | rfl | rfl <;> simp [hall]

/-- A stored byte that the table does not list is no byte of a view the instruction writes. -/
theorem home_ne_of_viewWritten {i : Instr} {rd : CprAddr} {n : CprNum} {k : ByteIdx} (h : viewWritten i = some rd)
    (hout : ∀ p ∈ cprWritten i, home p.1 p.2 ≠ (n, k)) (m : ByteIdx) : home rd m ≠ (n, k) :=
  hout (rd, m) (mem_cprWritten_of_viewWritten h m)

/-- A store's bytes go to its effective address, as many as its width. -/
theorem bytesStored_span {s : State} {i : Instr} {a : Word} {bs : List Byte} (h : bytesStored s i = some (a, bs)) :
    addrOf i s = a ∧ storeWidth i = bs.length := by
  cases i <;> cases h <;> exact ⟨rfl, rfl⟩

theorem storeWidth_le (i : Instr) : storeWidth i ≤ 2 ^ 32 := by
  cases i <;> exact Nat.le_of_ble_eq_true rfl

section
variable {s u : State} {i : Instr} (h : Effect s i u)
include h

/-- Only MVCOP writes a general purpose register, the one it names (10_state.md section 1). -/
theorem gpr_of_effect {j : GprNum} (hj : u.gpr j ≠ s.gpr j) : ∃ cpr, i = .mvcop j cpr := by
  cases h with
  | gpr g a =>
    by_cases hg : j = g
    · exact ⟨a, hg ▸ rfl⟩
    · exact absurd (gpr_setGpr_other hg s _) hj
  | view v => exact absurd (gpr_congr (setCpr_x s _ v) j) hj
  | drawn => exact absurd (gpr_congr (setCpr_x s.noteDraw _ _) j) hj
  | byte => exact absurd rfl hj
  | half => exact absurd rfl hj
  | store => exact absurd rfl hj

/-- A stored byte that the table of 10_state.md R32 does not list is left alone. -/
theorem storedByte_of_effect {n : CprNum} {k : ByteIdx} (hout : ∀ p ∈ cprWritten i, home p.1 p.2 ≠ (n, k)) :
    u.storedByte n k = s.storedByte n k := by
  cases h with
  | gpr g a => exact storedByte_congr (setGpr_c s g _) n k
  | view v hv => exact storedByte_setCpr_other s _ v n k (home_ne_of_viewWritten hv hout)
  | drawn hv => exact storedByte_setCpr_other s.noteDraw _ _ n k (home_ne_of_viewWritten hv hout)
  | byte rd b =>
    have hb : home rd b ≠ (n, k) := hout (rd, b) (by simp [cprWritten])
    rw [storedByte_setCprByte, if_neg hb.symm]
  | half rd h =>
    have hhi : home rd (halfHi h) ≠ (n, k) := hout (rd, halfHi h) (by simp [cprWritten])
    have hlo : home rd (halfLo h) ≠ (n, k) := hout (rd, halfLo h) (by simp [cprWritten])
    rw [storedByte_setCprHalf, if_neg hhi.symm, if_neg hlo.symm]
  | store => rfl

/-- A byte of memory outside the span of a store is left alone, and all of them by the other forms. -/
theorem byteAt_of_effect_outside {a : Word} (hout : a ∉ span (addrOf i s) (storeWidth i)) :
    u.byteAt a = s.byteAt a := by
  cases h with
  | store hb _ =>
    obtain ⟨haddr, hwidth⟩ := bytesStored_span hb
    rw [haddr, hwidth] at hout
    exact byteAt_memWrite_other _ _ _ _ hout
  | gpr g _ => exact byteAt_congr (setGpr_mem s g _) a
  | view v => exact byteAt_congr (setCpr_mem s _ v) a
  | drawn => exact byteAt_congr (setCpr_mem s.noteDraw _ _) a
  | byte => rfl
  | half => rfl

end

/-! ## The statements -/

/-- Settles O26: the effect of an instruction leaves `pc`, and completing it adds 4. -/
theorem completedInstructionAdvancesPc : Obligations.CompletedInstructionAdvancesPc := by
  intro i s t h
  obtain ⟨u, hu, rfl⟩ := exec_next h
  rw [advance_pc, hu.pc]

/-- Settles O27: of the effects only that of MVCOP writes the GPR file. -/
theorem onlyMvcopWritesGprs : Obligations.OnlyMvcopWritesGprs := by
  intro i s t h j hj
  obtain ⟨u, hu, rfl⟩ := exec_next h
  exact gpr_of_effect hu hj

/-- Settles O28: each effect writes the homes of the bytes that the table lists. -/
theorem onlyListedCprBytesChange : Obligations.OnlyListedCprBytesChange := by
  intro i s t h n k hout
  obtain ⟨u, hu, rfl⟩ := exec_next h
  exact storedByte_of_effect hu hout

/-- Settles O29: the bytes a store writes are those of its span. -/
theorem onlyStoresChangeMemory : Obligations.OnlyStoresChangeMemory := by
  intro i s t h a hout
  obtain ⟨u, hu, rfl⟩ := exec_next h
  refine (byteAt_advance u a).trans (byteAt_of_effect_outside hu fun hspan => ?_)
  obtain ⟨k, hk, heq⟩ := (mem_span_iff _ a _ (storeWidth_le i)).mp hspan
  exact hout k hk heq

end Sys2Proof.Claims
end

section
/-! Sequences of two and more instructions: loads after stores (20_memory.md R64), byte loads to one view
(44_memory_access.md R204), and moves (40_move.md). -/

namespace Sys2Proof.Claims

open Machine

/-- After SW.cr, memory holds the four bytes of the view. -/
theorem byteAt_of_swCr {rs2 : CprAddr} {imm : Int} {rs1 : GprNum} {s t : State}
    (h : exec (.swCr rs2 imm rs1) s = .next t) (k : Fin 4) :
    t.byteAt (s.gpr rs1 + BitVec.ofInt 32 imm + BitVec.ofNat 32 k.val) = byte (s.cpr rs2) k := by
  rw [exec_swCr] at h
  obtain ⟨-, -, rfl⟩ := store_next h
  have hwritten := byteAt_memWrite_at s (effAddr rs1 imm s)
    [byte (s.cpr rs2) 0, byte (s.cpr rs2) 1, byte (s.cpr rs2) 2, byte (s.cpr rs2) 3] k.val k.isLt (by simp)
  rw [byteAt_advance]
  refine hwritten.trans ?_
  rcases byteIdx_cases k with rfl | rfl | rfl | rfl <;> rfl

/-- After LBU.cr, byte b of the view is the byte of memory and the others are as before. -/
theorem cpr_of_lbuCr {rd : CprAddr} {b : ByteIdx} {imm : Int} {rs1 : GprNum} {s t : State}
    (h : exec (.lbuCr rd b imm rs1) s = .next t) (k : ByteIdx) :
    byte (t.cpr rd) k = if k = b then s.byteAt (s.gpr rs1 + BitVec.ofInt 32 imm) else byte (s.cpr rd) k := by
  rw [exec_lbuCr] at h
  obtain ⟨-, rfl⟩ := load_next h
  rw [cpr_advance, cprByte_setCprByte]
  rfl

theorem gpr_of_lbuCr {rd : CprAddr} {b : ByteIdx} {imm : Int} {rs1 : GprNum} {s t : State}
    (h : exec (.lbuCr rd b imm rs1) s = .next t) (i : GprNum) : t.gpr i = s.gpr i := by
  obtain ⟨-, rfl⟩ := load_next h
  rfl

theorem byteAt_of_lbuCr {rd : CprAddr} {b : ByteIdx} {imm : Int} {rs1 : GprNum} {s t : State}
    (h : exec (.lbuCr rd b imm rs1) s = .next t) (a : Word) : t.byteAt a = s.byteAt a := by
  obtain ⟨-, rfl⟩ := load_next h
  rfl

/-- Settles O44: the load reads the byte that the store put at its address. -/
theorem byteLoadAfterWordStore : Obligations.ByteLoadAfterWordStore := by
  intro rs2 imm rs1 s t hstore rd b imm' rs1' u k hload haddr
  rw [cpr_of_lbuCr hload, if_pos rfl, haddr, byteAt_of_swCr hstore]

/-- Settles O45: the two views agree byte by byte. -/
theorem wordLoadAfterWordStore : Obligations.WordLoadAfterWordStore := by
  intro rs2 imm rs1 s t hstore rd imm' rs1' u hload haddr
  rw [exec_lwCr] at hload
  obtain ⟨-, rfl⟩ := load_next hload
  refine eq_of_byte_eq fun k => ?_
  rw [cpr_advance, cpr_setCpr_same, byte_memRead32, effAddr, haddr, byteAt_of_swCr hstore]

/-- Settles O46: each load sets its own byte of the view, and the registers and memory it reads are those at the start. -/
theorem fourByteLoadsBuildWord : Obligations.FourByteLoadsBuildWord := by
  intro rd i0 i1 i2 i3 r0 r1 r2 r3 s s1 s2 s3 t h0 h1 h2 h3
  refine eq_of_byte_eq fun k => ?_
  have hbytes : byte (t.cpr rd) k =
      if k = 3 then s.byteAt (s.gpr r3 + BitVec.ofInt 32 i3) else if k = 2 then s.byteAt (s.gpr r2 + BitVec.ofInt 32 i2)
      else if k = 1 then s.byteAt (s.gpr r1 + BitVec.ofInt 32 i1) else if k = 0 then s.byteAt (s.gpr r0 + BitVec.ofInt 32 i0)
      else byte (s.cpr rd) k := by
    simp only [cpr_of_lbuCr h3, cpr_of_lbuCr h2, cpr_of_lbuCr h1, cpr_of_lbuCr h0, gpr_of_lbuCr h2, gpr_of_lbuCr h1,
      gpr_of_lbuCr h0, byteAt_of_lbuCr h2, byteAt_of_lbuCr h1, byteAt_of_lbuCr h0]
  rw [hbytes]
  rcases byteIdx_cases k with rfl | rfl | rfl | rfl
  · exact (byte_wordOfBytes_zero ..).symm
  · exact (byte_wordOfBytes_one ..).symm
  · exact (byte_wordOfBytes_two ..).symm
  · exact (byte_wordOfBytes_three ..).symm

/-- Settles O47: the view written by MVGPR is read back by MVCOP. -/
theorem moveThereAndBack : Obligations.MoveThereAndBack := by
  intro cpr gpr gpr' s t u hto hback hne
  rw [exec_mvgpr] at hto
  rw [exec_mvcop] at hback
  cases hto
  cases hback
  rw [gpr_advance, gpr_setGpr, if_neg hne, if_pos rfl, cpr_advance, cpr_setCpr_same]

end Sys2Proof.Claims
end

section
/-! Relations between packed results: rotations in the two directions, and independent fields
(41_packed_arithmetic.md sections 6 and 7). -/

namespace Sys2Proof.Claims

open Machine

/-- `rotr(f, s, W) = rotl(f, W - s, W)` (41_packed_arithmetic.md section 6). -/
theorem laneRot_right_eq_left {W k k' : Nat} (h : k + k' = W) (a : BitVec W) : laneRot .right k a = laneRot .left k' a := by
  have hk : W - k = k' := by omega
  have hk' : W - k' = k := by omega
  rw [laneRot, laneRot, hk, hk', BitVec.or_comm]

/-- A rotation by less than the width writes the fields rotated in the machine's direction. -/
theorem completes_rot_withDir {p : Packing} {k : Fin 32} (hk : k.val < fieldWidth p) (rd rs1 : CprAddr) (s : State)
    (d : RotDir) : Completes rd (fun r => r = packed1 p (laneRot d k.val) (s.cpr rs1)) (withDir s d)
      (exec (rotForm p rd rs1 k) (withDir s d)) := by
  rw [exec_rotForm, packedShift, if_pos hk]
  exact completes_setCpr rd (withDir s d) rfl

theorem sameRotation_rotForm {p : Packing} (rd rs1 : CprAddr) {k k' : Fin 32} (s : State)
    (h : 0 < k.val ∧ 0 < k'.val ∧ k.val + k'.val = fieldWidth p) :
    SameRotation (rotForm p rd rs1 k) (rotForm p rd rs1 k') rd s := by
  obtain ⟨hk, hk', hsum⟩ := h
  have hright : laneRot .right k.val = laneRot (W := fieldWidth p) .left k'.val := funext (laneRot_right_eq_left hsum)
  refine ⟨packed1 p (laneRot .left k'.val) (s.cpr rs1), ?right, completes_rot_withDir (by omega) rd rs1 s .left⟩
  rw [← hright]
  exact completes_rot_withDir (by omega) rd rs1 s .right

/-- Two words agree in a field of the statements where they agree in the model's. -/
theorem field_eq_of_fieldNat_eq {p : Packing} {v w : Word} {i : Nat}
    (h : fieldNat (fieldWidth p) v i = fieldNat (fieldWidth p) w i) : field p v i = field p w i := by
  rw [fieldNat_eq, fieldNat_eq] at h
  exact BitVec.eq_of_toNat_eq h

/-- A form that is a packed operation on two views is independent field by field. -/
theorem laneAlone2_of_exec {p : Packing} {f : BitVec (fieldWidth p) → BitVec (fieldWidth p) → BitVec (fieldWidth p)}
    {op : CprAddr → CprAddr → CprAddr → Instr}
    (hexec : ∀ rd rs1 rs2 s, exec (op rd rs1 rs2) s = packedArith p f rd rs1 rs2 s) :
    LaneAlone2 (fieldWidth p) (fieldCount p) op := by
  intro rd rs1 rs2 s s' t t' i hi h h' ha hb
  rw [hexec] at h h'
  cases h
  cases h'
  rw [fieldNat_eq, fieldNat_eq, cpr_advance, cpr_advance, cpr_setCpr_same, cpr_setCpr_same, field_packed2 _ _ _ _ _ hi,
    field_packed2 _ _ _ _ _ hi, field_eq_of_fieldNat_eq ha, field_eq_of_fieldNat_eq hb]

/-- A form that is a packed shift or rotate is independent field by field, below the width. -/
theorem laneAlone1_of_exec {p : Packing} {f : RotDir → Nat → BitVec (fieldWidth p) → BitVec (fieldWidth p)}
    {op : CprAddr → CprAddr → Fin 32 → Instr}
    (hexec : ∀ rd rs1 shamt s, exec (op rd rs1 shamt) s = packedShift p (f s.platform.rotDir) rd rs1 shamt s) :
    LaneAlone1 (fieldWidth p) (fieldCount p) op := by
  intro rd rs1 shamt s s' t t' i hi hlt hdir h h' ha
  rw [hexec, packedShift, if_pos hlt] at h h'
  cases h
  cases h'
  rw [fieldNat_eq, fieldNat_eq, cpr_advance, cpr_advance, cpr_setCpr_same, cpr_setCpr_same, field_packed1 _ _ _ _ hi,
    field_packed1 _ _ _ _ hi, field_eq_of_fieldNat_eq ha, hdir]

/-! ## The statements -/

/-- Settles O14: in each field the two shifts of one rotation are those of the other, exchanged. -/
theorem rotateRightIsRotateLeftByTheRest : Obligations.RotateRightIsRotateLeftByTheRest := by
  intro rd rs1 k k' s
  exact ⟨sameRotation_rotForm (p := .p8) rd rs1 s, sameRotation_rotForm (p := .p4) rd rs1 s,
    sameRotation_rotForm (p := .p2) rd rs1 s, sameRotation_rotForm (p := .p1) rd rs1 s⟩

/-- Settles O15: each field of a packed result is a function of the same fields of the sources. -/
theorem packedFieldsAreIndependent : Obligations.PackedFieldsAreIndependent := by
  have add (p : Packing) := laneAlone2_of_exec (exec_addForm p)
  have sub (p : Packing) := laneAlone2_of_exec (exec_subForm p)
  have mul (p : Packing) := laneAlone2_of_exec (exec_mulForm p)
  have sll (p : Packing) := laneAlone1_of_exec (f := fun _ => laneShl) (exec_sllForm p)
  have srl (p : Packing) := laneAlone1_of_exec (f := fun _ => laneShr) (exec_srlForm p)
  have rot (p : Packing) := laneAlone1_of_exec (f := laneRot) (exec_rotForm p)
  exact ⟨⟨add .p1, add .p2, add .p4, add .p8⟩, ⟨sub .p1, sub .p2, sub .p4, sub .p8⟩,
    ⟨mul .p1, mul .p2, mul .p4, mul .p8⟩, ⟨sll .p1, sll .p2, sll .p4, sll .p8⟩,
    ⟨srl .p1, srl .p2, srl .p4, srl .p8⟩, ⟨rot .p1, rot .p2, rot .p4, rot .p8⟩⟩

end Sys2Proof.Claims
end
